-- ==== Sys2Proof/Word.lean ====
section
/-! DEFINITION. The word types of the block (spec/00_scope.md R9, R10): bytes, 32-bit register values and addresses,
128-bit cipher blocks. Nothing in the block is signed. -/

namespace Sys2Proof

/-- One byte of host memory, of the key or of a tag. -/
abbrev Byte := BitVec 8

/-- A host register value, an operand, an address or a device code (R9: every host register is 32 bits). -/
abbrev Word := BitVec 32

/-- A cipher block, a subkey or the chaining state, as a number (R9, R11). -/
abbrev Block := BitVec 128

end Sys2Proof
end

