-- ==== Sys2Proof/Config.lean ====
section
/-! DEFINITION. What the platform fixes and what nobody fixes: the parameters of spec/00_scope.md R8 and the draws of
spec/40_engine.md R130. A constant declared opaque has no body: no proof can see its value, so a statement that holds
is true of every platform (log 6). -/

namespace Sys2Proof

/-- The answers the device may give to CipherBind and CipherEncrypt (40_engine.md R130). The value that comes with an OK to
CipherEncrypt is not part of the draw: it is E's (R133). -/
inductive Answer where
  | ok
  | err (code : Word)
  deriving DecidableEq, Repr, Inhabited

/-- The answers the device may give to CipherAcquire (40_engine.md R130). -/
inductive AcquireAnswer where
  | granted
  | timeout
  | err (code : Word)
  deriving DecidableEq, Repr, Inhabited

/-- The answers left to CipherAcquire while another user holds the instance's lock: anything but GRANTED
(60_exceptions.md R291). -/
inductive ContendedAnswer where
  | timeout
  | err (code : Word)
  deriving DecidableEq, Repr, Inhabited

namespace Config

/-- BASE / 0x40, left open by R8. That it is 26 bits, so BASE 32, is the model's choice (DESIGN CHOICE, log 19). -/
opaque baseIndex : BitVec 26

/-- BASE, the byte address of the register window: a multiple of 0x40 (R8), by its form. R8 gives the host bus address no
width. DESIGN CHOICE (log 19): it is 32 bits, the width of the addresses the engine issues, and the host reaches the window
and host memory in one address space, so the window lies over 0x40 bytes of host memory for the host. -/
def base : Word := baseIndex ++ (0 : BitVec 6)

/-- FAMILIES: the cipher families the device accepts; 1 is AES (R8, value for this hardware). -/
def families : List Word := [1]

/-- KEY_SIZES of a family other than 1, left open by R8. -/
opaque otherKeySizes : Word → List Word

/-- KEY_SIZES: the key lengths in bits a family accepts; 128 and 256 for AES (R8). -/
def keySizes (family : Word) : List Word :=
  if family = 1 then [128, 256] else otherKeySizes family

/-- E: the block-encrypt function of a family with a key of the given length in bits (R8; 40_engine.md R133). Total and
deterministic, and nothing else is assumed of it. -/
opaque encrypt : (family keyBits : Word) → (key : List Byte) → Block → Block

/-- DEFAULT_DEVICE_INSTANCE (R8). -/
opaque defaultDeviceInstance : Word

/-- DEFAULT_LOCK_WAIT_TICKS (R8). -/
opaque defaultLockWaitTicks : Word

/-- DEVICE_INSTANCE_VALID: the instances the device accepts (R8). -/
opaque deviceInstanceValid : Word → Bool

/-- LOCK_WAIT_VALID: the wait budgets the device accepts (R8). -/
opaque lockWaitValid : Word → Bool

/-- RESET_RELEASES_LOCK, its part about a lock the block held (R8; 70_reset_and_hazards.md R311; log 12). -/
opaque resetReleasesLock : Bool

/-- RESET_RELEASES_LOCK, its part about a binding the block held (R8; 70_reset_and_hazards.md R311; log 12). -/
opaque resetDropsBinding : Bool

/-- NUM_BLOCKS less one: the blocks of the platform beside this one (R8). -/
opaque otherBlocks : Nat

/-- NUM_BLOCKS, at least 1 (R8). The model is one of them (log 15). -/
def numBlocks : Nat := otherBlocks + 1

/-- The free answer number `k` to a CipherBind (40_engine.md R130; log 3). -/
opaque bindDraw : Nat → Answer

/-- The free answer number `k` to a CipherAcquire (40_engine.md R130; log 3). -/
opaque acquireDraw : Nat → AcquireAnswer

/-- The free answer number `k` to a CipherAcquire of an instance whose lock another user holds (60_exceptions.md R291). -/
opaque contendedDraw : Nat → ContendedAnswer

/-- The free answer number `k` to a CipherEncrypt (40_engine.md R130; log 3). -/
opaque encryptDraw : Nat → Answer

end Config
end Sys2Proof
end

