-- ==== Sys2Proof/Machine/Datapath.lean ====
section
/-! DEFINITION. The pure functions of spec/41_datapath.md, with the byte conversions of spec/00_scope.md R11. None reads
or writes state; those that encrypt take the block-encrypt function as an argument. -/

namespace Sys2Proof.Machine

/-- `be128` (00_scope.md R11): bytes as a number, byte 0 the most significant. -/
def be128 (b : List Byte) : Block :=
  b.foldl (fun acc x => (acc <<< 8) ||| x.setWidth 128) 0

/-- `bytes16(x)[j]` (00_scope.md R11): bits 127-8j to 120-8j. -/
def byteOf (x : Block) (j : Nat) : Byte := x.extractLsb' (120 - 8 * j) 8

/-- `bytes16` (00_scope.md R11), the inverse of `be128` on 16 bytes. -/
def bytes16 (x : Block) : List Byte := (List.range 16).map (byteOf x)

/-- The reduction constant Rb (R150). -/
def Rb : Block := 0x87

/-- Doubling in GF(2^128) (R150). -/
def dbl (x : Block) : Block := (x <<< 1) ^^^ (if x.getLsbD 127 then Rb else 0)

/-- The encryption of the zero block under a key (R153; 42_setkey.md R186). -/
def encryptZero (E : Word → Word → List Byte → Block → Block) (family keyBits : Word) (key : List Byte) : Block :=
  E family keyBits key 0

/-- `derive_subkeys` (R153): the triple L, K1, K2. -/
def deriveSubkeys (E : Word → Word → List Byte → Block → Block) (family keyBits : Word) (key : List Byte) :
    Block × Block × Block :=
  let l := encryptZero E family keyBits key
  (l, dbl l, dbl (dbl l))

/-- `nblocks` (R154): the number of blocks of a message of `nb` bytes, at least one. -/
def nblocks (nb : Nat) : Nat := max 1 ((nb + 15) / 16)

/-- `complete` (R155): the last block is whole. -/
def complete (nb : Nat) : Bool := decide (0 < nb) && nb % 16 == 0

/-- `pad` (R156): 0x80, then zero bytes up to 16. -/
def pad (b : List Byte) : List Byte := b ++ 0x80 :: List.replicate (15 - b.length) 0

/-- `lastblock` (R157): the value XORed into the chain for the last block. -/
def lastBlock (k1 k2 : Block) (b : List Byte) (nb : Nat) : Block :=
  if complete nb then be128 b ^^^ k1 else be128 (pad b) ^^^ k2

/-- One CBC step (R158). -/
def chain (E : Word → Word → List Byte → Block → Block) (family keyBits : Word) (key : List Byte) (st x : Block) :
    Block :=
  E family keyBits key (st ^^^ x)

/-- Block `k` (from 1) of a message (20_memory.md R61). -/
def messageBlock (msg : List Byte) (k : Nat) : List Byte := (msg.drop (16 * (k - 1))).take 16

/-- The chaining state after the first `k` whole blocks of a message (R159). -/
def chainPrefix (E : Word → Word → List Byte → Block → Block) (family keyBits : Word) (key msg : List Byte) :
    Nat → Block
  | 0 => 0
  | k + 1 =>
    chain E family keyBits key (chainPrefix E family keyBits key msg k) (be128 (messageBlock msg (k + 1)))

/-- The MAC of a message under given subkeys (R159 with K1 and K2 taken as they are). -/
def macWith (E : Word → Word → List Byte → Block → Block) (family keyBits : Word) (key : List Byte) (k1 k2 : Block)
    (msg : List Byte) : Block :=
  let n := nblocks msg.length
  chain E family keyBits key (chainPrefix E family keyBits key msg (n - 1))
    (lastBlock k1 k2 (messageBlock msg n) msg.length)

/-- `cmac` (R159): the full-length MAC of a message. -/
def cmac (E : Word → Word → List Byte → Block → Block) (family keyBits : Word) (key msg : List Byte) : Block :=
  let (_, k1, k2) := deriveSubkeys E family keyBits key
  macWith E family keyBits key k1 k2 msg

/-- `mask` (R160): the bits of tag byte `j` that belong to a `t`-bit tag. -/
def tagMask (t j : Nat) : Byte :=
  if j < t / 8 then 0xFF
  else if j = t / 8 ∧ t % 8 ≠ 0 then (0xFF : Byte) <<< (8 - t % 8)
  else 0

/-- `tagbyte` (R161). -/
def tagByte (mac : Block) (t j : Nat) : Byte := byteOf mac j &&& tagMask t j

/-- The length in bytes of a `t`-bit tag (R161). -/
def tagBytes (t : Nat) : Nat := (t + 7) / 8

/-- The tag of `t` bits of a MAC (R161). -/
def tagOf (mac : Block) (t : Nat) : List Byte := (List.range (tagBytes t)).map (tagByte mac t)

/-- One comparator step (R162). -/
def compareByte (acc : Byte) (mac : Block) (t j : Nat) (s : Byte) : Byte :=
  acc ||| ((byteOf mac j ^^^ s) &&& tagMask t j)

/-- The comparator over supplied tag bytes from byte `j` on (R163). -/
def compareFrom (mac : Block) (t : Nat) : Nat → Byte → List Byte → Byte
  | _, acc, [] => acc
  | j, acc, s :: rest => compareFrom mac t (j + 1) (compareByte acc mac t j s) rest

end Sys2Proof.Machine
end

