-- ==== Sys2Proof/Machine/State.lean ====
section
/-! DEFINITION. The state of the block (spec/10_state.md), of the agents around it (spec/00_scope.md R6) and of the
model's own bookkeeping, as plain data; the reasons a step can stop; the state right after reset (R56). -/

namespace Sys2Proof.Machine

/-- The operand registers KEY_ADDR to LOCK_TICKS_ARG (10_state.md R28 to R36). -/
structure Regs where
  keyAddr        : Word
  keyBits        : Word
  cipherFamily   : Word
  dataAddr       : Word
  dataLenBits    : Word
  tagAddr        : Word
  tagLenBits     : Word
  devInstanceArg : Word
  lockTicksArg   : Word
  deriving DecidableEq, Repr

/-- The operand latch `lat` (10_state.md R46). -/
structure Latch where
  cmd         : Word
  keyAddr     : Word
  keyBits     : Word
  family      : Word
  dataAddr    : Word
  dataLenBits : Word
  tagAddr     : Word
  tagLenBits  : Word
  instArg     : Word
  ticksArg    : Word
  deriving DecidableEq, Repr

/-- The CMAC context `ctx` (10_state.md R38 to R43). `key` is the 32-byte key store, byte 0 first. -/
structure Context where
  ready     : Bool
  bound     : Bool
  boundInst : Word
  family    : Word
  keyBits   : Word
  key       : List Byte
  k1        : Block
  k2        : Block
  instSet   : Bool
  inst      : Word
  ticksSet  : Bool
  ticks     : Word
  deriving DecidableEq, Repr

/-- The phase of the command state machine (10_state.md R45). -/
inductive Phase where
  | idle | check | discard | loadkey | bind | lock | encL | subkeys | block | release | out | cleanup | setcfg | clear
  | done
  deriving DecidableEq, Repr

/-- A part of the address space in which the memory refuses the engine's reads, its writes, or both
(20_memory.md R65; log 5). -/
structure Region where
  base  : Nat
  size  : Nat
  read  : Bool
  write : Bool
  deriving DecidableEq, Repr

/-- The external cipher device as this block meets it (40_engine.md R130; 60_exceptions.md R291). The three lists of
answers are the device's answers to come, an input of the model; when a list is empty the answer is a free draw,
numbered by `draws` (log 3). `locks` and `bindings` are what the device holds for this block, `otherLocks` the instances
whose lock another block or user holds (log 11). -/
structure Device where
  bindAnswers    : List Answer
  acquireAnswers : List AcquireAnswer
  encryptAnswers : List Answer
  draws          : Nat
  locks          : List Word
  bindings       : List Word
  otherLocks     : List Word
  deriving DecidableEq, Repr

/-- The width of a host access to the register window (20_memory.md R70). -/
inductive Width where
  | byte | half | word
  deriving DecidableEq, Repr

/-- One host step (00_scope.md R13; 30_encoding.md R97, R98): an access to the register window at an offset from BASE, an
access of a bus master to one byte at a bus address (20_memory.md R75), or one poll of WAIT. -/
inductive HostOp where
  | write (off : BitVec 6) (width : Width) (value : Word)
  | read (off : BitVec 6) (width : Width)
  | store (addr : Word) (value : Byte)
  | load (addr : Word)
  | wait
  deriving DecidableEq, Repr

/-- Whose turn it is (00_scope.md R13; 70_reset_and_hazards.md R310; 60_exceptions.md R290): the engine, the host, the
platform's reset, or another user of the cipher device that takes or gives back an instance's lock. -/
inductive Turn where
  | engine
  | host (op : HostOp)
  | reset
  | otherAcquire (inst : Word)
  | otherRelease (inst : Word)
  deriving DecidableEq, Repr

/-- One request of the engine at its memory port (20_memory.md R65) or its cipher port (40_engine.md R130). -/
inductive Request where
  | memRead (addr : Word)
  | memWrite (addr : Word) (value : Byte)
  | cipherBind (inst family keyBits : Word) (key : List Byte)
  | cipherAcquire (inst ticks : Word)
  | cipherEncrypt (inst family keyBits : Word) (key : List Byte) (x : Block)
  | cipherRelease (inst : Word)
  | cipherUnbind (inst : Word)
  deriving DecidableEq, Repr

/-- Why a meaning can stop. -/
inductive Fault where
  /-- Raised by a meaning whose phase is not on its command's phase sequence (40_engine.md R122, R125): there is no such
  step. Safe: the invariant of Safety.lean rules these states out. -/
  | noStep
  /-- Raised by a meaning when the memory refuses its request for a byte (20_memory.md R65): the step is not taken. Safe:
  `step` turns it into an engine that stays where it is (log 8). -/
  | memoryRefused (addr : Word)
  deriving DecidableEq, Repr

/-- Why the model can refuse a step. -/
inductive Refusal where
  /-- An instruction whose meaning is not written. Raised by no arm. Safe. -/
  | notModelled (mnemonic : String)
  /-- Raised by a host access to the window that is not 32 bits wide at a multiple of 4, a byte access to an address of the
  window among them: "a model refuses such an access" (20_memory.md R70). Safe. -/
  | undefinedAccess
  deriving DecidableEq, Repr

/-- The machine. -/
structure State where
  -- host registers (10_state.md section 2)
  regs     : Regs
  busy     : Bool
  ovr      : Bool
  result   : BitVec 4
  devError : Word
  -- the context (section 3)
  ctx      : Context
  -- engine state (section 4)
  phase    : Phase
  lat      : Latch
  n        : Word
  i        : Word
  nb       : Word
  tb       : BitVec 5
  j        : BitVec 5
  st       : Block
  acc      : Byte
  L        : Block
  lockHeld : Bool
  lockInst : Word
  pres     : BitVec 4
  pcode    : Word
  -- host memory and the cipher device (00_scope.md R6)
  mem      : List Host.Cell
  refuses  : List Region
  dev      : Device
  -- the model's own: the turns to come, what the last host read returned, the requests issued so far
  sched    : List Turn
  readData : Word
  trace    : List Request
  deriving DecidableEq, Repr

/-- What one step answers. -/
abbrev Stepped := Host.Outcome State Fault Refusal

/-- The operand registers after reset (10_state.md R56). -/
def Regs.zero : Regs :=
  { keyAddr := 0, keyBits := 0, cipherFamily := 0, dataAddr := 0, dataLenBits := 0, tagAddr := 0, tagLenBits := 0,
    devInstanceArg := 0, lockTicksArg := 0 }

/-- The latch after reset (R56). -/
def Latch.zero : Latch :=
  { cmd := 0, keyAddr := 0, keyBits := 0, family := 0, dataAddr := 0, dataLenBits := 0, tagAddr := 0, tagLenBits := 0,
    instArg := 0, ticksArg := 0 }

/-- A key store of 32 zero bytes (R41). -/
def zeroKey : List Byte := List.replicate 32 0

/-- The zeroed context, no cipher bound and the device configuration unset (R56). -/
def Context.zero : Context :=
  { ready := false, bound := false, boundInst := 0, family := 0, keyBits := 0, key := zeroKey, k1 := 0, k2 := 0,
    instSet := false, inst := 0, ticksSet := false, ticks := 0 }

/-- The cipher device before anything has happened: no answer laid down, nothing held (log 18). -/
def Device.fresh : Device :=
  { bindAnswers := [], acquireAnswers := [], encryptAnswers := [], draws := 0, locks := [], bindings := [],
    otherLocks := [] }

/-- The machine right after reset (10_state.md R56), with host memory holding nothing listed. -/
def State.reset : State :=
  { regs := Regs.zero, busy := false, ovr := false, result := 0, devError := 0, ctx := Context.zero, phase := .idle,
    lat := Latch.zero, n := 0, i := 0, nb := 0, tb := 0, j := 0, st := 0, acc := 0, L := 0, lockHeld := false,
    lockInst := 0, pres := 0, pcode := 0, mem := [], refuses := [], dev := Device.fresh, sched := [], readData := 0,
    trace := [] }

end Sys2Proof.Machine
end

