-- ==== Sys2Proof/Machine/Operands.lean ====
section
/-! DEFINITION. The operands of a command, all computed from the latch and the context (spec/30_encoding.md R92, R93;
spec/10_state.md R44; spec/20_memory.md R61 to R63, R66), on unbounded integers. -/

namespace Sys2Proof.Machine

/-- `kb`, the key length in bytes (R93). -/
def keyLen (lat : Latch) : Nat := lat.keyBits.toNat / 8

/-- The message length in bytes (R93). -/
def dataLen (lat : Latch) : Nat := lat.dataLenBits.toNat / 8

/-- The tag length in bytes (R93). -/
def tagLen (lat : Latch) : Nat := tagBytes lat.tagLenBits.toNat

/-- `fits` (20_memory.md R66): a buffer that ends inside the 32-bit address space, or has no byte. -/
def fits (a : Word) (len : Nat) : Bool := len == 0 || decide (a.toNat + len ≤ 2 ^ 32)

/-- The address of byte `m` of a buffer (20_memory.md R61 to R63). Inside a fitting buffer it does not wrap (R66). -/
def byteAddr (a : Word) (m : Nat) : Word := a + BitVec.ofNat 32 m

/-- `eff_inst` (10_state.md R44). -/
def effInst (ctx : Context) : Word := if ctx.instSet then ctx.inst else Config.defaultDeviceInstance

/-- `eff_ticks` (10_state.md R44). -/
def effTicks (ctx : Context) : Word := if ctx.ticksSet then ctx.ticks else Config.defaultLockWaitTicks

/-- The key bytes a cipher request carries: `ctx.key[0 .. ctx.key_bits/8 - 1]` (20_memory.md R62; 41_datapath.md R158). -/
def keyBytes (ctx : Context) : List Byte := ctx.key.take (ctx.keyBits.toNat / 8)

/-- The address of the first byte of the block being processed (20_memory.md R61). -/
def blockAddr (s : State) : Word := byteAddr s.lat.dataAddr (16 * (s.i.toNat - 1))

/-- The number of bytes in the last block: `r = nb - 16(n-1)` (43_tag.md R204). -/
def lastLen (s : State) : Nat := s.nb.toNat - 16 * (s.n.toNat - 1)

/-- The address of the tag byte the OUT step handles (20_memory.md R63). -/
def tagByteAddr (s : State) : Word := byteAddr s.lat.tagAddr s.j.toNat

end Sys2Proof.Machine
end

