-- ==== Sys2Proof/Machine/Flags.lean ====
section
/-! DEFINITION. The result codes (spec/60_exceptions.md R270) and the STATUS word (spec/10_state.md R22 to R26). -/

namespace Sys2Proof.Machine

/-- Result code 0 (R270). -/
def SUCCESS : BitVec 4 := 0
/-- Result code 1 (R270). -/
def BAD_INPUT : BitVec 4 := 1
/-- Result code 2 (R270). -/
def AUTH_FAILED : BitVec 4 := 2
/-- Result code 3 (R270). -/
def DEVICE_TIMEOUT : BitVec 4 := 3
/-- Result code 4 (R270). -/
def DEVICE_FAULT : BitVec 4 := 4

/-- A flag as a bit of a 32-bit word. -/
def flag (b : Bool) : Word := if b then 1 else 0

/-- What a host read of STATUS returns (10_state.md R22): RESULT in bits 7:4, OVR in bit 2, READY live in bit 1 (R24),
BUSY in bit 0. -/
def statusWord (s : State) : Word :=
  (s.result.setWidth 32 <<< 4) ||| (flag s.ovr <<< 2) ||| (flag s.ctx.ready <<< 1) ||| flag s.busy

/-- The verdict of VERIFY_TAG, taken once from the accumulator (43_tag.md R209). -/
def verdict (acc : Byte) : BitVec 4 := if acc = 0 then SUCCESS else AUTH_FAILED

/-- What DONE shows in DEV_ERROR (40_engine.md R127). -/
def shownError (pres : BitVec 4) (pcode : Word) : Word := if pres = DEVICE_FAULT then pcode else 0

end Sys2Proof.Machine
end

