-- ==== Sys2Proof/Machine/Memory.lean ====
section
/-! DEFINITION. Host memory as a list of cells in one canonical form: addresses strictly rising and below 2^32, no cell
holding what an unlisted address reads as (log 4). -/

namespace Sys2Proof.Machine

/-- What an address nothing has written reads as (log 4). -/
def Memory.unlisted : Byte := 0

/-- Every address of the list lies above `lo`. -/
def Memory.above (lo : Nat) : List Host.Cell → Bool
  | [] => true
  | c :: m => decide (lo < c.1) && Memory.above c.1 m

/-- The canonical form. -/
def Memory.wf : List Host.Cell → Bool
  | [] => true
  | c :: m => Memory.above c.1 m && (c :: m).all fun d => decide (d.1 < 2 ^ 32) && d.2 != Memory.unlisted

/-- The byte held at an address. -/
def Memory.load : List Host.Cell → Nat → Byte
  | [], _ => Memory.unlisted
  | c :: m, a => if a = c.1 then c.2 else Memory.load m a

/-- A cell put in front, unless it holds what an unlisted address reads as. -/
def Memory.put (a : Nat) (v : Byte) (m : List Host.Cell) : List Host.Cell :=
  if v = Memory.unlisted then m else (a, v) :: m

/-- The memory after a byte is stored at an address, in canonical form again. -/
def Memory.store : List Host.Cell → Nat → Byte → List Host.Cell
  | [], a, v => Memory.put a v []
  | c :: m, a, v =>
    if a < c.1 then Memory.put a v (c :: m)
    else if a = c.1 then Memory.put a v m
    else c :: Memory.store m a v

end Sys2Proof.Machine
end

