-- ==== Sys2Proof/Machine/Ops.lean ====
section
/-! DEFINITION. The operations the meanings share: completion and failure (spec/40_engine.md R126, R127), the memory port
(spec/20_memory.md R65), the cipher port (spec/40_engine.md R130), the zeroing of key material (spec/42_setkey.md R182),
LOCK and RELEASE (spec/40_engine.md R131, R132), acceptance of a command word (R120, R121) and reset
(spec/70_reset_and_hazards.md R310). -/

namespace Sys2Proof.Machine

/-- `phase <- p` (00_scope.md R12). -/
def State.goto (s : State) (p : Phase) : State := { s with phase := p }

/-- The requests appended to those issued so far (log 10). -/
def State.emit (s : State) (rs : List Request) : State := { s with trace := s.trace ++ rs }

/-- `fail(r, c)` (R126): records the failure; the calling rule sets the phase. -/
def State.fail (s : State) (r : BitVec 4) (c : Word) : State := { s with pres := r, pcode := c }

/-- `finish(r)` (R126), "this block's only form of raise" (00_scope.md R12). -/
def State.finish (s : State) (r : BitVec 4) : State := { s with pres := r, phase := .done }

/-- DONE (R127): the command completes. -/
def State.complete (s : State) : State :=
  { s with
    result := s.pres
    devError := shownError s.pres s.pcode
    st := 0
    L := 0
    acc := 0
    n := 0
    i := 0
    nb := 0
    tb := 0
    j := 0
    busy := false
    phase := .idle }

/-! ### The memory port -/

/-- A region covers an address. -/
def Region.covers (r : Region) (a : Word) : Bool := decide (r.base ≤ a.toNat ∧ a.toNat < r.base + r.size)

/-- The memory admits a read of the byte at `a` (20_memory.md R65). -/
def admitsRead (s : State) (a : Word) : Bool := !s.refuses.any fun r => r.read && r.covers a

/-- The memory admits a write of the byte at `a` (20_memory.md R65). -/
def admitsWrite (s : State) (a : Word) : Bool := !s.refuses.any fun r => r.write && r.covers a

/-- The byte host memory holds at an address. -/
def byteAt (s : State) (a : Word) : Byte := Memory.load s.mem a.toNat

/-- The addresses of a buffer, in ascending order (20_memory.md R68). -/
def bufferAddrs (a : Word) (len : Nat) : List Word := (List.range len).map (byteAddr a)

/-- The bytes of a buffer, in ascending order. -/
def readBuffer (s : State) (a : Word) (len : Nat) : List Byte := (bufferAddrs a len).map (byteAt s)

/-- A step that reads the `len` bytes from `a` on, each once and in ascending order, and goes on with them. If the memory
refuses one of the reads the step is not taken (20_memory.md R65). -/
def reading (s : State) (a : Word) (len : Nat) (k : List Byte → State → State) : Stepped :=
  match (bufferAddrs a len).find? fun x => !admitsRead s x with
  | some x => .fault (.memoryRefused x)
  | none => .next (k (readBuffer s a len) (s.emit ((bufferAddrs a len).map .memRead)))

/-- A step that reads the one byte at `a` and goes on with it (20_memory.md R65). -/
def readingByte (s : State) (a : Word) (k : Byte → State → State) : Stepped :=
  if admitsRead s a then .next (k (byteAt s a) (s.emit [.memRead a]))
  else .fault (.memoryRefused a)

/-- Host memory with the byte at `a` set. -/
def State.storeByte (s : State) (a : Word) (v : Byte) : State := { s with mem := Memory.store s.mem a.toNat v }

/-- A step that writes one byte at `a` and goes on (20_memory.md R65). -/
def writing (s : State) (a : Word) (v : Byte) (k : State → State) : Stepped :=
  if admitsWrite s a then .next (k ((s.storeByte a v).emit [.memWrite a v]))
  else .fault (.memoryRefused a)

/-! ### The cipher port -/

/-- The device's answer to a CipherBind, and the device after it is taken (log 3). -/
def drawBind (d : Device) : Answer × Device :=
  match d.bindAnswers with
  | a :: rest => (a, { d with bindAnswers := rest })
  | [] => (Config.bindDraw d.draws, { d with draws := d.draws + 1 })

/-- The device's answer to a CipherEncrypt, and the device after it is taken (log 3). -/
def drawEncrypt (d : Device) : Answer × Device :=
  match d.encryptAnswers with
  | a :: rest => (a, { d with encryptAnswers := rest })
  | [] => (Config.encryptDraw d.draws, { d with draws := d.draws + 1 })

/-- The answer to a CipherAcquire as drawn, before other users of the lock are looked at (log 3). -/
def drawAcquire (d : Device) : AcquireAnswer × Device :=
  match d.acquireAnswers with
  | a :: rest => (a, { d with acquireAnswers := rest })
  | [] => (Config.acquireDraw d.draws, { d with draws := d.draws + 1 })

/-- An answer that is left while another user holds the lock. -/
def contendedAsAcquire : ContendedAnswer → AcquireAnswer
  | .timeout => .timeout
  | .err c => .err c

/-- The device's answer to a CipherAcquire. It never answers GRANTED for an instance whose lock another user holds: the
answer is then a free one among the others (60_exceptions.md R291; log 11). -/
def answerAcquire (d : Device) (inst : Word) : AcquireAnswer × Device :=
  let r := drawAcquire d
  if r.1 = .granted ∧ inst ∈ d.otherLocks then
    (contendedAsAcquire (Config.contendedDraw r.2.draws), { r.2 with draws := r.2.draws + 1 })
  else r

/-- What the device holds after it has answered a CipherBind. -/
def Device.noteBind (d : Device) (a : Answer) (inst : Word) : Device :=
  match a with
  | .ok => { d with bindings := inst :: d.bindings }
  | .err _ => d

/-- What the device holds after it has answered a CipherAcquire. -/
def Device.noteAcquire (d : Device) (a : AcquireAnswer) (inst : Word) : Device :=
  match a with
  | .granted => { d with locks := inst :: d.locks }
  | .timeout => d
  | .err _ => d

/-- CipherBind (R130): the device's answer, and the state with the request issued. -/
def cipherBind (s : State) : Answer × State :=
  let r := drawBind s.dev
  (r.1, { s with
    dev := r.2.noteBind r.1 (effInst s.ctx)
    trace := s.trace ++ [.cipherBind (effInst s.ctx) s.ctx.family s.ctx.keyBits (keyBytes s.ctx)] })

/-- CipherAcquire (R130): the device's answer, and the state with the request issued. -/
def cipherAcquire (s : State) : AcquireAnswer × State :=
  let r := answerAcquire s.dev (effInst s.ctx)
  (r.1, { s with
    dev := r.2.noteAcquire r.1 (effInst s.ctx)
    trace := s.trace ++ [.cipherAcquire (effInst s.ctx) (effTicks s.ctx)] })

/-- CipherEncrypt (R130): the device's answer, and the state with the request issued. An OK answer carries exactly the value
of E (R133), `encrypted`. -/
def cipherEncrypt (s : State) (x : Block) : Answer × State :=
  let r := drawEncrypt s.dev
  (r.1, { s with
    dev := r.2
    trace := s.trace ++ [.cipherEncrypt (effInst s.ctx) s.ctx.family s.ctx.keyBits (keyBytes s.ctx) x] })

/-- The value that an OK answer to CipherEncrypt carries (R133; 41_datapath.md R158). -/
def encrypted (s : State) (x : Block) : Block := Config.encrypt s.ctx.family s.ctx.keyBits (keyBytes s.ctx) x

/-- CipherRelease (R130): it has no answer; the device no longer holds the instance's lock for this block. -/
def cipherRelease (s : State) : State :=
  { s with
    dev := { s.dev with locks := s.dev.locks.filter fun x => x != s.lockInst }
    trace := s.trace ++ [.cipherRelease s.lockInst] }

/-- `if ctx.bound = 1: CipherUnbind(ctx.bound_inst)` (R130; 42_setkey.md R182): it has no answer; the device gives up one
binding. -/
def cipherUnbind (s : State) : State :=
  { s with
    dev := { s.dev with bindings := if s.ctx.bound then s.dev.bindings.erase s.ctx.boundInst else s.dev.bindings }
    trace := s.trace ++ if s.ctx.bound then [.cipherUnbind s.ctx.boundInst] else [] }

/-! ### Steps that several commands have -/

/-- The context with its binding, key and subkeys zeroed and the device configuration kept (42_setkey.md R182, R189). -/
def Context.zeroKeyMaterial (c : Context) : Context :=
  { c with ready := false, bound := false, boundInst := 0, family := 0, keyBits := 0, key := zeroKey, k1 := 0, k2 := 0 }

/-- CLEAR (44_lifecycle.md R244). -/
def clearStep (s : State) : State := { cipherUnbind s with ctx := Context.zero, phase := .done }

/-- LOCK (R131), with the phase a grant leads to and the phase a failure leads to. -/
def lockStep (granted failed : Phase) (s : State) : State :=
  let r := cipherAcquire s
  match r.1 with
  | .granted => { r.2 with lockHeld := true, lockInst := effInst s.ctx, phase := granted }
  | .timeout => (r.2.fail DEVICE_TIMEOUT 0).goto failed
  | .err c => (r.2.fail DEVICE_FAULT c).goto failed

/-- The part of RELEASE that all commands share (R132): the lock is given back. -/
def unlockStep (s : State) : State := { cipherRelease s with lockHeld := false, lockInst := 0 }

/-! ### Acceptance and reset -/

/-- Acceptance of a command word (R120). -/
def accept (s : State) (w : Word) : State :=
  { s with
    lat := { cmd := w, keyAddr := s.regs.keyAddr, keyBits := s.regs.keyBits, family := s.regs.cipherFamily,
             dataAddr := s.regs.dataAddr, dataLenBits := s.regs.dataLenBits, tagAddr := s.regs.tagAddr,
             tagLenBits := s.regs.tagLenBits, instArg := s.regs.devInstanceArg, ticksArg := s.regs.lockTicksArg }
    busy := true
    ovr := false
    result := 0
    devError := 0
    pres := SUCCESS
    pcode := 0
    phase := .check }

/-- A host write of CMD (10_state.md R21): accepted while idle (R120), dropped with OVR set while busy (R121). -/
def offer (s : State) (w : Word) : State := if s.busy then { s with ovr := true } else accept s w

/-- What the cipher device keeps of this block when the block is reset (70_reset_and_hazards.md R311; log 12). -/
def Device.afterReset (d : Device) : Device :=
  { d with
    locks := if Config.resetReleasesLock then [] else d.locks
    bindings := if Config.resetDropsBinding then [] else d.bindings }

/-- The reset event (70_reset_and_hazards.md R310 to R312): every field of 10_state.md at its reset value, memory, memory
map and the requests already issued as they were. -/
def resetEvent (s : State) : State :=
  { State.reset with
    mem := s.mem, refuses := s.refuses, dev := s.dev.afterReset, sched := s.sched, readData := s.readData,
    trace := s.trace }

end Sys2Proof.Machine
end

