-- ==== Sys2Proof/Machine/Lifecycle.lean ====
section
/-! DEFINITION. INIT, SET_DEVICE_INSTANCE, SET_LOCK_WAIT_TICKS and FREE (spec/44_lifecycle.md), and the two steps of a
reserved word (spec/40_engine.md R124). -/

namespace Sys2Proof.Machine

/-- INIT (R240): CHECK, CLEAR (R244), DONE. -/
def execInit (s : State) : Stepped :=
  match s.phase with
  | .check => .next (s.goto .clear)
  | .clear => .next (clearStep s)
  | .done => .next s.complete
  | _ => .fault .noStep

/-- FREE (R243): CHECK, CLEAR (R244), DONE. -/
def execFree (s : State) : Stepped :=
  match s.phase with
  | .check => .next (s.goto .clear)
  | .clear => .next (clearStep s)
  | .done => .next s.complete
  | _ => .fault .noStep

/-- CHECK of SET_DEVICE_INSTANCE (R241). -/
def checkDeviceInstance (s : State) : State :=
  if Config.deviceInstanceValid s.lat.instArg then s.goto .setcfg else s.finish BAD_INPUT

/-- SET_DEVICE_INSTANCE (R241, R245): CHECK, SETCFG, DONE. -/
def execSetDeviceInstance (s : State) : Stepped :=
  match s.phase with
  | .check => .next (checkDeviceInstance s)
  | .setcfg => .next { s with ctx := { s.ctx with inst := s.lat.instArg, instSet := true }, phase := .done }
  | .done => .next s.complete
  | _ => .fault .noStep

/-- CHECK of SET_LOCK_WAIT_TICKS (R242). -/
def checkLockWaitTicks (s : State) : State :=
  if Config.lockWaitValid s.lat.ticksArg then s.goto .setcfg else s.finish BAD_INPUT

/-- SET_LOCK_WAIT_TICKS (R242, R245): CHECK, SETCFG, DONE. -/
def execSetLockWaitTicks (s : State) : Stepped :=
  match s.phase with
  | .check => .next (checkLockWaitTicks s)
  | .setcfg => .next { s with ctx := { s.ctx with ticks := s.lat.ticksArg, ticksSet := true }, phase := .done }
  | .done => .next s.complete
  | _ => .fault .noStep

/-- A reserved word (40_engine.md R124; 30_encoding.md R95): CHECK answers BAD_INPUT, then DONE. -/
def reservedStep (s : State) : Stepped :=
  match s.phase with
  | .check => .next (s.finish BAD_INPUT)
  | .done => .next s.complete
  | _ => .fault .noStep

end Sys2Proof.Machine
end

