-- ==== Sys2Proof/Machine/Setkey.lean ====
section
/-! DEFINITION. SETKEY and its steps (spec/42_setkey.md R180 to R189). -/

namespace Sys2Proof.Machine

/-- The check of R181: family, key size, key buffer. -/
def setkeyCheck (lat : Latch) : Bool :=
  decide (lat.family ∈ Config.families) && decide (lat.keyBits ∈ Config.keySizes lat.family) &&
    fits lat.keyAddr (keyLen lat)

/-- CHECK (R181). -/
def checkSetkey (s : State) : State := if setkeyCheck s.lat then s.goto .discard else s.finish BAD_INPUT

/-- DISCARD (R182): the old binding, key and subkeys go. -/
def discardStep (s : State) : State :=
  { cipherUnbind s with ctx := s.ctx.zeroKeyMaterial, phase := .loadkey }

/-- LOADKEY (R183) once the key bytes are read: `ctx.key[m]` for `m` below `kb`, the rest of the store kept. -/
def loadkeyStep (key : List Byte) (s : State) : State :=
  { s with
    ctx := { s.ctx with key := key ++ s.ctx.key.drop key.length, family := s.lat.family, keyBits := s.lat.keyBits }
    phase := .bind }

/-- BIND (R184). -/
def bindStep (s : State) : State :=
  let r := cipherBind s
  match r.1 with
  | .ok => { r.2 with ctx := { s.ctx with bound := true, boundInst := effInst s.ctx }, phase := .lock }
  | .err c => (r.2.fail DEVICE_FAULT c).goto .cleanup

/-- ENC_L (R186): L is the encryption of the zero block. -/
def encLStep (s : State) : State :=
  let r := cipherEncrypt s 0
  match r.1 with
  | .ok => { r.2 with L := encrypted s 0, phase := .subkeys }
  | .err c => (r.2.fail DEVICE_FAULT c).goto .release

/-- SUBKEYS (R187): the doubler applied twice, and the context becomes ready. -/
def subkeysStep (s : State) : State :=
  { s with ctx := { s.ctx with k1 := dbl s.L, k2 := dbl (dbl s.L), ready := true }, L := 0, phase := .release }

/-- RELEASE for SETKEY (R188; 40_engine.md R132). -/
def releaseSetkey (s : State) : State := (unlockStep s).goto (if s.pres = SUCCESS then .done else .cleanup)

/-- CLEANUP (R189): every secret is zeroed after a failure. -/
def cleanupStep (s : State) : State :=
  { cipherUnbind s with ctx := s.ctx.zeroKeyMaterial, L := 0, phase := .done }

/-- SETKEY (R180). -/
def execSetkey (s : State) : Stepped :=
  match s.phase with
  | .check => .next (checkSetkey s)
  | .discard => .next (discardStep s)
  | .loadkey => reading s s.lat.keyAddr (keyLen s.lat) loadkeyStep
  | .bind => .next (bindStep s)
  | .lock => .next (lockStep .encL .cleanup s)
  | .encL => .next (encLStep s)
  | .subkeys => .next (subkeysStep s)
  | .release => .next (releaseSetkey s)
  | .cleanup => .next (cleanupStep s)
  | .done => .next s.complete
  | _ => .fault .noStep

end Sys2Proof.Machine
end

