-- ==== Sys2Proof/Machine/Tag.lean ====
section
/-! DEFINITION. GENERATE_TAG and VERIFY_TAG and their steps (spec/43_tag.md R200 to R210). -/

namespace Sys2Proof.Machine

/-- The check of R200: ready, whole bytes, a tag below 128 bits, both buffers fit. -/
def tagCheck (s : State) : Bool :=
  s.ctx.ready && s.lat.dataLenBits.toNat % 8 == 0 && decide (s.lat.tagLenBits.toNat < 128) &&
    fits s.lat.dataAddr (dataLen s.lat) && fits s.lat.tagAddr (tagLen s.lat)

/-- The initialisation of R201. -/
def tagInit (s : State) : State :=
  { s with
    nb := BitVec.ofNat 32 (dataLen s.lat)
    n := BitVec.ofNat 32 (nblocks (dataLen s.lat))
    i := 1
    tb := BitVec.ofNat 5 (tagLen s.lat)
    j := 0
    st := 0
    acc := 0
    phase := .lock }

/-- CHECK (R200, R201). -/
def checkTag (s : State) : State := if tagCheck s then tagInit s else s.finish BAD_INPUT

/-- BLOCK for a block before the last (R203), once its 16 bytes are read. -/
def blockStep (b : List Byte) (s : State) : State :=
  let x := s.st ^^^ be128 b
  let r := cipherEncrypt s x
  match r.1 with
  | .ok => { r.2 with st := encrypted s x, i := s.i + 1 }
  | .err c => (r.2.fail DEVICE_FAULT c).goto .release

/-- BLOCK for the last block (R204), once its bytes are read. -/
def lastBlockStep (b : List Byte) (s : State) : State :=
  let x := s.st ^^^ lastBlock s.ctx.k1 s.ctx.k2 b s.nb.toNat
  let r := cipherEncrypt s x
  match r.1 with
  | .ok => { r.2 with st := encrypted s x, phase := .release }
  | .err c => (r.2.fail DEVICE_FAULT c).goto .release

/-- BLOCK (R203, R204). A block number above the last has no rule. -/
def execBlock (s : State) : Stepped :=
  if s.i < s.n then reading s (blockAddr s) 16 blockStep
  else if s.i = s.n then reading s (blockAddr s) (lastLen s) lastBlockStep
  else .fault .noStep

/-- RELEASE for the tag commands (R205; 40_engine.md R132). -/
def releaseTag (s : State) : State :=
  if s.pres = SUCCESS then { unlockStep s with j := 0, phase := .out } else (unlockStep s).goto .done

/-- OUT for GENERATE_TAG (R207). -/
def generateOut (s : State) : Stepped :=
  if s.j < s.tb then
    writing s (tagByteAddr s) (tagByte s.st s.lat.tagLenBits.toNat s.j.toNat) fun t => { t with j := s.j + 1 }
  else .next (s.goto .done)

/-- OUT for VERIFY_TAG while a tag byte is left (R208), once it is read. -/
def compareStep (x : Byte) (s : State) : State :=
  { s with acc := compareByte s.acc s.st s.lat.tagLenBits.toNat s.j.toNat x, j := s.j + 1 }

/-- OUT for VERIFY_TAG (R208, R209). -/
def verifyOut (s : State) : Stepped :=
  if s.j < s.tb then readingByte s (tagByteAddr s) compareStep
  else .next (s.finish (verdict s.acc))

/-- GENERATE_TAG (R206). -/
def execGenerateTag (s : State) : Stepped :=
  match s.phase with
  | .check => .next (checkTag s)
  | .lock => .next (lockStep .block .done s)
  | .block => execBlock s
  | .release => .next (releaseTag s)
  | .out => generateOut s
  | .done => .next s.complete
  | _ => .fault .noStep

/-- VERIFY_TAG (R210). -/
def execVerifyTag (s : State) : Stepped :=
  match s.phase with
  | .check => .next (checkTag s)
  | .lock => .next (lockStep .block .done s)
  | .block => execBlock s
  | .release => .next (releaseTag s)
  | .out => verifyOut s
  | .done => .next s.complete
  | _ => .fault .noStep

end Sys2Proof.Machine
end

