-- ==== Sys2Proof/Syntax.lean ====
section
/-! DEFINITION. The commands of the block, one constructor per row of spec/opcode_table.json (30_encoding.md R94). The
command word carries no operand (R92), so no constructor has an argument: a command's operands are the operand
registers as latched at acceptance. A reserved word is no command (R95): it is what the decoder answers none for. -/

namespace Sys2Proof

inductive Instr where
  | init
  | setDeviceInstance
  | setLockWaitTicks
  | setkey
  | generateTag
  | verifyTag
  | free
  deriving DecidableEq, Repr

end Sys2Proof
end

