-- ==== Sys2Proof/Machine/Dispatch.lean ====
section
/-! DEFINITION. One engine step of a command, in the phase the state is in (spec/40_engine.md R122, R125; log 1). -/

namespace Sys2Proof.Machine

def exec (i : Instr) (s : State) : Host.Outcome State Fault Refusal :=
  match i with
  | .init => Sys2Proof.Machine.execInit s
  | .setDeviceInstance => Sys2Proof.Machine.execSetDeviceInstance s
  | .setLockWaitTicks => Sys2Proof.Machine.execSetLockWaitTicks s
  | .setkey => Sys2Proof.Machine.execSetkey s
  | .generateTag => Sys2Proof.Machine.execGenerateTag s
  | .verifyTag => Sys2Proof.Machine.execVerifyTag s
  | .free => Sys2Proof.Machine.execFree s

end Sys2Proof.Machine
end

