-- ==== Sys2Proof/Decode.lean ====
section
/-! DEFINITION. Decoding of a command word, total on every 32-bit word (spec/30_encoding.md R90, R94 to R96), and the
encoder written from the same table. -/

namespace Sys2Proof

/-- OPCODE, bits 7:0 of a command word (R90). -/
def opcodeOf (w : Word) : BitVec 8 := w.extractLsb' 0 8

/-- RSV, bits 31:8 of a command word (R90). -/
def rsvOf (w : Word) : BitVec 24 := w.extractLsb' 8 24

/-- The command an OPCODE value selects (R94); none for 0x00 and 0x08 to 0xFF (R95). -/
def decodeOpcode (o : BitVec 8) : Option Instr :=
  if o = 0x01 then some .init
  else if o = 0x02 then some .setDeviceInstance
  else if o = 0x03 then some .setLockWaitTicks
  else if o = 0x04 then some .setkey
  else if o = 0x05 then some .generateTag
  else if o = 0x06 then some .verifyTag
  else if o = 0x07 then some .free
  else none

/-- `decode(w)` of R96: the command a word stands for, none where the word is RESERVED (R95). -/
def decode (w : Word) : Option Instr :=
  if rsvOf w = 0 then decodeOpcode (opcodeOf w) else none

/-- The OPCODE of a command (R94). -/
def opcode : Instr → BitVec 8
  | .init => 0x01
  | .setDeviceInstance => 0x02
  | .setLockWaitTicks => 0x03
  | .setkey => 0x04
  | .generateTag => 0x05
  | .verifyTag => 0x06
  | .free => 0x07

/-- The full word of a command (R94): RSV = 0, then OPCODE. -/
def encode (i : Instr) : Word := (0 : BitVec 24) ++ opcode i

/-- The decoder on a row of spec/opcode_table.json. Every command is exactly one 32-bit word (R91); bits above `nbits` are
zero. -/
def decodeTableWord (nbits w : Nat) : Option Instr :=
  decode (BitVec.ofNat 32 (w % 2 ^ nbits))

end Sys2Proof
end

