-- ==== Sys2Proof/Machine/HostPort.lean ====
section
/-! DEFINITION. The host's side: the register window (spec/10_state.md R20 to R37; spec/20_memory.md R70), host accesses
to memory (spec/20_memory.md R75), and WAIT (spec/30_encoding.md R98). -/

namespace Sys2Proof.Machine

/-- The bus address of a window offset: `BASE + off` (30_encoding.md R97), 32 bits wide (log 19). -/
def regAddress (off : BitVec 6) : Word := Config.base + off.setWidth 32

/-- The window offset of a bus address, none outside the 0x40 bytes from BASE (10_state.md R20; log 19). -/
def windowOffset (a : Word) : Option (BitVec 6) :=
  if a &&& 0xFFFFFFC0 = Config.base then some (a.extractLsb' 0 6) else none

/-- The only accesses to the window that have a meaning: 32 bits wide, at a multiple of 4 (20_memory.md R70). -/
def definedAccess (off : BitVec 6) (w : Width) : Bool := w == .word && off.toNat % 4 == 0

/-- What a host read of the register at an offset returns (10_state.md R20 to R37). -/
def readReg (s : State) (off : BitVec 6) : Word :=
  match off.toNat with
  | 0x04 => statusWord s
  | 0x08 => s.devError
  | 0x0C => s.regs.keyAddr
  | 0x10 => s.regs.keyBits
  | 0x14 => s.regs.cipherFamily
  | 0x18 => s.regs.dataAddr
  | 0x1C => s.regs.dataLenBits
  | 0x20 => s.regs.tagAddr
  | 0x24 => s.regs.tagLenBits
  | 0x28 => s.regs.devInstanceArg
  | 0x2C => s.regs.lockTicksArg
  | _ => 0

/-- The operand registers after a host write of the register at an offset (10_state.md R28 to R36); any other offset
leaves them alone. -/
def Regs.write (r : Regs) (off : BitVec 6) (v : Word) : Regs :=
  match off.toNat with
  | 0x0C => { r with keyAddr := v }
  | 0x10 => { r with keyBits := v }
  | 0x14 => { r with cipherFamily := v }
  | 0x18 => { r with dataAddr := v }
  | 0x1C => { r with dataLenBits := v }
  | 0x20 => { r with tagAddr := v }
  | 0x24 => { r with tagLenBits := v }
  | 0x28 => { r with devInstanceArg := v }
  | 0x2C => { r with lockTicksArg := v }
  | _ => r

/-- A host write of the register at an offset: CMD offers a command (R21), an operand register takes the value, STATUS,
DEV_ERROR and the reserved words ignore it (R22, R27, R37). -/
def writeReg (s : State) (off : BitVec 6) (v : Word) : State :=
  if off = 0 then offer s v else { s with regs := s.regs.write off v }

/-- One poll of WAIT (30_encoding.md R98): a read of STATUS, and another poll while BUSY is 1, with one engine turn between
two polls (log 14). -/
def waitPoll (s : State) : State :=
  { s with
    readData := statusWord s
    sched := if s.busy then .engine :: .host .wait :: s.sched else s.sched }

/-- An access of a bus master to one byte, which leads to `t`. Window and host memory share one address space (log 19). In
the window the block decodes (10_state.md R20) an access that narrow has no meaning and is refused (20_memory.md R70);
anywhere else it is one to host memory. -/
def byteAccess (a : Word) (t : State) : Stepped :=
  match windowOffset a with
  | some _ => .refused .undefinedAccess
  | none => .next t

/-- One host step (00_scope.md R13). -/
def hostStep (op : HostOp) (s : State) : Stepped :=
  match op with
  | .write off w v => if definedAccess off w then .next (writeReg s off v) else .refused .undefinedAccess
  | .read off w => if definedAccess off w then .next { s with readData := readReg s off } else .refused .undefinedAccess
  | .store a v => byteAccess a (s.storeByte a v)
  | .load a => byteAccess a { s with readData := (byteAt s a).setWidth 32 }
  | .wait => .next (waitPoll s)

end Sys2Proof.Machine
end

