-- ==== Sys2Proof/Machine/Turns.lean ====
section
/-! DEFINITION. Whose turn it is and what the turn does (spec/00_scope.md R13; spec/40_engine.md R122;
spec/70_reset_and_hazards.md R310; spec/60_exceptions.md R291; log 2). -/

namespace Sys2Proof.Machine

/-- The one step the engine's phase gives for the latched command word (40_engine.md R122, R123). -/
def commandStep (s : State) : Stepped :=
  match decode s.lat.cmd with
  | some i => exec i s
  | none => reservedStep s

/-- The engine's turn. While IDLE the engine has no step (40_engine.md R122), and a step whose memory request is refused is
not taken (20_memory.md R65): the turn then changes nothing (log 8). -/
def engineTurn (s : State) : Stepped :=
  if s.phase = .idle then .next s
  else
    match commandStep s with
    | .next t => .next t
    | .fault (.memoryRefused _) => .next s
    | .fault .noStep => .fault .noStep
    | .refused r => .refused r

/-- `k` engine turns in a row, with no host step between them. -/
def engineTurns : Nat → State → Stepped
  | 0, s => .next s
  | k + 1, s =>
    match engineTurn s with
    | .next t => engineTurns k t
    | .fault r => .fault r
    | .refused r => .refused r

/-- Another block or user takes an instance's lock, which the device does not grant while this block holds it
(60_exceptions.md R291). -/
def otherAcquire (inst : Word) (s : State) : State :=
  if inst ∈ s.dev.locks then s
  else { s with dev := { s.dev with otherLocks := inst :: s.dev.otherLocks } }

/-- Another block or user gives an instance's lock back. -/
def otherRelease (inst : Word) (s : State) : State :=
  { s with dev := { s.dev with otherLocks := s.dev.otherLocks.filter fun x => x != inst } }

/-- What one turn does. -/
def takeTurn (t : Turn) (s : State) : Stepped :=
  match t with
  | .engine => engineTurn s
  | .host op => hostStep op s
  | .reset => .next (resetEvent s)
  | .otherAcquire inst => .next (otherAcquire inst s)
  | .otherRelease inst => .next (otherRelease inst s)

/-- The next turn of the schedule; when none is left, the engine's (log 2). -/
def nextTurn (s : State) : Stepped :=
  match s.sched with
  | [] => engineTurn s
  | t :: rest => takeTurn t { s with sched := rest }

/-- The machine with a command word accepted and the engine's turn next: what stands for "the next instruction" here
(log 7). -/
def placeCommand (s : State) (w : Word) : State := { accept s w with sched := .engine :: s.sched }

end Sys2Proof.Machine
end

