-- ==== Sys2Proof/Machine/Step.lean ====
section
/-! DEFINITION. One step of the machine, and the machine with a command placed to run next. -/

namespace Sys2Proof.Machine

/-- One step: the turn that is next (Turns.lean). -/
def step (s : State) : Host.Outcome State Fault Refusal := nextTurn s

/-- The command whose table word is `w` as the very next thing the machine runs (log 7). The block fetches no instruction
(spec/20_memory.md R79): a command is the word of an accepted CMD write (spec/40_engine.md R120). -/
def State.withFetchWord (s : State) (nbits w : Nat) : State := placeCommand s (BitVec.ofNat 32 (w % 2 ^ nbits))

end Sys2Proof.Machine
end

