-- ==== Sys2Proof/Machine/Notation.lean ====
section
/-! DEFINITION. The host notation and the pseudo-operations of spec/30_encoding.md R97, R98, as turns to lay down in a
schedule. -/

namespace Sys2Proof.Machine

/-- `WR off, v` (R97). -/
def WR (off : BitVec 6) (v : Word) : Turn := .host (.write off .word v)

/-- `RD off` (R97); the value is in `readData` afterwards. -/
def RD (off : BitVec 6) : Turn := .host (.read off .word)

/-- `CMAC.<mnemonic>` (R97). -/
def CMAC (i : Instr) : Turn := WR 0x00 (encode i)

/-- `WAIT` (R98). -/
def WAIT : Turn := .host .wait

/-- `init` (R98). -/
def progInit : List Turn := [CMAC .init, WAIT]

/-- `setinst v` (R98). -/
def progSetinst (v : Word) : List Turn := [WR 0x28 v, CMAC .setDeviceInstance, WAIT]

/-- `setticks v` (R98). -/
def progSetticks (v : Word) : List Turn := [WR 0x2C v, CMAC .setLockWaitTicks, WAIT]

/-- `setkey ka, kbits, fam` (R98). -/
def progSetkey (ka kbits fam : Word) : List Turn :=
  [WR 0x0C ka, WR 0x10 kbits, WR 0x14 fam, CMAC .setkey, WAIT]

/-- The operand writes that `gen` and `verify` share (R98). -/
def progTagOperands (da dbits ta tbits : Word) : List Turn :=
  [WR 0x18 da, WR 0x1C dbits, WR 0x20 ta, WR 0x24 tbits]

/-- `gen da, dbits, ta, tbits` (R98). -/
def progGen (da dbits ta tbits : Word) : List Turn :=
  progTagOperands da dbits ta tbits ++ [CMAC .generateTag, WAIT]

/-- `verify da, dbits, ta, tbits` (R98). -/
def progVerify (da dbits ta tbits : Word) : List Turn :=
  progTagOperands da dbits ta tbits ++ [CMAC .verifyTag, WAIT]

/-- `free` (R98). -/
def progFree : List Turn := [CMAC .free, WAIT]

/-- The second half of `result -> r` (R98): the field `s[7:4]` of the STATUS value just read. -/
def resultField (status : Word) : BitVec 4 := status.extractLsb' 4 4

/-- `result -> r` (R98): the read; `resultField` of `readData` is then `r`. -/
def progResult : List Turn := [RD 0x04]

end Sys2Proof.Machine
end

