-- ==== Sys2Proof/WellFormed.lean ====
section
/-! DEFINITION. Which command words are valid commands (spec/30_encoding.md R90). -/

namespace Sys2Proof

/-- The check on RSV: it must be 0 (R90). -/
def rsvIsZero (w : Word) : Bool := rsvOf w == 0

/-- The check on OPCODE: one of the seven values of R94. -/
def opcodeIsAssigned (w : Word) : Bool := 0x01 ≤ opcodeOf w && opcodeOf w ≤ 0x07

/-- "A word is a valid command only when RSV = 0 and OPCODE is one of the seven values of rule R94" (R90). -/
def wellFormedWord (w : Word) : Bool := rsvIsZero w && opcodeIsAssigned w

/-- A command is well formed when the word that stands for it is. -/
def Instr.wellFormed (i : Instr) : Bool := wellFormedWord (encode i)

end Sys2Proof
end

