-- ==== Sys2Proof/Safety.lean ====
section
/-! DEFINITION. What counts as a legal state (spec/10_state.md R23, R26, R27, R38 to R52, R55; spec/40_engine.md R125,
R131, R135; spec/60_exceptions.md R291), and the words the claims are written in. -/

namespace Sys2Proof.Machine

/-! ### Outcomes -/

/-- A change applied to the state a step answers. -/
def onNext (f : State → State) : Stepped → Stepped
  | .next t => .next (f t)
  | .fault r => .fault r
  | .refused r => .refused r

/-! ### Phase sequences (40_engine.md R125) -/

/-- The phases on a command word's path, from acceptance to DONE (R125). -/
def phasesOf : Option Instr → List Phase
  | some .init => [.check, .clear, .done]
  | some .free => [.check, .clear, .done]
  | some .setDeviceInstance => [.check, .setcfg, .done]
  | some .setLockWaitTicks => [.check, .setcfg, .done]
  | some .setkey =>
    [.check, .discard, .loadkey, .bind, .lock, .encL, .subkeys, .release, .cleanup, .done]
  | some .generateTag => [.check, .lock, .block, .release, .out, .done]
  | some .verifyTag => [.check, .lock, .block, .release, .out, .done]
  | none => [.check, .done]

/-- The phases in which the block holds the device's lock (10_state.md R51; 40_engine.md R131, R132). -/
def lockedPhases : List Phase := [.encL, .subkeys, .block, .release]

/-- The phases a command passes through before any failure is recorded. -/
def unfailedPhases : List Phase :=
  [.check, .discard, .loadkey, .bind, .lock, .encL, .subkeys, .block, .out, .setcfg, .clear]

/-- A SETKEY between DISCARD and DONE: the only time the context is neither keyed nor empty. -/
def rekeying (s : State) : Prop :=
  decode s.lat.cmd = some .setkey ∧
    s.phase ∈ [Phase.loadkey, .bind, .lock, .encL, .subkeys, .release, .cleanup]

/-- The command word latched is GENERATE_TAG or VERIFY_TAG. -/
def tagCommand (s : State) : Prop :=
  decode s.lat.cmd = some .generateTag ∨ decode s.lat.cmd = some .verifyTag

/-! ### The parts of the invariant -/

/-- The engine's working registers are zero, as DONE leaves them (40_engine.md R127). -/
structure ScratchZero (s : State) : Prop where
  n : s.n = 0
  i : s.i = 0
  nb : s.nb = 0
  tb : s.tb = 0
  j : s.j = 0
  st : s.st = 0
  acc : s.acc = 0

/-- Busy bit, phase, results and the lock bits. -/
structure ControlInv (s : State) : Prop where
  busy_iff : s.busy = true ↔ s.phase ≠ .idle
  on_path : s.phase ≠ .idle → s.phase ∈ phasesOf (decode s.lat.cmd)
  hidden_while_busy : s.busy = true → s.result = 0 ∧ s.devError = 0
  shown_when_idle : s.busy = false → s.result = s.pres ∧ s.devError = shownError s.pres s.pcode
  pres_legal : s.pres.toNat ≤ 4
  pcode_fault : s.pres ≠ DEVICE_FAULT → s.pcode = 0
  unfailed : s.phase ∈ unfailedPhases → s.pres = SUCCESS
  cleanup_failed : s.phase = .cleanup → s.pres ≠ SUCCESS
  auth_from_verify : s.pres = AUTH_FAILED → decode s.lat.cmd = some .verifyTag
  device_failure : s.pres = DEVICE_TIMEOUT ∨ s.pres = DEVICE_FAULT → decode s.lat.cmd = some .setkey ∨ tagCommand s
  lock_held : s.lockHeld = true ↔ s.phase ∈ lockedPhases
  lock_inst : s.lockHeld = false → s.lockInst = 0

/-- The context has no key: nothing bound, nothing stored. -/
structure Unkeyed (c : Context) : Prop where
  ready : c.ready = false
  bound : c.bound = false
  boundInst : c.boundInst = 0
  family : c.family = 0
  keyBits : c.keyBits = 0
  key : c.key = zeroKey
  k1 : c.k1 = 0
  k2 : c.k2 = 0

/-- The subkeys are those of the stored key (41_datapath.md R153; 42_setkey.md R187). -/
def SubkeysDerived (c : Context) : Prop :=
  (c.k1, c.k2) = (deriveSubkeys Config.encrypt c.family c.keyBits (keyBytes c)).2

/-- The context, in every phase (10_state.md R38 to R42, R55). -/
structure ContextInv (s : State) : Prop where
  key_length : s.ctx.key.length = 32
  key_tail : s.ctx.key.drop (s.ctx.keyBits.toNat / 8) = List.replicate (32 - s.ctx.keyBits.toNat / 8) 0
  unready_subkeys : s.ctx.ready = false → s.ctx.k1 = 0 ∧ s.ctx.k2 = 0
  ready_bound : s.ctx.ready = true → s.ctx.bound = true
  ready_derived : s.ctx.ready = true → SubkeysDerived s.ctx
  bound_legal :
    s.ctx.bound = true → s.ctx.family ∈ Config.families ∧ s.ctx.keyBits ∈ Config.keySizes s.ctx.family
  unbound_inst : s.ctx.bound = false → s.ctx.boundInst = 0
  steady : ¬ rekeying s → s.ctx.ready = false → Unkeyed s.ctx
  checked :
    decode s.lat.cmd = some .setkey → s.phase ∈ [Phase.discard, .loadkey, .bind, .lock, .encL, .subkeys] →
      setkeyCheck s.lat = true
  loading : s.phase = .loadkey → Unkeyed s.ctx
  binding : s.phase = .bind → s.ctx.bound = false ∧ s.ctx.ready = false
  keyed :
    decode s.lat.cmd = some .setkey → s.phase ∈ [Phase.bind, .lock, .encL, .subkeys] →
      s.ctx.family = s.lat.family ∧ s.ctx.keyBits = s.lat.keyBits
  halfway :
    decode s.lat.cmd = some .setkey → s.phase ∈ [Phase.lock, .encL, .subkeys] →
      s.ctx.bound = true ∧ s.ctx.ready = false
  released :
    decode s.lat.cmd = some .setkey → s.phase = .release →
      s.ctx.bound = true ∧ (s.ctx.ready = true ↔ s.pres = SUCCESS)
  cleaning : s.phase = .cleanup → s.ctx.ready = false
  subkeys_input :
    s.phase = .subkeys → s.L = encryptZero Config.encrypt s.ctx.family s.ctx.keyBits (keyBytes s.ctx)
  no_stray_L : s.phase ≠ .subkeys → s.L = 0

/-- The working registers of a tag command (43_tag.md R201, R203, R205). -/
structure TagInv (s : State) : Prop where
  scratch :
    ¬ (tagCommand s ∧ s.phase ∈ [Phase.lock, .block, .release, .out, .done]) → ScratchZero s
  checked : tagCommand s → s.phase ∈ [Phase.lock, .block, .release, .out] →
    tagCheck s = true ∧ s.nb.toNat = dataLen s.lat ∧ s.n.toNat = nblocks (dataLen s.lat) ∧
      s.tb.toNat = tagLen s.lat ∧ 1 ≤ s.i.toNat ∧ s.i.toNat ≤ nblocks (dataLen s.lat) ∧
      s.j.toNat ≤ tagLen s.lat
  before_out : s.phase = .lock ∨ s.phase = .block ∨ s.phase = .release → s.j = 0
  compared_only : decode s.lat.cmd ≠ some .verifyTag ∨ (s.phase ≠ .out ∧ s.phase ≠ .done) → s.acc = 0

/-- Host memory and the cipher device (60_exceptions.md R291; log 4, log 11). -/
structure OutsideInv (s : State) : Prop where
  mem_canonical : Memory.wf s.mem = true
  one_owner : ∀ inst ∈ s.dev.locks, inst ∉ s.dev.otherLocks
  lock_known : s.lockHeld = true → s.lockInst ∈ s.dev.locks
  binding_known : s.ctx.bound = true → s.ctx.boundInst ∈ s.dev.bindings

/-- The legal states: every step keeps them, and the reset state is one. -/
structure Inv (s : State) : Prop where
  control : ControlInv s
  context : ContextInv s
  tag : TagInv s
  outside : OutsideInv s

/-! ### Words of the claims about whole commands -/

/-- The message a tag command reads (20_memory.md R61). -/
def message (s : State) : List Byte := readBuffer s s.lat.dataAddr (dataLen s.lat)

/-- The number of blocks of that message (41_datapath.md R154). -/
def blockCount (s : State) : Nat := nblocks (dataLen s.lat)

/-- The full-length MAC of that message under the context's key (41_datapath.md R159). -/
def messageMac (s : State) : Block :=
  cmac Config.encrypt s.ctx.family s.ctx.keyBits (keyBytes s.ctx) (message s)

/-- The memory admits every read of a buffer. -/
def AdmitsReads (s : State) (a : Word) (len : Nat) : Prop := ∀ m < len, admitsRead s (byteAddr a m) = true

/-- The memory admits every write of a buffer. -/
def AdmitsWrites (s : State) (a : Word) (len : Nat) : Prop := ∀ m < len, admitsWrite s (byteAddr a m) = true

/-- The memory admits every request that the latched command makes if its check passes (20_memory.md R68). -/
def RequestsAdmitted (s : State) : Prop :=
  match decode s.lat.cmd with
  | some .setkey => setkeyCheck s.lat = true → AdmitsReads s s.lat.keyAddr (keyLen s.lat)
  | some .generateTag =>
    tagCheck s = true → AdmitsReads s s.lat.dataAddr (dataLen s.lat) ∧ AdmitsWrites s s.lat.tagAddr (tagLen s.lat)
  | some .verifyTag =>
    tagCheck s = true → AdmitsReads s s.lat.dataAddr (dataLen s.lat) ∧ AdmitsReads s s.lat.tagAddr (tagLen s.lat)
  | some .init | some .free | some .setDeviceInstance | some .setLockWaitTicks | none => True

/-- The host accesses that have no meaning: to the window, and not 32 bits wide at a multiple of 4 (20_memory.md R70). -/
def UndefinedAccess : HostOp → Prop
  | .write off w _ => ¬ (w = .word ∧ off.toNat % 4 = 0)
  | .read off w => ¬ (w = .word ∧ off.toNat % 4 = 0)
  | .store a _ => windowOffset a ≠ none
  | .load a => windowOffset a ≠ none
  | .wait => False

/-- Memory after the bytes of a buffer are stored in ascending order. -/
def storeFrom (a : Word) : Nat → List Byte → List Host.Cell → List Host.Cell
  | _, [], m => m
  | k, v :: vs, m => storeFrom a (k + 1) vs (Memory.store m (byteAddr a k).toNat v)

/-- What goes into the cipher for block `k` (from 1) of the message (41_datapath.md R157, R159). -/
def cipherInput (s : State) (k : Nat) : Block :=
  let prev := chainPrefix Config.encrypt s.ctx.family s.ctx.keyBits (keyBytes s.ctx) (message s) (k - 1)
  if k < blockCount s then prev ^^^ be128 (messageBlock (message s) k)
  else prev ^^^ lastBlock s.ctx.k1 s.ctx.k2 (messageBlock (message s) k) (dataLen s.lat)

/-- The requests of the BLOCK step for block `k`: its bytes in ascending order, then the encryption (20_memory.md R68;
40_engine.md R136). -/
def blockRequests (s : State) (k : Nat) : List Request :=
  (bufferAddrs (byteAddr s.lat.dataAddr (16 * (k - 1))) (min 16 (dataLen s.lat - 16 * (k - 1)))).map .memRead ++
    [.cipherEncrypt (effInst s.ctx) s.ctx.family s.ctx.keyBits (keyBytes s.ctx) (cipherInput s k)]

/-- The requests of a tag command up to the end of block `k` (40_engine.md R136). -/
def chainRequests (s : State) (k : Nat) : List Request :=
  .cipherAcquire (effInst s.ctx) (effTicks s.ctx) :: (List.range k).flatMap fun m => blockRequests s (m + 1)

/-- The writes of a GENERATE_TAG: each tag byte once, in ascending order (20_memory.md R68; 43_tag.md R207). -/
def tagWrites (s : State) : List Request :=
  (List.range (tagLen s.lat)).map fun j =>
    .memWrite (byteAddr s.lat.tagAddr j) (tagByte (messageMac s) s.lat.tagLenBits.toNat j)

/-- The reads of a VERIFY_TAG's supplied tag (20_memory.md R68; 43_tag.md R208). -/
def tagReads (s : State) : List Request := (bufferAddrs s.lat.tagAddr (tagLen s.lat)).map .memRead

/-- The device after it has answered one CipherAcquire with GRANTED, then `k` CipherEncrypt requests, and the lock is given
back. -/
def Device.afterChain (d : Device) (inst : Word) (k : Nat) : Device :=
  { d with
    acquireAnswers := d.acquireAnswers.drop 1
    encryptAnswers := d.encryptAnswers.drop k
    locks := d.locks.filter fun x => x != inst }

end Sys2Proof.Machine
end

