-- ==== Sys2Proof/Certificates/Slice0/Obligations.lean ====
section
/-! DEFINITION. The statements for the provers: what the numbered rules of spec/ say of the block, in the words of
Safety.lean. Each docstring names the rules; OBLIGATIONS.json quotes them. -/

open Sys2Proof Sys2Proof.Machine

/-! ### Encoding and decoding (30_encoding.md) -/

/-- R90, R94, R95, R96: the seven words, and that decoding answers exactly them. -/
def Obligations.DecodingAnswersExactlyTheOpcodeMap : Prop :=
  (encode .init = 0x00000001 ∧ encode .setDeviceInstance = 0x00000002 ∧ encode .setLockWaitTicks = 0x00000003 ∧
    encode .setkey = 0x00000004 ∧ encode .generateTag = 0x00000005 ∧ encode .verifyTag = 0x00000006 ∧
    encode .free = 0x00000007) ∧
  ∀ w : Word,
    (∀ i, decode w = some i ↔ w &&& 0xFFFFFFFF = encode i) ∧
    (decode w = none ↔ rsvOf w ≠ 0 ∨ opcodeOf w = 0x00 ∨ 0x08 ≤ opcodeOf w) ∧
    (wellFormedWord w = true ↔ ∃ i, decode w = some i)

/-- R94 and 95_test_vectors.md 2.5: words written out from the spec. -/
def Obligations.SpecCommandWordsDecode : Prop :=
  decode 0x00000001 = some .init ∧ decode 0x00000002 = some .setDeviceInstance ∧
  decode 0x00000003 = some .setLockWaitTicks ∧ decode 0x00000004 = some .setkey ∧
  decode 0x00000005 = some .generateTag ∧ decode 0x00000006 = some .verifyTag ∧ decode 0x00000007 = some .free ∧
  decode 0x00000000 = none ∧ decode 0x00000008 = none ∧ decode 0x000000FF = none ∧ decode 0x00000105 = none ∧
  decode 0x80000006 = none ∧ decode 0xFFFFFFFF = none

/-! ### The step (40_engine.md) -/

/-- R122, R123: on the engine's turn the machine runs one step of the command latched. That the turn comes from a schedule
(log 2) and that a refused byte leaves the machine where it is (log 8) are the model's form of R13 and R65. -/
def Obligations.StepRunsTheDecodedCommand : Prop :=
  ∀ (s s' : State) (i : Instr), s.phase ≠ .idle → decode s.lat.cmd = some i →
    ((s.sched = [] ∧ s' = s) ∨ (∃ rest, s.sched = .engine :: rest ∧ s' = { s with sched := rest })) →
    (∀ t, exec i s' = .next t → step s = .next t) ∧
    (∀ a, exec i s' = .fault (.memoryRefused a) → step s = .next s') ∧
    (exec i s' = .fault .noStep → step s = .fault .noStep)

/-- The model's choice (log 7): a command placed to run next is run by the very next step, from its acceptance (R120). -/
def Obligations.PlacedCommandIsRunByTheNextStep : Prop :=
  ∀ (s : State) (i : Instr),
    (∃ t, exec i (accept s (encode i)) = .next t) ∧
    step (s.withFetchWord 32 (encode i).toNat) = exec i (accept s (encode i))

/-- R95, R124: a reserved word is accepted like any command, its CHECK does `finish(BAD_INPUT)` and nothing else, and the
whole of it, acceptance and DONE included, changes nothing but the fields named; it makes no request. -/
def Obligations.ReservedWordCompletesWithBadInput : Prop :=
  ∀ (s : State) (w : Word), Inv s → s.phase = .idle → rsvOf w ≠ 0 ∨ opcodeOf w = 0x00 ∨ 0x08 ≤ opcodeOf w →
    hostStep (.write 0x00 .word w) s = .next (accept s w) ∧
    engineTurn (accept s w) = .next { accept s w with pres := BAD_INPUT, phase := .done } ∧
    engineTurns 2 (accept s w) = .next
      { s with
        lat := (accept s w).lat, busy := false, ovr := false, result := BAD_INPUT, devError := 0, pres := BAD_INPUT,
        pcode := 0 }

/-- R65, R327: a step whose memory request is refused is never taken: the engine stays in its phase however often it is its
turn, and only a reset ends it. -/
def Obligations.RefusedRequestLeavesTheEngineStuck : Prop :=
  ∀ s : State, s.busy = true →
    ((decode s.lat.cmd = some .setkey ∧ s.phase = .loadkey ∧
        ∃ m < keyLen s.lat, admitsRead s (byteAddr s.lat.keyAddr m) = false) ∨
      (tagCommand s ∧ s.phase = .block ∧ s.i < s.n ∧ ∃ m < 16, admitsRead s (byteAddr (blockAddr s) m) = false) ∨
      (tagCommand s ∧ s.phase = .block ∧ s.i = s.n ∧
        ∃ m < lastLen s, admitsRead s (byteAddr (blockAddr s) m) = false) ∨
      (decode s.lat.cmd = some .generateTag ∧ s.phase = .out ∧ s.j < s.tb ∧ admitsWrite s (tagByteAddr s) = false) ∨
      (decode s.lat.cmd = some .verifyTag ∧ s.phase = .out ∧ s.j < s.tb ∧ admitsRead s (tagByteAddr s) = false)) →
    (∀ k, engineTurns k s = .next s) ∧
    (∀ rest, step { s with sched := .engine :: rest } = .next { s with sched := rest }) ∧
    ∃ t, takeTurn .reset s = .next t ∧ t.busy = false ∧ t.phase = .idle

/-! ### The register window (10_state.md section 2) -/

/-- R20, R21, R27 to R37: what a host read of each offset returns; a read changes nothing but the value read. CMD and the
reserved words read 0. -/
def Obligations.HostReadsFollowTheRegisterMap : Prop :=
  ∀ s : State,
    hostStep (.read 0x00 .word) s = .next { s with readData := 0 } ∧
    hostStep (.read 0x04 .word) s = .next { s with readData := statusWord s } ∧
    hostStep (.read 0x08 .word) s = .next { s with readData := s.devError } ∧
    hostStep (.read 0x0C .word) s = .next { s with readData := s.regs.keyAddr } ∧
    hostStep (.read 0x10 .word) s = .next { s with readData := s.regs.keyBits } ∧
    hostStep (.read 0x14 .word) s = .next { s with readData := s.regs.cipherFamily } ∧
    hostStep (.read 0x18 .word) s = .next { s with readData := s.regs.dataAddr } ∧
    hostStep (.read 0x1C .word) s = .next { s with readData := s.regs.dataLenBits } ∧
    hostStep (.read 0x20 .word) s = .next { s with readData := s.regs.tagAddr } ∧
    hostStep (.read 0x24 .word) s = .next { s with readData := s.regs.tagLenBits } ∧
    hostStep (.read 0x28 .word) s = .next { s with readData := s.regs.devInstanceArg } ∧
    hostStep (.read 0x2C .word) s = .next { s with readData := s.regs.lockTicksArg } ∧
    ∀ off ∈ [(0x30 : BitVec 6), 0x34, 0x38, 0x3C], hostStep (.read off .word) s = .next { s with readData := 0 }

/-- R28 to R36: a host write of an operand register is what a later read returns, whatever the value; no other register of
the window changes, and nothing outside the operand registers. R22, R27, R37: a write of STATUS, DEV_ERROR or a reserved
word has no effect. -/
def Obligations.HostWritesReachOnlyTheirRegister : Prop :=
  ∀ (s : State) (v : Word),
    (∀ off ∈ [(0x0C : BitVec 6), 0x10, 0x14, 0x18, 0x1C, 0x20, 0x24, 0x28, 0x2C],
      ∃ t, hostStep (.write off .word v) s = .next t ∧ readReg t off = v ∧
        (∀ off', off' ≠ off → readReg t off' = readReg s off') ∧ t = { s with regs := t.regs }) ∧
    ∀ off ∈ [(0x04 : BitVec 6), 0x08, 0x30, 0x34, 0x38, 0x3C], hostStep (.write off .word v) s = .next s

/-- R22 to R26: the fields of the STATUS word, READY read live from the context, the reserved bits 0, the value after reset,
and that a write has no effect. -/
def Obligations.StatusShowsItsFields : Prop :=
  (∀ s : State,
    hostStep (.read 0x04 .word) s = .next { s with readData := statusWord s } ∧
    statusWord s = (s.result.setWidth 32 <<< 4) ||| ((if s.ovr then 1 else 0 : Word) <<< 2) |||
      ((if s.ctx.ready then 1 else 0 : Word) <<< 1) ||| (if s.busy then 1 else 0 : Word) ∧
    (statusWord s).getLsbD 0 = s.busy ∧ (statusWord s).getLsbD 1 = s.ctx.ready ∧ (statusWord s).getLsbD 2 = s.ovr ∧
    (statusWord s).getLsbD 3 = false ∧ (statusWord s).extractLsb' 4 4 = s.result ∧
    (statusWord s).extractLsb' 8 24 = 0 ∧
    ∀ v, hostStep (.write 0x04 .word v) s = .next s) ∧
  statusWord State.reset = 0

/-- R70: an access to the window that is not 32 bits wide at a multiple of 4 is refused; every other access to the window
has its meaning. The last clause is the model's choice: a host's byte store or load at a bus address of the window is such
an access (log 13), window and host memory lying in one 32-bit address space (log 19). -/
def Obligations.OnlyAlignedWordAccessesAreDefined : Prop :=
  ∀ (s : State) (off : BitVec 6) (w : Width) (v : Word),
    (¬ (w = .word ∧ off.toNat % 4 = 0) →
      hostStep (.write off w v) s = .refused .undefinedAccess ∧ hostStep (.read off w) s = .refused .undefinedAccess) ∧
    (w = .word ∧ off.toNat % 4 = 0 →
      ∃ t u, hostStep (.write off w v) s = .next t ∧ hostStep (.read off w) s = .next u) ∧
    ∀ (a : Word) (b : Byte), windowOffset a ≠ none →
      hostStep (.store a b) s = .refused .undefinedAccess ∧ hostStep (.load a) s = .refused .undefinedAccess

/-- R8, R20, R97: the window is the 0x40 bytes from BASE, a multiple of 0x40, and each offset is reached at one address.
That a bus address is 32 bits wide is log 19. -/
def Obligations.WindowHoldsTheAddressesFromBase : Prop :=
  Config.base.toNat % 0x40 = 0 ∧
  (∀ off, windowOffset (regAddress off) = some off) ∧
  ∀ a off, windowOffset a = some off ↔ (Config.base.toNat ≤ a.toNat ∧ a.toNat = Config.base.toNat + off.toNat)

/-- R75, R98: host memory as the host meets it. Outside the window a store sets the byte at its address and nothing else,
and that is what a later load returns and what the engine's reads take; a load changes nothing but the value read. One poll
of WAIT reads STATUS and, while BUSY is 1, leaves another poll to come. That host accesses are one byte wide is log 16, that
the value read is kept log 13, that one engine turn falls between two polls log 14, that the window lies in the same 32-bit
address space as host memory log 19. -/
def Obligations.HostReachesMemoryAndPollsStatus : Prop :=
  ∀ s : State,
    (∀ (a : Word) (v : Byte), windowOffset a = none → Memory.wf s.mem = true →
      ∃ t, hostStep (.store a v) s = .next t ∧ t = { s with mem := t.mem } ∧ Memory.wf t.mem = true ∧
        (∀ b, byteAt t b = if b = a then v else byteAt s b) ∧
        hostStep (.load a) t = .next { t with readData := v.setWidth 32 } ∧
        ∀ base len, readBuffer t base len =
          (bufferAddrs base len).map fun b => if b = a then v else byteAt s b) ∧
    (∀ a : Word, windowOffset a = none →
      hostStep (.load a) s = .next { s with readData := (byteAt s a).setWidth 32 }) ∧
    (s.busy = true → hostStep .wait s = .next
      { s with readData := statusWord s, sched := .engine :: .host .wait :: s.sched }) ∧
    (s.busy = false → hostStep .wait s = .next { s with readData := statusWord s })

/-- R120: what the acceptance of a command word does, all at once. -/
def Obligations.AcceptanceLatchesTheCommand : Prop :=
  ∀ (s : State) (w : Word), s.busy = false →
    hostStep (.write 0x00 .word w) s = .next
      { s with
        lat := ⟨w, s.regs.keyAddr, s.regs.keyBits, s.regs.cipherFamily, s.regs.dataAddr, s.regs.dataLenBits,
          s.regs.tagAddr, s.regs.tagLenBits, s.regs.devInstanceArg, s.regs.lockTicksArg⟩
        busy := true, ovr := false, result := 0, devError := 0, pres := SUCCESS, pcode := 0, phase := .check }

/-- R121: a command word written while BUSY is dropped: it sets OVR and nothing else, and the command in flight goes on as
it would have. -/
def Obligations.DroppedCommandOnlySetsOvr : Prop :=
  (∀ (s : State) (w : Word), s.busy = true → hostStep (.write 0x00 .word w) s = .next { s with ovr := true }) ∧
  (∀ (s : State) (i : Instr), exec i { s with ovr := true } = onNext (fun t => { t with ovr := true }) (exec i s)) ∧
  ∀ s : State, engineTurn { s with ovr := true } = onNext (fun t => { t with ovr := true }) (engineTurn s)

/-- R46, R324: the engine reads operands only from the latch, so operand registers written during a command change no step
of it. -/
def Obligations.OperandRegistersDoNotReachACommandInFlight : Prop :=
  ∀ (s : State) (r : Regs),
    (∀ i : Instr, exec i { s with regs := r } = onNext (fun t => { t with regs := r }) (exec i s)) ∧
    engineTurn { s with regs := r } = onNext (fun t => { t with regs := r }) (engineTurn s)

/-! ### Reset (70_reset_and_hazards.md section 1) -/

/-- R310, R311, R312: a reset sets every piece of state to its reset value, issues no request, leaves host memory alone,
and abandons a command in flight: the engine takes no further step of it. Two clauses are the model's choice: of the device
only what it holds for this block may go, all of the locks or none, all of the bindings or none (log 12), and the schedule,
the last value read and the requests already issued stay (log 18). -/
def Obligations.ResetSetsEveryFieldAndAbandonsTheCommand : Prop :=
  ∀ (s : State) (rest : List Turn), s.sched = .reset :: rest →
    ∃ t, step s = .next t ∧ statusWord t = 0 ∧ t.trace = s.trace ∧ t.mem = s.mem ∧ (∀ a, byteAt t a = byteAt s a) ∧
      t = { State.reset with
            mem := s.mem, refuses := s.refuses, dev := t.dev, sched := rest, readData := s.readData,
            trace := s.trace } ∧
      t.dev = { s.dev with locks := t.dev.locks, bindings := t.dev.bindings } ∧
      (t.dev.locks = s.dev.locks ∨ t.dev.locks = []) ∧ (t.dev.bindings = s.dev.bindings ∨ t.dev.bindings = []) ∧
      ∀ k, engineTurns k t = .next t

/-- R56: the reset values, field by field. -/
def Obligations.ResetValuesAreThoseOfTheTable : Prop :=
  let s := State.reset
  (s.regs = ⟨0, 0, 0, 0, 0, 0, 0, 0, 0⟩ ∧ s.busy = false ∧ s.ovr = false ∧ s.result = 0 ∧ s.devError = 0) ∧
  (s.ctx.ready = false ∧ s.ctx.bound = false ∧ s.ctx.boundInst = 0 ∧ s.ctx.family = 0 ∧ s.ctx.keyBits = 0 ∧
    s.ctx.key = List.replicate 32 0 ∧ s.ctx.k1 = 0 ∧ s.ctx.k2 = 0 ∧ s.ctx.instSet = false ∧ s.ctx.inst = 0 ∧
    s.ctx.ticksSet = false ∧ s.ctx.ticks = 0) ∧
  (s.phase = .idle ∧ s.lat = ⟨0, 0, 0, 0, 0, 0, 0, 0, 0, 0⟩ ∧ s.n = 0 ∧ s.i = 0 ∧ s.nb = 0 ∧ s.tb = 0 ∧ s.j = 0 ∧
    s.st = 0 ∧ s.L = 0 ∧ s.acc = 0 ∧ s.lockHeld = false ∧ s.lockInst = 0 ∧ s.pres = 0 ∧ s.pcode = 0)

/-! ### Steps that several commands have (40_engine.md) -/

/-- R127: DONE, for every command; afterwards, while the engine is idle, nothing but an accepted command word and a reset
changes the latch, the pending result or the outcome shown. -/
def Obligations.DoneCompletesEveryCommand : Prop :=
  (∀ (u : Turn) (s t : State), s.phase = .idle → u ≠ .reset → (∀ w, u ≠ .host (.write 0x00 .word w)) →
    takeTurn u s = .next t →
    t.lat = s.lat ∧ t.pres = s.pres ∧ t.pcode = s.pcode ∧ t.result = s.result ∧ t.devError = s.devError) ∧
  ∀ (i : Instr) (s : State), s.phase = .done →
    exec i s = .next
      { s with
        result := s.pres, devError := (if s.pres = DEVICE_FAULT then s.pcode else 0), st := 0, L := 0, acc := 0, n := 0,
        i := 0, nb := 0, tb := 0, j := 0, busy := false, phase := .idle }

/-- R131, R185, R202, R291: LOCK, whatever the device answers. An answer laid down for it is the one it gives, and it never
grants an instance whose lock another user holds. -/
def Obligations.LockFollowsTheDevicesAnswer : Prop :=
  ∀ (s : State) (i : Instr), s.phase = .lock → i = .setkey ∨ i = .generateTag ∨ i = .verifyTag →
    ∃ (a : AcquireAnswer) (d : Device),
      (∀ x rest, s.dev.acquireAnswers = x :: rest → (x = .granted → effInst s.ctx ∉ s.dev.otherLocks) → a = x) ∧
      (effInst s.ctx ∈ s.dev.otherLocks → a ≠ .granted) ∧
      d.locks = (if a = .granted then effInst s.ctx :: s.dev.locks else s.dev.locks) ∧
      let sent := { s with dev := d, trace := s.trace ++ [Request.cipherAcquire (effInst s.ctx) (effTicks s.ctx)] }
      let nextFail : Phase := if i = .setkey then .cleanup else .done
      exec i s = .next (match a with
        | .granted => { sent with
            lockHeld := true, lockInst := effInst s.ctx, phase := if i = .setkey then .encL else .block }
        | .timeout => { sent with pres := DEVICE_TIMEOUT, pcode := 0, phase := nextFail }
        | .err c => { sent with pres := DEVICE_FAULT, pcode := c, phase := nextFail })

/-- R132, R188, R205: RELEASE, for SETKEY and for the tag commands. It is reached only with the lock held, and none is held
at DONE. -/
def Obligations.ReleaseGivesTheLockBack : Prop :=
  (∀ s : State, Inv s → (s.phase = .release → s.lockHeld = true) ∧ (s.phase = .done → s.lockHeld = false)) ∧
  ∀ s : State, s.phase = .release →
    ∃ d : Device, s.lockInst ∉ d.locks ∧
      let sent := { s with
        dev := d, trace := s.trace ++ [Request.cipherRelease s.lockInst], lockHeld := false, lockInst := 0 }
      exec Instr.setkey s = .next { sent with phase := if s.pres = SUCCESS then .done else .cleanup } ∧
      ∀ i : Instr, i = .generateTag ∨ i = .verifyTag →
        exec i s = .next (if s.pres = SUCCESS then { sent with j := 0, phase := .out } else { sent with phase := .done })

/-- R135: CipherEncrypt is issued only with the lock held and the context bound, CipherBind and CipherUnbind without the
lock. -/
def Obligations.EncryptOnlyUnderTheLock : Prop :=
  ∀ s t : State, Inv s → engineTurn s = .next t →
    ∃ new, t.trace = s.trace ++ new ∧
      (∀ inst f kb key x, Request.cipherEncrypt inst f kb key x ∈ new →
        s.lockHeld = true ∧ s.ctx.bound = true ∧ (s.phase = .encL ∨ s.phase = .block)) ∧
      (∀ inst f kb key, Request.cipherBind inst f kb key ∈ new → s.lockHeld = false) ∧
      (∀ inst, Request.cipherUnbind inst ∈ new → s.lockHeld = false)

/-- R271: the causes of BAD_INPUT, each found in CHECK, before any request and any change to the context; no later step gives
BAD_INPUT. -/
def Obligations.BadInputHasExactlyItsCauses : Prop :=
  (∀ s t : State, s.phase ≠ .check → engineTurn s = .next t → t.pres = BAD_INPUT → s.pres = BAD_INPUT) ∧
  ∀ s : State, s.phase = .check → s.pres = SUCCESS →
    ∃ t, engineTurn s = .next t ∧ t.trace = s.trace ∧ t.ctx = s.ctx ∧ t.mem = s.mem ∧
      (t.phase = .done ↔ t.pres = BAD_INPUT) ∧
      (t.pres = BAD_INPUT ↔ match decode s.lat.cmd with
        | none => True
        | some .init => False
        | some .free => False
        | some .setDeviceInstance => Config.deviceInstanceValid s.lat.instArg = false
        | some .setLockWaitTicks => Config.lockWaitValid s.lat.ticksArg = false
        | some .setkey =>
          s.lat.family ∉ Config.families ∨ s.lat.keyBits ∉ Config.keySizes s.lat.family ∨
            fits s.lat.keyAddr (s.lat.keyBits.toNat / 8) = false
        | some .generateTag | some .verifyTag =>
          s.ctx.ready = false ∨ s.lat.dataLenBits.toNat % 8 ≠ 0 ∨ 128 ≤ s.lat.tagLenBits.toNat ∨
            fits s.lat.dataAddr (s.lat.dataLenBits.toNat / 8) = false ∨
            fits s.lat.tagAddr ((s.lat.tagLenBits.toNat + 7) / 8) = false)

/-! ### The datapath (41_datapath.md, 00_scope.md R11) -/

/-- R150, R151: the doubler as a shift with a conditional XOR, its corner cases and example, and the same bit by bit. -/
def Obligations.DoublerBitForm : Prop :=
  dbl 0x7df76b0c1ab899b33e42f047b91b546f = 0xfbeed618357133667c85e08f7236a8de ∧
  dbl 0 = 0 ∧ dbl (1 <<< 127) = 0x87 ∧ dbl (BitVec.allOnes 128) = 0xFFFFFFFFFFFFFFFFFFFFFFFFFFFFFF79 ∧
  ∀ x : Block,
    dbl x = (x <<< 1) ^^^ (if x.getLsbD 127 then 0x87 else 0) ∧
    (dbl x).getLsbD 0 = x.getLsbD 127 ∧ (dbl x).getLsbD 1 = (x.getLsbD 0 ^^ x.getLsbD 127) ∧
    (dbl x).getLsbD 2 = (x.getLsbD 1 ^^ x.getLsbD 127) ∧ (dbl x).getLsbD 7 = (x.getLsbD 6 ^^ x.getLsbD 127) ∧
    (∀ k, 3 ≤ k → k ≤ 6 → (dbl x).getLsbD k = x.getLsbD (k - 1)) ∧
    ∀ k, 8 ≤ k → k ≤ 127 → (dbl x).getLsbD k = x.getLsbD (k - 1)

/-- R152: the doubler is linear and a bijection, only 0 doubles to 0, and a subkey is 0 only when L is. -/
def Obligations.DoublerLaws : Prop :=
  (∀ a b, dbl (a ^^^ b) = dbl a ^^^ dbl b) ∧ Function.Bijective dbl ∧
  (∀ x, x.getLsbD 127 = (dbl x).getLsbD 0) ∧ (∀ x, dbl x = 0 ↔ x = 0) ∧
  ∀ E f kb key, ((deriveSubkeys E f kb key).2.1 = 0 ↔ (deriveSubkeys E f kb key).1 = 0) ∧
    ((deriveSubkeys E f kb key).2.2 = 0 ↔ (deriveSubkeys E f kb key).1 = 0)

/-- R11, R60: `be128` is the big-endian number of 16 bytes, `bytes16` its inverse, byte `j` being bits 127-8j to 120-8j. -/
def Obligations.BlockBytesConvertBigEndian : Prop :=
  (∀ x : Block, be128 (bytes16 x) = x ∧ (bytes16 x).length = 16 ∧
    ∀ j < 16, ∀ k < 8, ((bytes16 x).getD j 0).getLsbD k = x.getLsbD (120 - 8 * j + k)) ∧
  (∀ b : List Byte, b.length = 16 → bytes16 (be128 b) = b ∧
    (be128 b).toNat = ((List.range 16).map fun j => (b.getD j 0).toNat * 2 ^ (8 * (15 - j))).sum) ∧
  be128 (List.replicate 16 0) = 0

/-- R156: padding as bytes and as a number. -/
def Obligations.PaddingAppendsOneBit : Prop :=
  ∀ b : List Byte, b.length ≤ 15 →
    pad b = b ++ 0x80 :: List.replicate (15 - b.length) 0 ∧ (pad b).length = 16 ∧
    be128 (pad b) = (be128 b <<< (8 * (16 - b.length))) ||| ((1 : Block) <<< (127 - 8 * b.length))

/-- R160: the mask of tag byte `j` has exactly the bits of the tag bits below `t`. -/
def Obligations.MaskHasExactlyTheTagBits : Prop :=
  ∀ t ≤ 127, ∀ j < 16,
    (j < t / 8 → tagMask t j = 0xFF) ∧
    (j = t / 8 → t % 8 ≠ 0 → tagMask t j = (0xFF : Byte) <<< (8 - t % 8) &&& 0xFF) ∧
    (t / 8 < j ∨ (j = t / 8 ∧ t % 8 = 0) → tagMask t j = 0) ∧
    ∀ k < 8, (tagMask t j).getLsbD (7 - k) = decide (8 * j + k < t)

/-- R162, R163: the comparator over all supplied bytes finds a match exactly when every tag bit below `t` agrees; a tag of 0
bits matches. -/
def Obligations.ComparatorMatchesExactlyEqualTagBits : Prop :=
  (∀ (mac : Block) (t : Nat) (supplied : List Byte), t ≤ 127 → supplied.length = tagBytes t →
    (compareFrom mac t 0 0 supplied = 0 ↔
      ∀ k < t, mac.getLsbD (127 - k) = (supplied.getD (k / 8) 0).getLsbD (7 - k % 8)) ∧
    (compareFrom mac t 0 0 supplied = 0 ↔
      ∀ j < tagBytes t, supplied.getD j 0 &&& tagMask t j = tagByte mac t j)) ∧
  ∀ mac, compareFrom mac 0 0 0 [] = 0

/-- R161, R165: a shorter tag is the masked prefix of a longer one. -/
def Obligations.ShorterTagIsMaskedPrefix : Prop :=
  ∀ (mac : Block) (t t' j : Nat), t ≤ t' → t' ≤ 127 → j < tagBytes t →
    tagByte mac t j = tagByte mac t' j &&& tagMask t j ∧ tagByte mac t j = (bytes16 mac).getD j 0 &&& tagMask t j

/-! ### INIT, FREE and the setters (44_lifecycle.md) -/

/-- R240, R243, R244: INIT and FREE in each of their phases before DONE. CHECK always passes; CLEAR unbinds if bound and
zeroes the whole context. -/
def Obligations.InitAndFreeClearTheContext : Prop :=
  ∀ (s : State) (i : Instr), i = .init ∨ i = .free →
    (s.phase = .check → exec i s = .next { s with phase := .clear }) ∧
    (s.phase = .clear → ∃ d : Device, exec i s = .next
      { s with
        ctx := ⟨false, false, 0, 0, 0, List.replicate 32 0, 0, 0, false, 0, false, 0⟩
        trace := s.trace ++ (if s.ctx.bound then [Request.cipherUnbind s.ctx.boundInst] else [])
        dev := d
        phase := .done } ∧
      d = { s.dev with bindings := d.bindings } ∧ (s.ctx.bound = false → d = s.dev))

/-- R241, R242, R245: the setters in each of their phases before DONE. -/
def Obligations.SettersWriteOnlyTheirPair : Prop :=
  ∀ s : State,
    (s.phase = .check →
      exec .setDeviceInstance s = .next (if Config.deviceInstanceValid s.lat.instArg then { s with phase := .setcfg }
        else { s with pres := BAD_INPUT, phase := .done }) ∧
      exec .setLockWaitTicks s = .next (if Config.lockWaitValid s.lat.ticksArg then { s with phase := .setcfg }
        else { s with pres := BAD_INPUT, phase := .done })) ∧
    (s.phase = .setcfg →
      exec .setDeviceInstance s = .next
        { s with ctx := { s.ctx with inst := s.lat.instArg, instSet := true }, phase := .done } ∧
      exec .setLockWaitTicks s = .next
        { s with ctx := { s.ctx with ticks := s.lat.ticksArg, ticksSet := true }, phase := .done })

/-! ### SETKEY (42_setkey.md) -/

/-- R181 with R8 and R66: CHECK of SETKEY passes exactly for AES, 128 or 256 bits, and a key buffer that ends inside the
address space. That no further family is accepted is R8's value for this hardware as the model takes it (log 6). -/
def Obligations.SetkeyCheckAcceptsExactlyTheAesKeys : Prop :=
  ∀ s : State, s.phase = .check →
    let ok := s.lat.family = 1 ∧ (s.lat.keyBits = 128 ∨ s.lat.keyBits = 256) ∧
      s.lat.keyAddr.toNat + s.lat.keyBits.toNat / 8 ≤ 2 ^ 32
    (ok → exec .setkey s = .next { s with phase := .discard }) ∧
    (¬ ok → exec .setkey s = .next { s with pres := BAD_INPUT, phase := .done })

/-- R182, R189: DISCARD and CLEANUP unbind if bound and zero every piece of key material; the device configuration stays. -/
def Obligations.SetkeyDiscardsOldKeyAndCleansUp : Prop :=
  ∀ s : State, ∃ d : Device, d = { s.dev with bindings := d.bindings } ∧ (s.ctx.bound = false → d = s.dev) ∧
    let zeroed := { s with
      ctx := ⟨false, false, 0, 0, 0, List.replicate 32 0, 0, 0, s.ctx.instSet, s.ctx.inst, s.ctx.ticksSet, s.ctx.ticks⟩
      trace := s.trace ++ (if s.ctx.bound then [Request.cipherUnbind s.ctx.boundInst] else [])
      dev := d }
    (s.phase = .discard → exec .setkey s = .next { zeroed with phase := .loadkey }) ∧
    (s.phase = .cleanup → exec .setkey s = .next { zeroed with L := 0, phase := .done })

/-- R183, R184: LOADKEY reads the key bytes once each in ascending order into the key store; BIND binds them on the effective
instance, whatever the device answers. -/
def Obligations.SetkeyLoadsAndBindsTheKey : Prop :=
  ∀ s : State,
    (s.phase = .loadkey → AdmitsReads s s.lat.keyAddr (keyLen s.lat) →
      exec .setkey s = .next
        { s with
          ctx := { s.ctx with
            key := readBuffer s s.lat.keyAddr (keyLen s.lat) ++ s.ctx.key.drop (keyLen s.lat)
            family := s.lat.family
            keyBits := s.lat.keyBits }
          trace := s.trace ++ (bufferAddrs s.lat.keyAddr (keyLen s.lat)).map .memRead
          phase := .bind }) ∧
    (s.phase = .bind → ∃ (a : Answer) (d : Device),
      (∀ x rest, s.dev.bindAnswers = x :: rest → a = x) ∧ d.locks = s.dev.locks ∧
      let sent := { s with
        dev := d
        trace := s.trace ++ [Request.cipherBind (effInst s.ctx) s.ctx.family s.ctx.keyBits (keyBytes s.ctx)] }
      exec .setkey s = .next (match a with
        | .ok => { sent with ctx := { s.ctx with bound := true, boundInst := effInst s.ctx }, phase := .lock }
        | .err c => { sent with pres := DEVICE_FAULT, pcode := c, phase := .cleanup }))

/-- R186, R187: ENC_L encrypts the zero block, whatever the device answers; SUBKEYS doubles it twice and makes the context
ready. -/
def Obligations.SetkeyDerivesTheSubkeys : Prop :=
  ∀ s : State,
    (s.phase = .encL → ∃ (a : Answer) (d : Device),
      (∀ x rest, s.dev.encryptAnswers = x :: rest → a = x) ∧ d.locks = s.dev.locks ∧ d.bindings = s.dev.bindings ∧
      let sent := { s with
        dev := d
        trace := s.trace ++ [Request.cipherEncrypt (effInst s.ctx) s.ctx.family s.ctx.keyBits (keyBytes s.ctx) 0] }
      exec .setkey s = .next (match a with
        | .ok => { sent with L := Config.encrypt s.ctx.family s.ctx.keyBits (keyBytes s.ctx) 0, phase := .subkeys }
        | .err c => { sent with pres := DEVICE_FAULT, pcode := c, phase := .release })) ∧
    (s.phase = .subkeys → exec .setkey s = .next
      { s with ctx := { s.ctx with k1 := dbl s.L, k2 := dbl (dbl s.L), ready := true }, L := 0, phase := .release })

/-! ### GENERATE_TAG and VERIFY_TAG (43_tag.md) -/

/-- R200, R201 with R66, R154: CHECK of the tag commands. -/
def Obligations.TagCheckAcceptsAndInitialises : Prop :=
  ∀ (s : State) (i : Instr), s.phase = .check → i = .generateTag ∨ i = .verifyTag →
    let nb := s.lat.dataLenBits.toNat / 8
    let tb := (s.lat.tagLenBits.toNat + 7) / 8
    let ok := s.ctx.ready = true ∧ s.lat.dataLenBits.toNat % 8 = 0 ∧ s.lat.tagLenBits.toNat < 128 ∧
      (nb = 0 ∨ s.lat.dataAddr.toNat + nb ≤ 2 ^ 32) ∧ (tb = 0 ∨ s.lat.tagAddr.toNat + tb ≤ 2 ^ 32)
    (ok → ∃ t, exec i s = .next t ∧ t.nb.toNat = nb ∧ t.n.toNat = max 1 ((nb + 15) / 16) ∧ t.n.toNat ≤ 2 ^ 25 ∧
      t.tb.toNat = tb ∧
      t = { s with nb := t.nb, n := t.n, i := 1, tb := t.tb, j := 0, st := 0, acc := 0, phase := .lock }) ∧
    (¬ ok → exec i s = .next { s with pres := BAD_INPUT, phase := .done })

/-- R203, R204: BLOCK before the last block and for the last, whatever the device answers. -/
def Obligations.BlockStepChainsOneBlock : Prop :=
  ∀ (s : State) (i : Instr), s.phase = .block → i = .generateTag ∨ i = .verifyTag →
    (s.i < s.n → AdmitsReads s (blockAddr s) 16 →
      let x := s.st ^^^ be128 (readBuffer s (blockAddr s) 16)
      ∃ (a : Answer) (d : Device), (∀ y rest, s.dev.encryptAnswers = y :: rest → a = y) ∧
        let sent := { s with
          dev := d
          trace := s.trace ++ (bufferAddrs (blockAddr s) 16).map Request.memRead ++
            [Request.cipherEncrypt (effInst s.ctx) s.ctx.family s.ctx.keyBits (keyBytes s.ctx) x] }
        exec i s = .next (match a with
          | .ok => { sent with st := Config.encrypt s.ctx.family s.ctx.keyBits (keyBytes s.ctx) x, i := s.i + 1 }
          | .err c => { sent with pres := DEVICE_FAULT, pcode := c, phase := .release })) ∧
    (s.i = s.n → AdmitsReads s (blockAddr s) (lastLen s) →
      let b := readBuffer s (blockAddr s) (s.nb.toNat - 16 * (s.n.toNat - 1))
      let x := s.st ^^^ (if 0 < s.nb.toNat ∧ s.nb.toNat % 16 = 0 then be128 b ^^^ s.ctx.k1
        else be128 (b ++ 0x80 :: List.replicate (15 - b.length) 0) ^^^ s.ctx.k2)
      ∃ (a : Answer) (d : Device), (∀ y rest, s.dev.encryptAnswers = y :: rest → a = y) ∧
        let sent := { s with
          dev := d
          trace := s.trace ++ (bufferAddrs (blockAddr s) (lastLen s)).map Request.memRead ++
            [Request.cipherEncrypt (effInst s.ctx) s.ctx.family s.ctx.keyBits (keyBytes s.ctx) x] }
        exec i s = .next (match a with
          | .ok => { sent with st := Config.encrypt s.ctx.family s.ctx.keyBits (keyBytes s.ctx) x, phase := .release }
          | .err c => { sent with pres := DEVICE_FAULT, pcode := c, phase := .release }))

/-- R207: OUT of GENERATE_TAG writes one masked tag byte, and after the last goes to DONE. -/
def Obligations.GenerateTagWritesOneByteAStep : Prop :=
  ∀ s : State, s.phase = .out → Memory.wf s.mem = true →
    (s.j < s.tb → admitsWrite s (tagByteAddr s) = true →
      ∃ t, exec .generateTag s = .next t ∧
        (∀ a, byteAt t a =
          if a = tagByteAddr s then byteOf s.st s.j.toNat &&& tagMask s.lat.tagLenBits.toNat s.j.toNat
          else byteAt s a) ∧
        t = { s with
          mem := t.mem, j := s.j + 1
          trace := s.trace ++ [.memWrite (tagByteAddr s) (tagByte s.st s.lat.tagLenBits.toNat s.j.toNat)] }) ∧
    (¬ s.j < s.tb → exec .generateTag s = .next { s with phase := .done })

/-- R208, R209: OUT of VERIFY_TAG reads and compares one byte, and after the last takes the verdict. -/
def Obligations.VerifyTagComparesOneByteAStep : Prop :=
  ∀ s : State, s.phase = .out →
    (s.j < s.tb → admitsRead s (tagByteAddr s) = true →
      exec .verifyTag s = .next
        { s with
          acc := s.acc ||| ((byteOf s.st s.j.toNat ^^^ byteAt s (tagByteAddr s)) &&&
            tagMask s.lat.tagLenBits.toNat s.j.toNat)
          j := s.j + 1
          trace := s.trace ++ [.memRead (tagByteAddr s)] }) ∧
    (¬ s.j < s.tb →
      exec .verifyTag s = .next { s with pres := if s.acc = 0 then SUCCESS else AUTH_FAILED, phase := .done })

/-! ### Frames -/

/-- R244, R245, R127: what a step of INIT, FREE or a setter leaves alone. -/
def Obligations.LifecycleCommandsLeaveTheRestAlone : Prop :=
  ∀ (s t : State) (i : Instr),
    i = .init ∨ i = .free ∨ i = .setDeviceInstance ∨ i = .setLockWaitTicks → exec i s = .next t →
    (∀ a, byteAt t a = byteAt s a) ∧
    (s.phase ≠ .done → t = { s with
      ctx := t.ctx, phase := t.phase, pres := t.pres, dev := { s.dev with bindings := t.dev.bindings },
      trace := t.trace }) ∧
    (s.phase = .done → t.ctx = s.ctx ∧ t.trace = s.trace ∧ t.regs = s.regs ∧ t.lat = s.lat ∧ t.ovr = s.ovr ∧
      t.lockHeld = s.lockHeld ∧ t.lockInst = s.lockInst ∧ t.dev = s.dev ∧ t.mem = s.mem) ∧
    (i = .setDeviceInstance →
      t.ctx = { s.ctx with inst := t.ctx.inst, instSet := t.ctx.instSet } ∧ t.dev = s.dev ∧ t.trace = s.trace) ∧
    (i = .setLockWaitTicks →
      t.ctx = { s.ctx with ticks := t.ctx.ticks, ticksSet := t.ctx.ticksSet } ∧ t.dev = s.dev ∧ t.trace = s.trace)

/-- R68, R127, R181 to R190: what a step of SETKEY leaves alone: memory, the device configuration, the operand registers,
the latch, OVR, and the working registers of the tag commands until DONE. -/
def Obligations.SetkeyLeavesTheRestAlone : Prop :=
  ∀ s t : State, exec .setkey s = .next t →
    (∀ a, byteAt t a = byteAt s a) ∧
    t.ctx.instSet = s.ctx.instSet ∧ t.ctx.inst = s.ctx.inst ∧ t.ctx.ticksSet = s.ctx.ticksSet ∧
    t.ctx.ticks = s.ctx.ticks ∧
    (s.phase ≠ .done → t = { s with
      ctx := t.ctx, phase := t.phase, pres := t.pres, pcode := t.pcode, L := t.L, lockHeld := t.lockHeld,
      lockInst := t.lockInst, dev := t.dev, trace := t.trace }) ∧
    (s.phase = .done → t.ctx = s.ctx ∧ t.trace = s.trace ∧ t.regs = s.regs ∧ t.lat = s.lat ∧ t.ovr = s.ovr ∧
      t.lockHeld = s.lockHeld ∧ t.lockInst = s.lockInst ∧ t.dev = s.dev ∧ t.mem = s.mem)

/-- R211, R73: GENERATE_TAG and VERIFY_TAG write no field of the context; VERIFY_TAG writes no byte of memory, and
GENERATE_TAG none but the tag byte of its OUT step. -/
def Obligations.TagCommandsLeaveTheContextAlone : Prop :=
  ∀ (s t : State) (i : Instr), i = .generateTag ∨ i = .verifyTag → Memory.wf s.mem = true → exec i s = .next t →
    t.ctx = s.ctx ∧ t.regs = s.regs ∧ t.lat = s.lat ∧ t.ovr = s.ovr ∧
    (∀ a, ¬ (i = .generateTag ∧ s.phase = .out ∧ s.j < s.tb ∧ a = tagByteAddr s) → byteAt t a = byteAt s a) ∧
    (i = .verifyTag → t.mem = s.mem) ∧
    (s.phase ≠ .done → t = { s with
      phase := t.phase, pres := t.pres, pcode := t.pcode, n := t.n, i := t.i, nb := t.nb, tb := t.tb, j := t.j,
      st := t.st, acc := t.acc, lockHeld := t.lockHeld, lockInst := t.lockInst, mem := t.mem, dev := t.dev,
      trace := t.trace }) ∧
    (s.phase = .done → t.st = 0 ∧ t.trace = s.trace ∧ t.mem = s.mem ∧ t.dev = s.dev ∧ t.lockHeld = s.lockHeld ∧
      t.lockInst = s.lockInst)

/-- R74: the only step of the engine that writes memory is an OUT step of GENERATE_TAG, and it writes its tag byte. -/
def Obligations.OnlyTagBytesAreWrittenToMemory : Prop :=
  ∀ s t : State, engineTurn s = .next t →
    let v := tagByte s.st s.lat.tagLenBits.toNat s.j.toNat
    let tagStep := decode s.lat.cmd = some .generateTag ∧ s.phase = .out ∧ s.j < s.tb
    (t.mem ≠ s.mem →
      tagStep ∧ t.mem = Memory.store s.mem (tagByteAddr s).toNat v ∧
        t.trace = s.trace ++ [.memWrite (tagByteAddr s) v]) ∧
    ∃ new, t.trace = s.trace ++ new ∧ ∀ a x, Request.memWrite a x ∈ new → tagStep ∧ a = tagByteAddr s ∧ x = v

/-! ### Whole commands, from acceptance to idle -/

/-- R246, R248, R249: INIT and FREE from acceptance: three engine steps, the context zeroed, one CipherUnbind if bound; a
second one issues no request and changes nothing more. -/
def Obligations.InitAndFreeRunToTheZeroedContext : Prop :=
  ∀ (s : State) (i : Instr), Inv s → s.phase = .idle → i = .init ∨ i = .free →
    ∃ t, engineTurns 3 (accept s (encode i)) = .next t ∧
      t = { s with
        lat := (accept s (encode i)).lat, ctx := Context.zero, busy := false, ovr := false, result := SUCCESS,
        devError := 0, pres := SUCCESS, pcode := 0, dev := t.dev
        trace := s.trace ++ (if s.ctx.bound then [Request.cipherUnbind s.ctx.boundInst] else []) } ∧
      statusWord t = 0 ∧
      (s.ctx.bound = false → t.dev = s.dev) ∧
      ∀ i', i' = .init ∨ i' = .free → engineTurns 3 (accept t (encode i')) = .next { t with
        lat := (accept t (encode i')).lat }

/-- R241, R242, R249: the setters from acceptance: three engine steps when the value is accepted, two when not; only the
named pair of the context changes. -/
def Obligations.SettersRunToTheirPair : Prop :=
  ∀ s : State, Inv s → s.phase = .idle →
    let ended (i : Instr) (r : BitVec 4) (c : Context) : State := { s with
      lat := (accept s (encode i)).lat, ctx := c, busy := false, ovr := false, result := r, devError := 0, pres := r,
      pcode := 0 }
    let instOk := Config.deviceInstanceValid s.regs.devInstanceArg
    let ticksOk := Config.lockWaitValid s.regs.lockTicksArg
    engineTurns (if instOk then 3 else 2) (accept s (encode .setDeviceInstance)) = .next
      (if instOk then
        ended .setDeviceInstance SUCCESS { s.ctx with inst := s.regs.devInstanceArg, instSet := true }
      else ended .setDeviceInstance BAD_INPUT s.ctx) ∧
    engineTurns (if ticksOk then 3 else 2) (accept s (encode .setLockWaitTicks)) = .next
      (if ticksOk then
        ended .setLockWaitTicks SUCCESS { s.ctx with ticks := s.regs.lockTicksArg, ticksSet := true }
      else ended .setLockWaitTicks BAD_INPUT s.ctx)

/-- R180, R193, R136, R153: SETKEY when nothing fails: nine engine steps, these requests in this order, the key stored and
the subkeys derived from it. -/
def Obligations.SetkeyRunDerivesSubkeys : Prop :=
  ∀ (s : State) (bs es : List Answer) (as : List AcquireAnswer), Inv s → s.phase = .idle →
    setkeyCheck (accept s (encode .setkey)).lat = true →
    AdmitsReads s s.regs.keyAddr (s.regs.keyBits.toNat / 8) →
    s.dev.bindAnswers = .ok :: bs → s.dev.acquireAnswers = .granted :: as → s.dev.encryptAnswers = .ok :: es →
    effInst s.ctx ∉ s.dev.otherLocks →
    let len := s.regs.keyBits.toNat / 8
    let key := readBuffer s s.regs.keyAddr len
    let inst := effInst s.ctx
    let subkeys := (deriveSubkeys Config.encrypt s.regs.cipherFamily s.regs.keyBits key).2
    engineTurns 9 (accept s (encode .setkey)) = .next
      { s with
        lat := (accept s (encode .setkey)).lat
        ctx := { s.ctx with
          ready := true
          bound := true
          boundInst := inst
          family := s.regs.cipherFamily
          keyBits := s.regs.keyBits
          key := key ++ List.replicate (32 - len) 0
          k1 := subkeys.1
          k2 := subkeys.2 }
        busy := false
        ovr := false
        result := SUCCESS
        devError := 0
        pres := SUCCESS
        pcode := 0
        dev := { s.dev with
          bindAnswers := bs
          acquireAnswers := as
          encryptAnswers := es
          locks := s.dev.locks.filter fun x => x != inst
          bindings := inst :: if s.ctx.bound then s.dev.bindings.erase s.ctx.boundInst else s.dev.bindings }
        trace := s.trace ++ (if s.ctx.bound then [Request.cipherUnbind s.ctx.boundInst] else []) ++
          (bufferAddrs s.regs.keyAddr len).map .memRead ++
          [.cipherBind inst s.regs.cipherFamily s.regs.keyBits key, .cipherAcquire inst (effTicks s.ctx),
            .cipherEncrypt inst s.regs.cipherFamily s.regs.keyBits key 0, .cipherRelease inst] }

/-- R190, R331: how SETKEY ends on a failure: the result, DEV_ERROR, the number of engine steps, and a context that
is unchanged after a failed check and zeroed and unbound after any other failure. -/
def Obligations.SetkeyEndsOnAFailureAsTheTableSays : Prop :=
  ∀ s : State, Inv s → s.phase = .idle →
    let s0 := accept s (encode .setkey)
    let len := s.regs.keyBits.toNat / 8
    let inst := effInst s.ctx
    let key := readBuffer s s.regs.keyAddr len
    let old : List Request := if s.ctx.bound then [.cipherUnbind s.ctx.boundInst] else []
    let loaded := s.trace ++ old ++ (bufferAddrs s.regs.keyAddr len).map .memRead ++
      [.cipherBind inst s.regs.cipherFamily s.regs.keyBits key]
    let ends (k : Nat) (r : BitVec 4) (c : Word) (ctx : Context) (trace : List Request) : Prop :=
      ∃ t, engineTurns k s0 = .next t ∧ t.phase = .idle ∧ t.result = r ∧ t.devError = c ∧ t.ctx = ctx ∧
        t.trace = trace ∧ t.mem = s.mem ∧ t.regs = s.regs ∧ t.lockHeld = false
    (setkeyCheck s0.lat = false → ends 2 BAD_INPUT 0 s.ctx s.trace) ∧
    (setkeyCheck s0.lat = true → AdmitsReads s s.regs.keyAddr len →
      (∀ c bs, s.dev.bindAnswers = .err c :: bs → ends 6 DEVICE_FAULT c s.ctx.zeroKeyMaterial loaded) ∧
      (∀ bs, s.dev.bindAnswers = .ok :: bs →
        (∀ as, s.dev.acquireAnswers = .timeout :: as →
          ends 7 DEVICE_TIMEOUT 0 s.ctx.zeroKeyMaterial
            (loaded ++ [.cipherAcquire inst (effTicks s.ctx), .cipherUnbind inst])) ∧
        (∀ c as, s.dev.acquireAnswers = .err c :: as →
          ends 7 DEVICE_FAULT c s.ctx.zeroKeyMaterial
            (loaded ++ [.cipherAcquire inst (effTicks s.ctx), .cipherUnbind inst])) ∧
        (∀ c as es, s.dev.acquireAnswers = .granted :: as → inst ∉ s.dev.otherLocks →
          s.dev.encryptAnswers = .err c :: es →
          ends 9 DEVICE_FAULT c s.ctx.zeroKeyMaterial
            (loaded ++ [.cipherAcquire inst (effTicks s.ctx),
              .cipherEncrypt inst s.regs.cipherFamily s.regs.keyBits key 0, .cipherRelease inst,
              .cipherUnbind inst]))))

/-- R213, R215, R68, R136: GENERATE_TAG when nothing fails: `n + tb + 5` engine steps, the tag bytes of the CMAC of the
message in memory and no other byte changed, these requests in this order, the context as it was. -/
def Obligations.GenerateTagWritesTheCmac : Prop :=
  ∀ (s : State) (as : List AcquireAnswer) (es : List Answer), Inv s → s.phase = .idle →
    let s0 := accept s (encode .generateTag)
    let t := s.regs.tagLenBits.toNat
    tagCheck s0 = true →
    AdmitsReads s s.regs.dataAddr (dataLen s0.lat) → AdmitsWrites s s.regs.tagAddr (tagLen s0.lat) →
    s.dev.acquireAnswers = .granted :: as → effInst s.ctx ∉ s.dev.otherLocks →
    s.dev.encryptAnswers = List.replicate (blockCount s0) .ok ++ es →
    ∃ u, engineTurns (blockCount s0 + tagLen s0.lat + 5) s0 = .next u ∧
      u = { s with
        lat := s0.lat
        busy := false
        ovr := false
        result := SUCCESS
        devError := 0
        pres := SUCCESS
        pcode := 0
        mem := storeFrom s.regs.tagAddr 0 (tagOf (messageMac s0) t) s.mem
        dev := s.dev.afterChain (effInst s.ctx) (blockCount s0)
        trace := s.trace ++ chainRequests s0 (blockCount s0) ++ [Request.cipherRelease (effInst s.ctx)] ++ tagWrites s0 } ∧
      (∀ j < tagLen s0.lat, byteAt u (byteAddr s.regs.tagAddr j) = tagByte (messageMac s0) t j) ∧
      ∀ a, (∀ j < tagLen s0.lat, a ≠ byteAddr s.regs.tagAddr j) → byteAt u a = byteAt s a

/-- R213, R215, R68, R136: VERIFY_TAG when no request fails: `n + tb + 5` engine steps, SUCCESS exactly when the supplied
bytes carry the tag of the CMAC of the message, AUTH_FAILED otherwise; memory and context as they were. -/
def Obligations.VerifyTagAcceptsExactlyTheCmac : Prop :=
  ∀ (s : State) (as : List AcquireAnswer) (es : List Answer), Inv s → s.phase = .idle →
    let s0 := accept s (encode .verifyTag)
    let t := s.regs.tagLenBits.toNat
    tagCheck s0 = true →
    AdmitsReads s s.regs.dataAddr (dataLen s0.lat) → AdmitsReads s s.regs.tagAddr (tagLen s0.lat) →
    s.dev.acquireAnswers = .granted :: as → effInst s.ctx ∉ s.dev.otherLocks →
    s.dev.encryptAnswers = List.replicate (blockCount s0) .ok ++ es →
    ∃ r, engineTurns (blockCount s0 + tagLen s0.lat + 5) s0 = .next
        { s with
          lat := s0.lat
          busy := false
          ovr := false
          result := r
          devError := 0
          pres := r
          pcode := 0
          dev := s.dev.afterChain (effInst s.ctx) (blockCount s0)
          trace := s.trace ++ chainRequests s0 (blockCount s0) ++ [Request.cipherRelease (effInst s.ctx)] ++ tagReads s0 } ∧
      (r = SUCCESS ∨ r = AUTH_FAILED) ∧
      (r = SUCCESS ↔ ∀ j < tagLen s0.lat,
        byteAt s (byteAddr s.regs.tagAddr j) &&& tagMask t j = tagByte (messageMac s0) t j)

/-- R212, R331: how the tag commands end when a request fails: the result, DEV_ERROR, the number of engine steps, the
requests issued; no tag byte written or read, the context as it was. -/
def Obligations.TagCommandFailuresWriteNothing : Prop :=
  ∀ (s : State) (i : Instr), Inv s → s.phase = .idle → i = .generateTag ∨ i = .verifyTag →
    let s0 := accept s (encode i)
    let ends (k : Nat) (r : BitVec 4) (c : Word) (trace : List Request) : Prop :=
      ∃ u, engineTurns k s0 = .next u ∧ u = { s with
        lat := s0.lat, busy := false, ovr := false, result := r, devError := c, pres := r, pcode := c, dev := u.dev,
        trace := trace }
    (tagCheck s0 = false → ends 2 BAD_INPUT 0 s.trace) ∧
    (tagCheck s0 = true →
      (∀ as, s.dev.acquireAnswers = .timeout :: as →
        ends 3 DEVICE_TIMEOUT 0 (s.trace ++ [.cipherAcquire (effInst s.ctx) (effTicks s.ctx)])) ∧
      (∀ c as, s.dev.acquireAnswers = .err c :: as →
        ends 3 DEVICE_FAULT c (s.trace ++ [.cipherAcquire (effInst s.ctx) (effTicks s.ctx)])) ∧
      (∀ c k as es, s.dev.acquireAnswers = .granted :: as → effInst s.ctx ∉ s.dev.otherLocks →
        AdmitsReads s s.regs.dataAddr (dataLen s0.lat) → 1 ≤ k → k ≤ blockCount s0 →
        s.dev.encryptAnswers = List.replicate (k - 1) .ok ++ .err c :: es →
        ends (k + 4) DEVICE_FAULT c (s.trace ++ chainRequests s0 k ++ [.cipherRelease (effInst s.ctx)])))

/-- R214: two runs of VERIFY_TAG from the same state but for memory bytes outside the message, with the same answers of the
device and no host step between, go through the same phases and issue the same requests; they differ at most in the
accumulator and the result. -/
def Obligations.VerifyTagIsConstantTime : Prop :=
  ∀ (s : State) (m : List Host.Cell) (k : Nat),
    let s1 := accept s (encode .verifyTag)
    let s2 := accept { s with mem := m } (encode .verifyTag)
    message s1 = message s2 →
    ∃ t1 t2, engineTurns k s1 = .next t1 ∧ engineTurns k s2 = .next t2 ∧ t1.phase = t2.phase ∧ t1.trace = t2.trace ∧
      t2 = { t1 with mem := m, acc := t2.acc, pres := t2.pres, result := t2.result }

/-- R216: a GENERATE_TAG and then a VERIFY_TAG with the same operands, on a message the tag does not overwrite, end with
SUCCESS when no request fails. -/
def Obligations.GeneratedTagVerifies : Prop :=
  ∀ (s : State) (as : List AcquireAnswer) (es : List Answer), Inv s → s.phase = .idle →
    let s0 := accept s (encode .generateTag)
    let steps := blockCount s0 + tagLen s0.lat + 5
    tagCheck s0 = true →
    AdmitsReads s s.regs.dataAddr (dataLen s0.lat) → AdmitsWrites s s.regs.tagAddr (tagLen s0.lat) →
    AdmitsReads s s.regs.tagAddr (tagLen s0.lat) →
    (∀ m < dataLen s0.lat, ∀ j < tagLen s0.lat, byteAddr s.regs.dataAddr m ≠ byteAddr s.regs.tagAddr j) →
    s.dev.acquireAnswers = .granted :: .granted :: as → effInst s.ctx ∉ s.dev.otherLocks →
    s.dev.encryptAnswers = List.replicate (blockCount s0 + blockCount s0) .ok ++ es →
    ∃ t u, engineTurns steps s0 = .next t ∧ t.result = SUCCESS ∧ t.phase = .idle ∧
      engineTurns steps (accept t (encode .verifyTag)) = .next u ∧ u.result = SUCCESS ∧ u.phase = .idle

/-- R217, first sentence: flipping one supplied-tag bit below `t` turns SUCCESS into AUTH_FAILED, for every E. -/
def Obligations.FlippedTagBitFailsVerification : Prop :=
  ∀ (s : State) (k : Nat) (as : List AcquireAnswer) (es : List Answer) (u : State), Inv s → s.phase = .idle →
    let s0 := accept s (encode .verifyTag)
    let steps := blockCount s0 + tagLen s0.lat + 5
    let a := byteAddr s.regs.tagAddr (k / 8)
    let flipped := accept (s.storeByte a (byteAt s a ^^^ (0x80 : Byte) >>> (k % 8))) (encode .verifyTag)
    tagCheck s0 = true → k < s.regs.tagLenBits.toNat →
    AdmitsReads s s.regs.dataAddr (dataLen s0.lat) → AdmitsReads s s.regs.tagAddr (tagLen s0.lat) →
    (∀ m < dataLen s0.lat, byteAddr s.regs.dataAddr m ≠ a) →
    s.dev.acquireAnswers = .granted :: as → effInst s.ctx ∉ s.dev.otherLocks →
    s.dev.encryptAnswers = List.replicate (blockCount s0) .ok ++ es →
    engineTurns steps s0 = .next u → u.result = SUCCESS →
    ∃ v, engineTurns steps flipped = .next v ∧ v.result = AUTH_FAILED ∧ v.phase = .idle

/-- R192: two SETKEY commands that succeed with the same family, key length and key bytes leave the same subkeys, whatever
the states they start from and whatever the device's answers on the way. -/
def Obligations.SetkeyIsDeterministic : Prop :=
  ∀ s1 s2 t1 t2 : State, Inv s1 → Inv s2 → s1.phase = .idle → s2.phase = .idle →
    s1.regs.cipherFamily = s2.regs.cipherFamily → s1.regs.keyBits = s2.regs.keyBits →
    readBuffer s1 s1.regs.keyAddr (s1.regs.keyBits.toNat / 8) =
      readBuffer s2 s2.regs.keyAddr (s2.regs.keyBits.toNat / 8) →
    engineTurns 9 (accept s1 (encode .setkey)) = .next t1 → t1.phase = .idle → t1.result = SUCCESS →
    engineTurns 9 (accept s2 (encode .setkey)) = .next t2 → t2.phase = .idle → t2.result = SUCCESS →
    t1.ctx.k1 = t2.ctx.k1 ∧ t1.ctx.k2 = t2.ctx.k2

/-! ### Invariants of the whole machine -/

/-- The reset state is a legal state (R23, R26, R38 to R52, R55, R56). Its part about memory and the device (canonical form,
one owner of a lock) rests on the model's choices: the empty memory (log 4) and a device that holds nothing (log 11,
log 18). -/
def Obligations.ResetStateIsLegal : Prop := Inv State.reset

/-- Every step, of whatever agent, keeps the invariant: busy and phase agree (R23), the phase is on the command's path (R125),
the lock is held exactly in the phases between LOCK and RELEASE (R51), results stay hidden while busy (R26, R27), a context
that is not ready holds no subkeys (R55), a ready one holds the subkeys of its key (R42, R153), the working registers are
zero outside their command (R48 to R50), memory stays canonical (log 4), a lock has one owner (R291,
log 11). -/
def Obligations.EveryStepKeepsTheStateLegal : Prop := ∀ s t : State, Inv s → step s = .next t → Inv t

/-- R55, R23: what holds whenever the engine is idle. -/
def Obligations.IdleContextIsKeyedOrCleared : Prop :=
  ∀ s : State, Inv s → s.phase = .idle →
    (s.ctx.ready = true → s.ctx.bound = true ∧ s.ctx.family ∈ Config.families ∧
      s.ctx.keyBits ∈ Config.keySizes s.ctx.family) ∧
    (s.ctx.ready = false → s.ctx.k1 = 0 ∧ s.ctx.k2 = 0 ∧ s.ctx.bound = false ∧ s.ctx.key = List.replicate 32 0 ∧
      s.ctx.keyBits = 0 ∧ s.ctx.family = 0) ∧
    (s.st = 0 ∧ s.L = 0 ∧ s.acc = 0 ∧ s.lockHeld = false ∧ s.busy = false)

/-- R26, R27, R270, R272 to R274: codes 5 to 15 are never written, RESULT and DEV_ERROR read 0 while busy, DEV_ERROR is 0
unless the result is DEVICE_FAULT, AUTH_FAILED comes only from VERIFY_TAG and device failures only from the commands that
use the device. -/
def Obligations.ResultsAreLegalAndComeFromTheirCommands : Prop :=
  ∀ s : State, Inv s →
    s.result.toNat ≤ 4 ∧ (s.busy = true → s.result = 0 ∧ s.devError = 0) ∧
    (s.result ≠ DEVICE_FAULT → s.devError = 0) ∧
    (s.result = AUTH_FAILED → decode s.lat.cmd = some .verifyTag) ∧
    (s.result = DEVICE_TIMEOUT ∨ s.result = DEVICE_FAULT →
      decode s.lat.cmd = some .setkey ∨ decode s.lat.cmd = some .generateTag ∨ decode s.lat.cmd = some .verifyTag)

/-- R70, R122, R280: from a legal state a step is a next state, but for one refusal: the next turn is a host access to the
window that has no meaning. That an engine turn while idle, or one whose memory request is refused, is a step that changes
nothing is the model's form of an engine that has no step (log 2, log 8). Two things about host byte accesses are the
model's choice as well: one at a bus address of the window is refused, window and host memory lying in one 32-bit address
space (log 13, log 19), and every other one goes through (log 16). -/
def Obligations.LegalStatesStepUnlessTheAccessIsUndefined : Prop :=
  ∀ s : State, Inv s →
    ((∃ op rest, s.sched = .host op :: rest ∧ UndefinedAccess op) → step s = .refused .undefinedAccess) ∧
    ((∀ op rest, s.sched = .host op :: rest → ¬ UndefinedAccess op) → ∃ t, step s = .next t)

/-- R122, R292, R330: a command in flight whose own memory requests are admitted, those of its key, message and tag buffers,
reaches idle, whatever the device answers, within a number of engine steps that its lengths bound. -/
def Obligations.EveryCommandCompletes : Prop :=
  ∀ s : State, Inv s → RequestsAdmitted s →
    ∃ k ≤ blockCount s + tagLen s.lat + 9, ∃ t, engineTurns k s = .next t ∧ t.phase = .idle ∧ t.busy = false
end

