-- ==== Sys2Proof/Laws/Legal.lean ====
section
/-! SUPPORT. What the legal states do not depend on. -/

namespace Sys2Proof.Machine

/-- The schedule, the memory map and the last value read are no part of what makes a state legal. -/
theorem Inv.around {s : State} (h : Inv s) (r : List Region) (l : List Turn) (w : Word) :
    Inv { s with refuses := r, sched := l, readData := w } where
  control := by cases h.control; constructor <;> assumption
  context := by cases h.context; constructor <;> assumption
  tag :=
    { scratch := fun hs =>
        have z := h.tag.scratch hs
        ⟨z.n, z.i, z.nb, z.tb, z.j, z.st, z.acc⟩
      checked := h.tag.checked
      before_out := h.tag.before_out
      compared_only := h.tag.compared_only }
  outside := by cases h.outside; constructor <;> assumption

end Sys2Proof.Machine
end

