-- ==== Sys2Proof/Laws/Memory.lean ====
section
/-! SUPPORT. Memory: every store keeps the canonical form, and a load after a store gives the stored byte at that address
and the old byte everywhere else. -/

namespace Sys2Proof.Machine

theorem Memory.above_mono {lo lo' : Nat} (h : lo ≤ lo') {m : List Host.Cell} (hm : Memory.above lo' m = true) :
    Memory.above lo m = true := by
  cases m with
  | nil => rfl
  | cons c m =>
    simp only [Memory.above, Bool.and_eq_true, decide_eq_true_eq] at *
    exact ⟨by omega, hm.2⟩

/-- Every cell of a canonical memory lies below 2^32 and holds something an unlisted address does not. -/
theorem Memory.wf_cell {m : List Host.Cell} (h : Memory.wf m = true) :
    ∀ c ∈ m, c.1 < 2 ^ 32 ∧ c.2 ≠ Memory.unlisted := by
  cases m with
  | nil => simp
  | cons c m =>
    intro d hd
    have := List.all_eq_true.mp (Bool.and_eq_true _ _ ▸ h : _ ∧ _).2 d hd
    simpa using this

theorem Memory.wf_tail {c : Host.Cell} {m : List Host.Cell} (h : Memory.wf (c :: m) = true) :
    Memory.wf m = true := by
  cases m with
  | nil => rfl
  | cons d m =>
    simp only [Memory.wf, Memory.above, Bool.and_eq_true, List.all_cons] at *
    exact ⟨h.1.2, h.2.2⟩

theorem Memory.wf_above {c : Host.Cell} {m : List Host.Cell} (h : Memory.wf (c :: m) = true) :
    Memory.above c.1 m = true := by
  simp only [Memory.wf, Bool.and_eq_true] at h
  exact h.1

/-- A canonical memory with a cell put in front, below all it holds. -/
theorem Memory.wf_cons {c : Host.Cell} {m : List Host.Cell} (hm : Memory.wf m = true)
    (ha : Memory.above c.1 m = true) (hc : c.1 < 2 ^ 32) (hv : c.2 ≠ Memory.unlisted) :
    Memory.wf (c :: m) = true := by
  simp only [Memory.wf, Bool.and_eq_true, List.all_eq_true, List.mem_cons, ha, true_and]
  rintro d (rfl | hd)
  · simpa using ⟨hc, hv⟩
  · simpa using Memory.wf_cell hm d hd

theorem Memory.above_store {lo a : Nat} {v : Byte} (ha : lo < a) :
    ∀ {m : List Host.Cell}, Memory.above lo m = true → Memory.above lo (Memory.store m a v) = true
  | [], _ => by
    simp only [Memory.store, Memory.put]
    split <;> simp [Memory.above, ha]
  | c :: m, h => by
    simp only [Memory.above, Bool.and_eq_true, decide_eq_true_eq] at h
    have hlow : Memory.above lo m = true := Memory.above_mono (by omega) h.2
    simp only [Memory.store, Memory.put]
    split
    · split
      · simp [Memory.above, h.1, h.2]
      · simp [Memory.above, h.2, ha, ‹a < c.1›]
    · split
      · split
        · exact hlow
        · rename_i e _
          simpa [Memory.above, ha] using e ▸ h.2
      · simp only [Memory.above, Bool.and_eq_true, decide_eq_true_eq]
        exact ⟨h.1, Memory.above_store (by omega) h.2⟩

/-- A store keeps the canonical form. -/
theorem Memory.store_wf {a : Nat} {v : Byte} (ha : a < 2 ^ 32) :
    ∀ {m : List Host.Cell}, Memory.wf m = true → Memory.wf (Memory.store m a v) = true
  | [], _ => by
    simp only [Memory.store, Memory.put]
    split
    · rfl
    · exact Memory.wf_cons rfl rfl ha ‹_›
  | c :: m, h => by
    have ht := Memory.wf_tail h
    have hc := Memory.wf_cell h c (by simp)
    have hab := Memory.wf_above h
    simp only [Memory.store, Memory.put]
    split
    · split
      · exact h
      · refine Memory.wf_cons h ?_ ha ‹_›
        simp [Memory.above, hab, ‹a < c.1›]
    · split
      · split
        · exact ht
        · rename_i e _
          exact Memory.wf_cons ht (by simpa [e] using hab) ha ‹_›
      · exact Memory.wf_cons (Memory.store_wf ha ht) (Memory.above_store (by omega) hab) hc.1 hc.2

theorem Memory.load_of_above {a : Nat} :
    ∀ {m : List Host.Cell}, Memory.above a m = true → Memory.load m a = Memory.unlisted
  | [], _ => rfl
  | c :: m, h => by
    simp only [Memory.above, Bool.and_eq_true, decide_eq_true_eq] at h
    have : a ≠ c.1 := by omega
    simp only [Memory.load, this, if_false]
    exact Memory.load_of_above (Memory.above_mono (by omega) h.2)

/-- A load after a store. -/
theorem Memory.load_store {a b : Nat} {v : Byte} :
    ∀ {m : List Host.Cell}, Memory.wf m = true →
      Memory.load (Memory.store m a v) b = if b = a then v else Memory.load m b
  | [], _ => by
    by_cases hv : v = Memory.unlisted <;> by_cases hb : b = a <;> simp [Memory.store, Memory.put, Memory.load, hv, hb]
  | c :: m, h => by
    have hab := Memory.wf_above h
    simp only [Memory.store, Memory.put]
    split
    · rename_i hlt
      have habove : Memory.above a (c :: m) = true := by simp [Memory.above, hab, hlt]
      split
      · rename_i hv
        split
        · rename_i e
          rw [e, hv]; exact Memory.load_of_above habove
        · rfl
      · rfl
    · split
      · rename_i e
        split
        · rename_i hv
          by_cases hb : b = a
          · simp only [hb, if_true, hv, e]
            exact Memory.load_of_above hab
          · simp [hb, Memory.load, e ▸ hb]
        · by_cases hb : b = a
          · simp [hb, Memory.load]
          · simp [hb, Memory.load, e ▸ hb]
      · rename_i hne
        by_cases hb : b = c.1
        · have : ¬ (c.1 = a) := fun e => hne e.symm
          simp [hb, Memory.load, this]
        · simp only [Memory.load, hb, if_false]
          exact Memory.load_store (Memory.wf_tail h)

end Sys2Proof.Machine
end

