-- ==== Sys2Proof/Laws/State.lean ====
section
/-! SUPPORT. What each shared update of State leaves in each field, so that no proof unfolds an update. -/

namespace Sys2Proof.Machine

@[simp] theorem State.goto_regs (s : State) (p : Phase) : (s.goto p).regs = s.regs := rfl
@[simp] theorem State.goto_busy (s : State) (p : Phase) : (s.goto p).busy = s.busy := rfl
@[simp] theorem State.goto_ovr (s : State) (p : Phase) : (s.goto p).ovr = s.ovr := rfl
@[simp] theorem State.goto_result (s : State) (p : Phase) : (s.goto p).result = s.result := rfl
@[simp] theorem State.goto_devError (s : State) (p : Phase) : (s.goto p).devError = s.devError := rfl
@[simp] theorem State.goto_ctx (s : State) (p : Phase) : (s.goto p).ctx = s.ctx := rfl
@[simp] theorem State.goto_phase (s : State) (p : Phase) : (s.goto p).phase = p := rfl
@[simp] theorem State.goto_lat (s : State) (p : Phase) : (s.goto p).lat = s.lat := rfl
@[simp] theorem State.goto_n (s : State) (p : Phase) : (s.goto p).n = s.n := rfl
@[simp] theorem State.goto_i (s : State) (p : Phase) : (s.goto p).i = s.i := rfl
@[simp] theorem State.goto_nb (s : State) (p : Phase) : (s.goto p).nb = s.nb := rfl
@[simp] theorem State.goto_tb (s : State) (p : Phase) : (s.goto p).tb = s.tb := rfl
@[simp] theorem State.goto_j (s : State) (p : Phase) : (s.goto p).j = s.j := rfl
@[simp] theorem State.goto_st (s : State) (p : Phase) : (s.goto p).st = s.st := rfl
@[simp] theorem State.goto_acc (s : State) (p : Phase) : (s.goto p).acc = s.acc := rfl
@[simp] theorem State.goto_L (s : State) (p : Phase) : (s.goto p).L = s.L := rfl
@[simp] theorem State.goto_lockHeld (s : State) (p : Phase) : (s.goto p).lockHeld = s.lockHeld := rfl
@[simp] theorem State.goto_lockInst (s : State) (p : Phase) : (s.goto p).lockInst = s.lockInst := rfl
@[simp] theorem State.goto_pres (s : State) (p : Phase) : (s.goto p).pres = s.pres := rfl
@[simp] theorem State.goto_pcode (s : State) (p : Phase) : (s.goto p).pcode = s.pcode := rfl
@[simp] theorem State.goto_mem (s : State) (p : Phase) : (s.goto p).mem = s.mem := rfl
@[simp] theorem State.goto_refuses (s : State) (p : Phase) : (s.goto p).refuses = s.refuses := rfl
@[simp] theorem State.goto_dev (s : State) (p : Phase) : (s.goto p).dev = s.dev := rfl
@[simp] theorem State.goto_sched (s : State) (p : Phase) : (s.goto p).sched = s.sched := rfl
@[simp] theorem State.goto_readData (s : State) (p : Phase) : (s.goto p).readData = s.readData := rfl
@[simp] theorem State.goto_trace (s : State) (p : Phase) : (s.goto p).trace = s.trace := rfl

@[simp] theorem State.emit_regs (s : State) (rs : List Request) : (s.emit rs).regs = s.regs := rfl
@[simp] theorem State.emit_busy (s : State) (rs : List Request) : (s.emit rs).busy = s.busy := rfl
@[simp] theorem State.emit_ovr (s : State) (rs : List Request) : (s.emit rs).ovr = s.ovr := rfl
@[simp] theorem State.emit_result (s : State) (rs : List Request) : (s.emit rs).result = s.result := rfl
@[simp] theorem State.emit_devError (s : State) (rs : List Request) : (s.emit rs).devError = s.devError := rfl
@[simp] theorem State.emit_ctx (s : State) (rs : List Request) : (s.emit rs).ctx = s.ctx := rfl
@[simp] theorem State.emit_phase (s : State) (rs : List Request) : (s.emit rs).phase = s.phase := rfl
@[simp] theorem State.emit_lat (s : State) (rs : List Request) : (s.emit rs).lat = s.lat := rfl
@[simp] theorem State.emit_n (s : State) (rs : List Request) : (s.emit rs).n = s.n := rfl
@[simp] theorem State.emit_i (s : State) (rs : List Request) : (s.emit rs).i = s.i := rfl
@[simp] theorem State.emit_nb (s : State) (rs : List Request) : (s.emit rs).nb = s.nb := rfl
@[simp] theorem State.emit_tb (s : State) (rs : List Request) : (s.emit rs).tb = s.tb := rfl
@[simp] theorem State.emit_j (s : State) (rs : List Request) : (s.emit rs).j = s.j := rfl
@[simp] theorem State.emit_st (s : State) (rs : List Request) : (s.emit rs).st = s.st := rfl
@[simp] theorem State.emit_acc (s : State) (rs : List Request) : (s.emit rs).acc = s.acc := rfl
@[simp] theorem State.emit_L (s : State) (rs : List Request) : (s.emit rs).L = s.L := rfl
@[simp] theorem State.emit_lockHeld (s : State) (rs : List Request) : (s.emit rs).lockHeld = s.lockHeld := rfl
@[simp] theorem State.emit_lockInst (s : State) (rs : List Request) : (s.emit rs).lockInst = s.lockInst := rfl
@[simp] theorem State.emit_pres (s : State) (rs : List Request) : (s.emit rs).pres = s.pres := rfl
@[simp] theorem State.emit_pcode (s : State) (rs : List Request) : (s.emit rs).pcode = s.pcode := rfl
@[simp] theorem State.emit_mem (s : State) (rs : List Request) : (s.emit rs).mem = s.mem := rfl
@[simp] theorem State.emit_refuses (s : State) (rs : List Request) : (s.emit rs).refuses = s.refuses := rfl
@[simp] theorem State.emit_dev (s : State) (rs : List Request) : (s.emit rs).dev = s.dev := rfl
@[simp] theorem State.emit_sched (s : State) (rs : List Request) : (s.emit rs).sched = s.sched := rfl
@[simp] theorem State.emit_readData (s : State) (rs : List Request) : (s.emit rs).readData = s.readData := rfl
@[simp] theorem State.emit_trace (s : State) (rs : List Request) : (s.emit rs).trace = s.trace ++ rs := rfl

@[simp] theorem State.fail_regs (s : State) (r : BitVec 4) (c : Word) : (s.fail r c).regs = s.regs := rfl
@[simp] theorem State.fail_busy (s : State) (r : BitVec 4) (c : Word) : (s.fail r c).busy = s.busy := rfl
@[simp] theorem State.fail_ovr (s : State) (r : BitVec 4) (c : Word) : (s.fail r c).ovr = s.ovr := rfl
@[simp] theorem State.fail_result (s : State) (r : BitVec 4) (c : Word) : (s.fail r c).result = s.result := rfl
@[simp] theorem State.fail_devError (s : State) (r : BitVec 4) (c : Word) : (s.fail r c).devError = s.devError := rfl
@[simp] theorem State.fail_ctx (s : State) (r : BitVec 4) (c : Word) : (s.fail r c).ctx = s.ctx := rfl
@[simp] theorem State.fail_phase (s : State) (r : BitVec 4) (c : Word) : (s.fail r c).phase = s.phase := rfl
@[simp] theorem State.fail_lat (s : State) (r : BitVec 4) (c : Word) : (s.fail r c).lat = s.lat := rfl
@[simp] theorem State.fail_n (s : State) (r : BitVec 4) (c : Word) : (s.fail r c).n = s.n := rfl
@[simp] theorem State.fail_i (s : State) (r : BitVec 4) (c : Word) : (s.fail r c).i = s.i := rfl
@[simp] theorem State.fail_nb (s : State) (r : BitVec 4) (c : Word) : (s.fail r c).nb = s.nb := rfl
@[simp] theorem State.fail_tb (s : State) (r : BitVec 4) (c : Word) : (s.fail r c).tb = s.tb := rfl
@[simp] theorem State.fail_j (s : State) (r : BitVec 4) (c : Word) : (s.fail r c).j = s.j := rfl
@[simp] theorem State.fail_st (s : State) (r : BitVec 4) (c : Word) : (s.fail r c).st = s.st := rfl
@[simp] theorem State.fail_acc (s : State) (r : BitVec 4) (c : Word) : (s.fail r c).acc = s.acc := rfl
@[simp] theorem State.fail_L (s : State) (r : BitVec 4) (c : Word) : (s.fail r c).L = s.L := rfl
@[simp] theorem State.fail_lockHeld (s : State) (r : BitVec 4) (c : Word) : (s.fail r c).lockHeld = s.lockHeld := rfl
@[simp] theorem State.fail_lockInst (s : State) (r : BitVec 4) (c : Word) : (s.fail r c).lockInst = s.lockInst := rfl
@[simp] theorem State.fail_pres (s : State) (r : BitVec 4) (c : Word) : (s.fail r c).pres = r := rfl
@[simp] theorem State.fail_pcode (s : State) (r : BitVec 4) (c : Word) : (s.fail r c).pcode = c := rfl
@[simp] theorem State.fail_mem (s : State) (r : BitVec 4) (c : Word) : (s.fail r c).mem = s.mem := rfl
@[simp] theorem State.fail_refuses (s : State) (r : BitVec 4) (c : Word) : (s.fail r c).refuses = s.refuses := rfl
@[simp] theorem State.fail_dev (s : State) (r : BitVec 4) (c : Word) : (s.fail r c).dev = s.dev := rfl
@[simp] theorem State.fail_sched (s : State) (r : BitVec 4) (c : Word) : (s.fail r c).sched = s.sched := rfl
@[simp] theorem State.fail_readData (s : State) (r : BitVec 4) (c : Word) : (s.fail r c).readData = s.readData := rfl
@[simp] theorem State.fail_trace (s : State) (r : BitVec 4) (c : Word) : (s.fail r c).trace = s.trace := rfl

@[simp] theorem State.finish_regs (s : State) (r : BitVec 4) : (s.finish r).regs = s.regs := rfl
@[simp] theorem State.finish_busy (s : State) (r : BitVec 4) : (s.finish r).busy = s.busy := rfl
@[simp] theorem State.finish_ovr (s : State) (r : BitVec 4) : (s.finish r).ovr = s.ovr := rfl
@[simp] theorem State.finish_result (s : State) (r : BitVec 4) : (s.finish r).result = s.result := rfl
@[simp] theorem State.finish_devError (s : State) (r : BitVec 4) : (s.finish r).devError = s.devError := rfl
@[simp] theorem State.finish_ctx (s : State) (r : BitVec 4) : (s.finish r).ctx = s.ctx := rfl
@[simp] theorem State.finish_phase (s : State) (r : BitVec 4) : (s.finish r).phase = .done := rfl
@[simp] theorem State.finish_lat (s : State) (r : BitVec 4) : (s.finish r).lat = s.lat := rfl
@[simp] theorem State.finish_n (s : State) (r : BitVec 4) : (s.finish r).n = s.n := rfl
@[simp] theorem State.finish_i (s : State) (r : BitVec 4) : (s.finish r).i = s.i := rfl
@[simp] theorem State.finish_nb (s : State) (r : BitVec 4) : (s.finish r).nb = s.nb := rfl
@[simp] theorem State.finish_tb (s : State) (r : BitVec 4) : (s.finish r).tb = s.tb := rfl
@[simp] theorem State.finish_j (s : State) (r : BitVec 4) : (s.finish r).j = s.j := rfl
@[simp] theorem State.finish_st (s : State) (r : BitVec 4) : (s.finish r).st = s.st := rfl
@[simp] theorem State.finish_acc (s : State) (r : BitVec 4) : (s.finish r).acc = s.acc := rfl
@[simp] theorem State.finish_L (s : State) (r : BitVec 4) : (s.finish r).L = s.L := rfl
@[simp] theorem State.finish_lockHeld (s : State) (r : BitVec 4) : (s.finish r).lockHeld = s.lockHeld := rfl
@[simp] theorem State.finish_lockInst (s : State) (r : BitVec 4) : (s.finish r).lockInst = s.lockInst := rfl
@[simp] theorem State.finish_pres (s : State) (r : BitVec 4) : (s.finish r).pres = r := rfl
@[simp] theorem State.finish_pcode (s : State) (r : BitVec 4) : (s.finish r).pcode = s.pcode := rfl
@[simp] theorem State.finish_mem (s : State) (r : BitVec 4) : (s.finish r).mem = s.mem := rfl
@[simp] theorem State.finish_refuses (s : State) (r : BitVec 4) : (s.finish r).refuses = s.refuses := rfl
@[simp] theorem State.finish_dev (s : State) (r : BitVec 4) : (s.finish r).dev = s.dev := rfl
@[simp] theorem State.finish_sched (s : State) (r : BitVec 4) : (s.finish r).sched = s.sched := rfl
@[simp] theorem State.finish_readData (s : State) (r : BitVec 4) : (s.finish r).readData = s.readData := rfl
@[simp] theorem State.finish_trace (s : State) (r : BitVec 4) : (s.finish r).trace = s.trace := rfl

@[simp] theorem State.complete_regs (s : State) : (s.complete).regs = s.regs := rfl
@[simp] theorem State.complete_busy (s : State) : (s.complete).busy = false := rfl
@[simp] theorem State.complete_ovr (s : State) : (s.complete).ovr = s.ovr := rfl
@[simp] theorem State.complete_result (s : State) : (s.complete).result = s.pres := rfl
@[simp] theorem State.complete_devError (s : State) : (s.complete).devError = shownError s.pres s.pcode := rfl
@[simp] theorem State.complete_ctx (s : State) : (s.complete).ctx = s.ctx := rfl
@[simp] theorem State.complete_phase (s : State) : (s.complete).phase = .idle := rfl
@[simp] theorem State.complete_lat (s : State) : (s.complete).lat = s.lat := rfl
@[simp] theorem State.complete_n (s : State) : (s.complete).n = 0 := rfl
@[simp] theorem State.complete_i (s : State) : (s.complete).i = 0 := rfl
@[simp] theorem State.complete_nb (s : State) : (s.complete).nb = 0 := rfl
@[simp] theorem State.complete_tb (s : State) : (s.complete).tb = 0 := rfl
@[simp] theorem State.complete_j (s : State) : (s.complete).j = 0 := rfl
@[simp] theorem State.complete_st (s : State) : (s.complete).st = 0 := rfl
@[simp] theorem State.complete_acc (s : State) : (s.complete).acc = 0 := rfl
@[simp] theorem State.complete_L (s : State) : (s.complete).L = 0 := rfl
@[simp] theorem State.complete_lockHeld (s : State) : (s.complete).lockHeld = s.lockHeld := rfl
@[simp] theorem State.complete_lockInst (s : State) : (s.complete).lockInst = s.lockInst := rfl
@[simp] theorem State.complete_pres (s : State) : (s.complete).pres = s.pres := rfl
@[simp] theorem State.complete_pcode (s : State) : (s.complete).pcode = s.pcode := rfl
@[simp] theorem State.complete_mem (s : State) : (s.complete).mem = s.mem := rfl
@[simp] theorem State.complete_refuses (s : State) : (s.complete).refuses = s.refuses := rfl
@[simp] theorem State.complete_dev (s : State) : (s.complete).dev = s.dev := rfl
@[simp] theorem State.complete_sched (s : State) : (s.complete).sched = s.sched := rfl
@[simp] theorem State.complete_readData (s : State) : (s.complete).readData = s.readData := rfl
@[simp] theorem State.complete_trace (s : State) : (s.complete).trace = s.trace := rfl

@[simp] theorem State.storeByte_regs (s : State) (a : Word) (v : Byte) : (s.storeByte a v).regs = s.regs := rfl
@[simp] theorem State.storeByte_busy (s : State) (a : Word) (v : Byte) : (s.storeByte a v).busy = s.busy := rfl
@[simp] theorem State.storeByte_ovr (s : State) (a : Word) (v : Byte) : (s.storeByte a v).ovr = s.ovr := rfl
@[simp] theorem State.storeByte_result (s : State) (a : Word) (v : Byte) : (s.storeByte a v).result = s.result := rfl
@[simp] theorem State.storeByte_devError (s : State) (a : Word) (v : Byte) : (s.storeByte a v).devError = s.devError := rfl
@[simp] theorem State.storeByte_ctx (s : State) (a : Word) (v : Byte) : (s.storeByte a v).ctx = s.ctx := rfl
@[simp] theorem State.storeByte_phase (s : State) (a : Word) (v : Byte) : (s.storeByte a v).phase = s.phase := rfl
@[simp] theorem State.storeByte_lat (s : State) (a : Word) (v : Byte) : (s.storeByte a v).lat = s.lat := rfl
@[simp] theorem State.storeByte_n (s : State) (a : Word) (v : Byte) : (s.storeByte a v).n = s.n := rfl
@[simp] theorem State.storeByte_i (s : State) (a : Word) (v : Byte) : (s.storeByte a v).i = s.i := rfl
@[simp] theorem State.storeByte_nb (s : State) (a : Word) (v : Byte) : (s.storeByte a v).nb = s.nb := rfl
@[simp] theorem State.storeByte_tb (s : State) (a : Word) (v : Byte) : (s.storeByte a v).tb = s.tb := rfl
@[simp] theorem State.storeByte_j (s : State) (a : Word) (v : Byte) : (s.storeByte a v).j = s.j := rfl
@[simp] theorem State.storeByte_st (s : State) (a : Word) (v : Byte) : (s.storeByte a v).st = s.st := rfl
@[simp] theorem State.storeByte_acc (s : State) (a : Word) (v : Byte) : (s.storeByte a v).acc = s.acc := rfl
@[simp] theorem State.storeByte_L (s : State) (a : Word) (v : Byte) : (s.storeByte a v).L = s.L := rfl
@[simp] theorem State.storeByte_lockHeld (s : State) (a : Word) (v : Byte) : (s.storeByte a v).lockHeld = s.lockHeld := rfl
@[simp] theorem State.storeByte_lockInst (s : State) (a : Word) (v : Byte) : (s.storeByte a v).lockInst = s.lockInst := rfl
@[simp] theorem State.storeByte_pres (s : State) (a : Word) (v : Byte) : (s.storeByte a v).pres = s.pres := rfl
@[simp] theorem State.storeByte_pcode (s : State) (a : Word) (v : Byte) : (s.storeByte a v).pcode = s.pcode := rfl
@[simp] theorem State.storeByte_mem (s : State) (a : Word) (v : Byte) : (s.storeByte a v).mem = Memory.store s.mem a.toNat v := rfl
@[simp] theorem State.storeByte_refuses (s : State) (a : Word) (v : Byte) : (s.storeByte a v).refuses = s.refuses := rfl
@[simp] theorem State.storeByte_dev (s : State) (a : Word) (v : Byte) : (s.storeByte a v).dev = s.dev := rfl
@[simp] theorem State.storeByte_sched (s : State) (a : Word) (v : Byte) : (s.storeByte a v).sched = s.sched := rfl
@[simp] theorem State.storeByte_readData (s : State) (a : Word) (v : Byte) : (s.storeByte a v).readData = s.readData := rfl
@[simp] theorem State.storeByte_trace (s : State) (a : Word) (v : Byte) : (s.storeByte a v).trace = s.trace := rfl

end Sys2Proof.Machine
end

