-- ==== Sys2Proof/Laws/Ops.lean ====
section
/-! SUPPORT. What each shared operation can do, said once: the memory port, the cipher port, the shared steps. -/

namespace Sys2Proof.Machine

/-! ### The memory port -/

theorem mem_bufferAddrs {a x : Word} {len : Nat} : x ∈ bufferAddrs a len ↔ ∃ m < len, byteAddr a m = x := by
  simp [bufferAddrs]

@[simp] theorem length_readBuffer (s : State) (a : Word) (len : Nat) : (readBuffer s a len).length = len := by
  simp [readBuffer, bufferAddrs]

@[simp] theorem length_bufferAddrs (a : Word) (len : Nat) : (bufferAddrs a len).length = len := by
  simp [bufferAddrs]

/-- A reading step is taken exactly when every read is admitted. -/
theorem reading_eq_next_iff {s t : State} {a : Word} {len : Nat} {k : List Byte → State → State} :
    reading s a len k = .next t ↔
      (∀ m < len, admitsRead s (byteAddr a m) = true) ∧
        k (readBuffer s a len) (s.emit ((bufferAddrs a len).map .memRead)) = t := by
  unfold reading
  split
  · rename_i x hx
    have h1 := List.mem_of_find?_eq_some hx
    have h2 := List.find?_some hx
    obtain ⟨m, hm, rfl⟩ := mem_bufferAddrs.mp h1
    simp only [reduceCtorEq, false_iff, not_and]
    intro h
    simp [h m hm] at h2
  · rename_i hx
    rw [List.find?_eq_none] at hx
    have : ∀ m < len, admitsRead s (byteAddr a m) = true := fun m hm => by
      simpa using hx _ (mem_bufferAddrs.mpr ⟨m, hm, rfl⟩)
    simp only [Host.Outcome.next.injEq]
    exact ⟨fun h => ⟨this, h⟩, fun h => h.2⟩

/-- A reading step whose reads are all admitted. -/
theorem reading_of_admits {s : State} {a : Word} {len : Nat} (k : List Byte → State → State)
    (h : ∀ m < len, admitsRead s (byteAddr a m) = true) :
    reading s a len k = .next (k (readBuffer s a len) (s.emit ((bufferAddrs a len).map .memRead))) :=
  reading_eq_next_iff.mpr ⟨h, rfl⟩

/-- A reading step never answers anything but a next state or a refused byte. -/
theorem reading_cases (s : State) (a : Word) (len : Nat) (k : List Byte → State → State) :
    (∃ t, reading s a len k = .next t) ∨ ∃ m < len, admitsRead s (byteAddr a m) = false ∧
      reading s a len k = .fault (.memoryRefused (byteAddr a m)) := by
  unfold reading
  split
  · rename_i x hx
    have h1 := List.mem_of_find?_eq_some hx
    have h2 := List.find?_some hx
    obtain ⟨m, hm, rfl⟩ := mem_bufferAddrs.mp h1
    exact .inr ⟨m, hm, by simpa using h2, rfl⟩
  · exact .inl ⟨_, rfl⟩

theorem readingByte_of_admits {s : State} {a : Word} (k : Byte → State → State) (h : admitsRead s a = true) :
    readingByte s a k = .next (k (byteAt s a) (s.emit [.memRead a])) := by
  simp [readingByte, h]

theorem writing_of_admits {s : State} {a : Word} {v : Byte} (k : State → State) (h : admitsWrite s a = true) :
    writing s a v k = .next (k ((s.storeByte a v).emit [.memWrite a v])) := by
  simp [writing, h]

/-- A byte of host memory after a store. -/
theorem byteAt_storeByte {s : State} (h : Memory.wf s.mem = true) (a b : Word) (v : Byte) :
    byteAt (s.storeByte a v) b = if b = a then v else byteAt s b := by
  simp only [byteAt, State.storeByte_mem, Memory.load_store h, BitVec.toNat_inj]

/-! ### The host's port -/

/-- Outside the window a byte access goes through. -/
theorem byteAccess_outside {a : Word} (h : windowOffset a = none) (t : State) : byteAccess a t = .next t := by
  simp [byteAccess, h]

/-- In the window a byte access is refused. -/
theorem byteAccess_window {a : Word} (h : windowOffset a ≠ none) (t : State) :
    byteAccess a t = .refused .undefinedAccess := by
  obtain ⟨off, ho⟩ := Option.ne_none_iff_exists'.mp h
  simp [byteAccess, ho]

/-- BASE is a multiple of 0x40. -/
theorem base_masked : Config.base &&& 0xFFFFFFC0 = Config.base := by
  have h : ∀ x : BitVec 26, (x ++ (0 : BitVec 6)) &&& (0xFFFFFFC0 : BitVec (26 + 6)) = x ++ (0 : BitVec 6) := by
    intro x
    apply BitVec.eq_of_getElem_eq
    intro i hi
    rw [BitVec.getElem_and, BitVec.getElem_append hi]
    interval_cases i <;> simp
  exact h Config.baseIndex

/-- BASE itself is in the window. -/
theorem windowOffset_base : windowOffset Config.base ≠ none := by
  rw [windowOffset, if_pos base_masked]; simp

/-- Some address lies outside the window: 0, or 0x40 where BASE is 0. -/
theorem exists_outside : ∃ a : Word, windowOffset a = none := by
  by_cases h : Config.base = 0
  · exact ⟨0x40, by simp [windowOffset, h]⟩
  · exact ⟨0, if_neg (by simpa using Ne.symm h)⟩

/-! ### The cipher port -/

/-- A draw leaves what the device holds alone. -/
theorem drawBind_held (d : Device) :
    (drawBind d).2.locks = d.locks ∧ (drawBind d).2.bindings = d.bindings ∧ (drawBind d).2.otherLocks = d.otherLocks := by
  unfold drawBind; split <;> exact ⟨rfl, rfl, rfl⟩

@[simp] theorem drawEncrypt_locks (d : Device) : (drawEncrypt d).2.locks = d.locks := by
  unfold drawEncrypt; split <;> rfl

@[simp] theorem drawEncrypt_bindings (d : Device) : (drawEncrypt d).2.bindings = d.bindings := by
  unfold drawEncrypt; split <;> rfl

@[simp] theorem drawEncrypt_otherLocks (d : Device) : (drawEncrypt d).2.otherLocks = d.otherLocks := by
  unfold drawEncrypt; split <;> rfl

theorem drawAcquire_held (d : Device) :
    (drawAcquire d).2.locks = d.locks ∧ (drawAcquire d).2.bindings = d.bindings ∧
      (drawAcquire d).2.otherLocks = d.otherLocks := by
  unfold drawAcquire; split <;> exact ⟨rfl, rfl, rfl⟩

theorem answerAcquire_held (d : Device) (inst : Word) :
    (answerAcquire d inst).2.locks = d.locks ∧ (answerAcquire d inst).2.bindings = d.bindings ∧
      (answerAcquire d inst).2.otherLocks = d.otherLocks := by
  simp only [answerAcquire]
  split <;> exact drawAcquire_held d

/-- GRANTED is never the answer for an instance whose lock another user holds (60_exceptions.md R291). -/
theorem answerAcquire_granted {d : Device} {inst : Word} (h : (answerAcquire d inst).1 = .granted) :
    inst ∉ d.otherLocks := by
  simp only [answerAcquire] at h
  split at h
  · exact absurd h (by cases Config.contendedDraw (drawAcquire d).2.draws <;> simp [contendedAsAcquire])
  · simp_all

/-- The device's answer when the next one is laid down and no other user holds the lock. -/
theorem answerAcquire_of_laid {d : Device} {inst : Word} {a : AcquireAnswer} {rest : List AcquireAnswer}
    (h : d.acquireAnswers = a :: rest) (hf : a = .granted → inst ∉ d.otherLocks) :
    answerAcquire d inst = (a, { d with acquireAnswers := rest }) := by
  have hd : drawAcquire d = (a, { d with acquireAnswers := rest }) := by simp [drawAcquire, h]
  simp only [answerAcquire, hd]
  split
  · rename_i hc; exact absurd hc.2 (hf hc.1)
  · rfl

theorem drawEncrypt_of_laid {d : Device} {a : Answer} {rest : List Answer} (h : d.encryptAnswers = a :: rest) :
    drawEncrypt d = (a, { d with encryptAnswers := rest }) := by
  simp [drawEncrypt, h]

theorem drawBind_of_laid {d : Device} {a : Answer} {rest : List Answer} (h : d.bindAnswers = a :: rest) :
    drawBind d = (a, { d with bindAnswers := rest }) := by
  simp [drawBind, h]

/-! ### Steps that several commands have -/

/-- Everything LOCK can do (40_engine.md R131). -/
theorem lockStep_cases (g f : Phase) (s : State) :
    ∃ d, d.locks = (if (answerAcquire s.dev (effInst s.ctx)).1 = .granted then effInst s.ctx :: s.dev.locks
        else s.dev.locks) ∧ d.bindings = s.dev.bindings ∧ d.otherLocks = s.dev.otherLocks ∧
      ((effInst s.ctx ∉ s.dev.otherLocks ∧ (answerAcquire s.dev (effInst s.ctx)).1 = .granted ∧
        lockStep g f s =
          { s with
            dev := d
            trace := s.trace ++ [.cipherAcquire (effInst s.ctx) (effTicks s.ctx)]
            lockHeld := true
            lockInst := effInst s.ctx
            phase := g }) ∨
      ((answerAcquire s.dev (effInst s.ctx)).1 = .timeout ∧
        lockStep g f s =
          { s with
            dev := d
            trace := s.trace ++ [.cipherAcquire (effInst s.ctx) (effTicks s.ctx)]
            pres := DEVICE_TIMEOUT
            pcode := 0
            phase := f }) ∨
      ∃ c, (answerAcquire s.dev (effInst s.ctx)).1 = .err c ∧
        lockStep g f s =
          { s with
            dev := d
            trace := s.trace ++ [.cipherAcquire (effInst s.ctx) (effTicks s.ctx)]
            pres := DEVICE_FAULT
            pcode := c
            phase := f }) := by
  have hh := answerAcquire_held s.dev (effInst s.ctx)
  have hg := @answerAcquire_granted s.dev (effInst s.ctx)
  unfold lockStep cipherAcquire
  rcases h : answerAcquire s.dev (effInst s.ctx) with ⟨a, d⟩
  rw [h] at hh hg
  refine ⟨d.noteAcquire a (effInst s.ctx), ?_⟩
  cases a <;> simp_all [Device.noteAcquire, State.fail, State.goto]

end Sys2Proof.Machine
end

