-- ==== Sys2Proof/Laws/PerInstr.lean ====
section
/-! SUPPORT. A family of statements about every command as syntax: the fields of its word (spec/30_encoding.md R90, R91,
R94), one lemma per constructor. -/

namespace Sys2Proof.Laws.FieldRanges

/-- The word of a command is valid, its RSV field is 0, its OPCODE field is the command's and lies in 0x01 to 0x07. -/
def Statement (i : Instr) : Prop :=
  i.wellFormed = true ∧ rsvOf (encode i) = 0 ∧ opcodeOf (encode i) = opcode i ∧
    0x01 ≤ (opcode i).toNat ∧ (opcode i).toNat ≤ 0x07

theorem init : Statement .init := by unfold Statement; decide
theorem setDeviceInstance : Statement .setDeviceInstance := by unfold Statement; decide
theorem setLockWaitTicks : Statement .setLockWaitTicks := by unfold Statement; decide
theorem setkey : Statement .setkey := by unfold Statement; decide
theorem generateTag : Statement .generateTag := by unfold Statement; decide
theorem verifyTag : Statement .verifyTag := by unfold Statement; decide
theorem free : Statement .free := by unfold Statement; decide

end Sys2Proof.Laws.FieldRanges
end

