-- ==== Sys2Proof/Laws/Turns.lean ====
section
/-! SUPPORT. What an engine turn and a run of engine turns are, said once. -/

namespace Sys2Proof.Machine

/-- An engine turn of a command in flight whose step is taken. -/
theorem engineTurn_of_exec {s t : State} {i : Instr} (hp : s.phase ≠ .idle) (hd : decode s.lat.cmd = some i)
    (h : exec i s = .next t) : engineTurn s = .next t := by
  simp [engineTurn, commandStep, hp, hd, h]

/-- An idle engine stays as it is (spec/40_engine.md R122). -/
theorem engineTurn_of_idle {s : State} (hp : s.phase = .idle) : engineTurn s = .next s := by
  simp [engineTurn, hp]

@[simp] theorem engineTurns_zero (s : State) : engineTurns 0 s = .next s := rfl

/-- One more turn in front. -/
theorem engineTurns_succ {s t : State} {k : Nat} (h : engineTurn s = .next t) :
    engineTurns (k + 1) s = engineTurns k t := by
  simp [engineTurns, h]

/-- A run cut in two. -/
theorem engineTurns_add {s t : State} {j : Nat} (k : Nat) (h : engineTurns j s = .next t) :
    engineTurns (j + k) s = engineTurns k t := by
  induction j generalizing s with
  | zero => simp only [engineTurns_zero, Host.Outcome.next.injEq] at h; simp [h]
  | succ j ih =>
    rw [Nat.succ_add, engineTurns]
    rw [engineTurns] at h
    split at h
    · exact ih h
    · cases h
    · cases h

/-- An idle engine stays as it is however often it is its turn. -/
theorem engineTurns_of_idle {s : State} (hp : s.phase = .idle) (k : Nat) : engineTurns k s = .next s := by
  induction k with
  | zero => rfl
  | succ k ih => rw [engineTurns_succ (engineTurn_of_idle hp), ih]

end Sys2Proof.Machine
end

