-- ==== Sys2Proof/Laws/Runs.lean ====
section
/-! SUPPORT. What a run of BLOCK steps and a run of OUT steps do (spec/43_tag.md R203, R204, R207, R208). -/

namespace Sys2Proof.Machine

/-! ### Addresses and buffers -/

theorem byteAddr_byteAddr (a : Word) (j k : Nat) : byteAddr (byteAddr a j) k = byteAddr a (j + k) := by
  simp [byteAddr, BitVec.add_assoc, BitVec.ofNat_add]

@[simp] theorem byteAddr_zero (a : Word) : byteAddr a 0 = a := by simp [byteAddr]

/-- A part of a buffer that is inside it. -/
theorem readBuffer_part {s : State} {a : Word} {off len total : Nat} (h : off + len ≤ total) :
    readBuffer s (byteAddr a off) len = ((readBuffer s a total).drop off).take len := by
  apply List.ext_getElem
  · simp; omega
  · intro i h1 h2
    simp [readBuffer, bufferAddrs, byteAddr_byteAddr]

/-- The reads of a part of a buffer are admitted when those of the buffer are. -/
theorem AdmitsReads.part {s : State} {a : Word} {off len total : Nat} (hr : AdmitsReads s a total)
    (h : off + len ≤ total) : AdmitsReads s (byteAddr a off) len := by
  intro m hm
  rw [byteAddr_byteAddr]
  exact hr _ (by omega)

/-! ### The blocks of a message -/

/-- Every block before the last is whole. -/
theorem whole_block {len k : Nat} (h : k + 1 < nblocks len) : 16 * k + 16 ≤ len := by
  simp only [nblocks] at h; omega

/-- The last block holds what is left. -/
theorem last_block (len : Nat) :
    16 * (nblocks len - 1) ≤ len ∧ len - 16 * (nblocks len - 1) ≤ 16 := by
  simp only [nblocks]; omega

theorem nblocks_pos (len : Nat) : 1 ≤ nblocks len := by simp [nblocks]

theorem nblocks_lt {lat : Latch} : nblocks (dataLen lat) ≤ 2 ^ 25 := by
  have := lat.dataLenBits.isLt
  simp only [nblocks, dataLen]; omega

/-- The BLOCK steps before the last block, none of whose requests fails. -/
theorem blockLoop {q : State} (hp : q.phase = .block) (hd : tagCommand q) (hi : q.i = 1) (hst : q.st = 0)
    (hn : q.n.toNat = blockCount q) (hr : AdmitsReads q q.lat.dataAddr (dataLen q.lat)) (k : Nat) :
    ∀ es, k < blockCount q → q.dev.encryptAnswers = List.replicate k .ok ++ es →
      engineTurns k q = .next
        { q with
          st := chainPrefix Config.encrypt q.ctx.family q.ctx.keyBits (keyBytes q.ctx) (message q) k
          i := BitVec.ofNat 32 (k + 1)
          dev := { q.dev with encryptAnswers := es }
          trace := q.trace ++ (List.range k).flatMap fun m => blockRequests q (m + 1) } := by
  induction k with
  | zero =>
    intro es _ he
    obtain rfl : q.dev.encryptAnswers = es := by simpa using he
    have h1 : (1#32 : Word) = q.i := hi.symm
    simp [chainPrefix, ← hst, h1]
  | succ k ih =>
    intro es hk he
    have hb : nblocks (dataLen q.lat) ≤ 2 ^ 25 := nblocks_lt
    have hw : 16 * k + 16 ≤ dataLen q.lat := whole_block hk
    rw [engineTurns_add 1 (ih (.ok :: es) (by omega) (by simp [he, List.replicate_succ']))]
    generalize hu : ({ q with
          st := chainPrefix Config.encrypt q.ctx.family q.ctx.keyBits (keyBytes q.ctx) (message q) k
          i := BitVec.ofNat 32 (k + 1)
          dev := { q.dev with encryptAnswers := .ok :: es }
          trace := q.trace ++ (List.range k).flatMap fun m => blockRequests q (m + 1) } : State) = u
    have hui : u.i.toNat = k + 1 := by
      subst hu; simp only [BitVec.toNat_ofNat]; unfold blockCount at hk; omega
    have hlt : u.i < u.n := by
      rw [BitVec.lt_def, hui]; subst hu; exact hn ▸ hk
    have ha : blockAddr u = byteAddr q.lat.dataAddr (16 * k) := by
      simp only [blockAddr, hui]; subst hu; rfl
    have hr' : AdmitsReads u (blockAddr u) 16 := by
      rw [ha]; subst hu; exact AdmitsReads.part (total := dataLen q.lat) hr hw
    have hm : readBuffer u (blockAddr u) 16 = messageBlock (message q) (k + 1) := by
      rw [ha]; subst hu
      exact readBuffer_part hw
    have hdr : drawEncrypt u.dev = (.ok, { u.dev with encryptAnswers := es }) := by
      subst hu; exact drawEncrypt_of_laid rfl
    have hreq : blockRequests q (k + 1) =
        ((bufferAddrs (blockAddr u) 16).map .memRead) ++
          [.cipherEncrypt (effInst u.ctx) u.ctx.family u.ctx.keyBits (keyBytes u.ctx)
            (u.st ^^^ be128 (messageBlock (message q) (k + 1)))] := by
      have h16 : min 16 (dataLen q.lat - 16 * k) = 16 := by omega
      simp only [blockRequests, cipherInput, hk, if_true, ha, Nat.add_sub_cancel, h16]
      subst hu; rfl
    have hstep : engineTurn u = .next
        { u with
          st := chainPrefix Config.encrypt q.ctx.family q.ctx.keyBits (keyBytes q.ctx) (message q) (k + 1)
          i := u.i + 1
          dev := { u.dev with encryptAnswers := es }
          trace := u.trace ++ blockRequests q (k + 1) } := by
      have hx : execBlock u = .next
        { u with
          st := chainPrefix Config.encrypt q.ctx.family q.ctx.keyBits (keyBytes q.ctx) (message q) (k + 1)
          i := u.i + 1
          dev := { u.dev with encryptAnswers := es }
          trace := u.trace ++ blockRequests q (k + 1) } := by
        rw [execBlock, if_pos hlt, reading_of_admits _ hr', hm, hreq]
        simp only [blockStep, cipherEncrypt, State.emit, hdr, encrypted, chainPrefix, chain, List.append_assoc]
        subst hu; rfl
      have hpu : u.phase = .block := by subst hu; exact hp
      have hdu : decode u.lat.cmd = some .generateTag ∨ decode u.lat.cmd = some .verifyTag := by subst hu; exact hd
      rcases hdu with hdu | hdu
      · exact engineTurn_of_exec (by simp [hpu]) hdu (by simp only [exec, execGenerateTag, hpu, hx])
      · exact engineTurn_of_exec (by simp [hpu]) hdu (by simp only [exec, execVerifyTag, hpu, hx])
    rw [engineTurns_succ hstep, engineTurns_zero]
    have hi1 : u.i + 1 = BitVec.ofNat 32 (k + 1 + 1) := by
      apply BitVec.eq_of_toNat_eq
      rw [BitVec.toNat_add, hui]; simp
    rw [hi1]
    subst hu
    simp only [List.range_succ, List.flatMap_append, List.flatMap_cons, List.flatMap_nil, List.append_nil,
      List.append_assoc]

/-- All the BLOCK steps of a tag command, none of whose requests fails: the chaining state is then the MAC. -/
theorem blocksRun {q : State} {es : List Answer} (hp : q.phase = .block) (hd : tagCommand q) (hi : q.i = 1)
    (hst : q.st = 0) (hn : q.n.toNat = blockCount q) (hnb : q.nb.toNat = dataLen q.lat)
    (hr : AdmitsReads q q.lat.dataAddr (dataLen q.lat))
    (he : q.dev.encryptAnswers = List.replicate (blockCount q) .ok ++ es) :
    engineTurns (blockCount q) q = .next
      { q with
        st := macWith Config.encrypt q.ctx.family q.ctx.keyBits (keyBytes q.ctx) q.ctx.k1 q.ctx.k2 (message q)
        i := q.n
        phase := .release
        dev := { q.dev with encryptAnswers := es }
        trace := q.trace ++ (List.range (blockCount q)).flatMap fun m => blockRequests q (m + 1) } := by
  obtain ⟨k, hk⟩ : ∃ k, blockCount q = k + 1 := ⟨blockCount q - 1, by have := nblocks_pos (dataLen q.lat); unfold blockCount; omega⟩
  have hb : nblocks (dataLen q.lat) ≤ 2 ^ 25 := nblocks_lt
  have hlb := last_block (dataLen q.lat)
  have hkn : nblocks (dataLen q.lat) = k + 1 := hk
  rw [hkn, Nat.add_sub_cancel] at hlb
  rw [hk, engineTurns_add 1 (blockLoop hp hd hi hst hn hr k (.ok :: es) (by omega)
    (by simp [he, hk, List.replicate_succ']))]
  generalize hu : ({ q with
        st := chainPrefix Config.encrypt q.ctx.family q.ctx.keyBits (keyBytes q.ctx) (message q) k
        i := BitVec.ofNat 32 (k + 1)
        dev := { q.dev with encryptAnswers := .ok :: es }
        trace := q.trace ++ (List.range k).flatMap fun m => blockRequests q (m + 1) } : State) = u
  have hun : u.n = q.n := by subst hu; rfl
  have hui : u.i = u.n := by
    apply BitVec.eq_of_toNat_eq
    rw [hun, hn, hk]; subst hu; simp only [BitVec.toNat_ofNat]; omega
  have hlen : lastLen u = dataLen q.lat - 16 * k := by
    simp only [lastLen, hun, hn, hk, Nat.add_sub_cancel]; subst hu; rw [hnb]
  have ha : blockAddr u = byteAddr q.lat.dataAddr (16 * k) := by
    simp only [blockAddr, hui, hun, hn, hk, Nat.add_sub_cancel]; subst hu; rfl
  have hr' : AdmitsReads u (blockAddr u) (lastLen u) := by
    rw [ha, hlen]; subst hu; exact AdmitsReads.part (total := dataLen q.lat) hr (by omega)
  have hm : readBuffer u (blockAddr u) (lastLen u) = messageBlock (message q) (k + 1) := by
    rw [ha, hlen]
    have : readBuffer u (byteAddr q.lat.dataAddr (16 * k)) (dataLen q.lat - 16 * k) =
        ((readBuffer u q.lat.dataAddr (dataLen q.lat)).drop (16 * k)).take (dataLen q.lat - 16 * k) :=
      readBuffer_part (by omega)
    rw [this]
    have hmq : readBuffer u q.lat.dataAddr (dataLen q.lat) = message q := by subst hu; rfl
    have hml : ((message q).drop (16 * k)).length = dataLen q.lat - 16 * k := by simp [message]
    rw [hmq, messageBlock, Nat.add_sub_cancel, List.take_of_length_le (by omega), List.take_of_length_le (by omega)]
  have hdr : drawEncrypt u.dev = (.ok, { u.dev with encryptAnswers := es }) := by
    subst hu; exact drawEncrypt_of_laid rfl
  have hreq : blockRequests q (k + 1) =
      ((bufferAddrs (blockAddr u) (lastLen u)).map .memRead) ++
        [.cipherEncrypt (effInst u.ctx) u.ctx.family u.ctx.keyBits (keyBytes u.ctx)
          (u.st ^^^ lastBlock u.ctx.k1 u.ctx.k2 (messageBlock (message q) (k + 1)) u.nb.toNat)] := by
    have h16 : min 16 (dataLen q.lat - 16 * k) = dataLen q.lat - 16 * k := by omega
    have hf : ¬ (k + 1 < blockCount q) := by omega
    simp only [blockRequests, cipherInput, hf, if_false, ha, hlen, Nat.add_sub_cancel, h16]
    subst hu; rw [← hnb]
  have hx : execBlock u = .next
      { u with
        st := macWith Config.encrypt q.ctx.family q.ctx.keyBits (keyBytes q.ctx) q.ctx.k1 q.ctx.k2 (message q)
        phase := .release
        dev := { u.dev with encryptAnswers := es }
        trace := u.trace ++ blockRequests q (k + 1) } := by
    have hml : (message q).length = dataLen q.lat := by simp [message]
    rw [execBlock, if_neg (by rw [hui]; simp), if_pos hui, reading_of_admits _ hr', hm, hreq]
    simp only [lastBlockStep, cipherEncrypt, State.emit, hdr, encrypted, macWith, chain, List.append_assoc, hml, hkn,
      Nat.add_sub_cancel]
    subst hu; rw [← hnb]
  have hpu : u.phase = .block := by subst hu; exact hp
  have hdu : decode u.lat.cmd = some .generateTag ∨ decode u.lat.cmd = some .verifyTag := by subst hu; exact hd
  have hstep : engineTurn u = .next
      { u with
        st := macWith Config.encrypt q.ctx.family q.ctx.keyBits (keyBytes q.ctx) q.ctx.k1 q.ctx.k2 (message q)
        phase := .release
        dev := { u.dev with encryptAnswers := es }
        trace := u.trace ++ blockRequests q (k + 1) } := by
    rcases hdu with hdu | hdu
    · exact engineTurn_of_exec (by simp [hpu]) hdu (by simp only [exec, execGenerateTag, hpu, hx])
    · exact engineTurn_of_exec (by simp [hpu]) hdu (by simp only [exec, execVerifyTag, hpu, hx])
  rw [engineTurns_succ hstep, engineTurns_zero]
  have hi' : BitVec.ofNat 32 (k + 1) = q.n := by subst hu; exact hui
  subst hu
  simp only [hi', List.range_succ, List.flatMap_append, List.flatMap_cons, List.flatMap_nil, List.append_nil,
    List.append_assoc]

/-! ### The bytes of a tag -/

theorem storeFrom_snoc (a : Word) (vs : List Byte) (v : Byte) (k : Nat) (m : List Host.Cell) :
    storeFrom a k (vs ++ [v]) m =
      Memory.store (storeFrom a k vs m) (byteAddr a (k + vs.length)).toNat v := by
  induction vs generalizing k m with
  | nil => simp [storeFrom]
  | cons w vs ih => simp [storeFrom, ih, Nat.add_assoc, Nat.add_comm]

theorem compareFrom_snoc (mac : Block) (t : Nat) (j : Nat) (acc : Byte) (ss : List Byte) (s : Byte) :
    compareFrom mac t j acc (ss ++ [s]) = compareByte (compareFrom mac t j acc ss) mac t (j + ss.length) s := by
  induction ss generalizing j acc with
  | nil => simp [compareFrom]
  | cons w ss ih => simp [compareFrom, ih, Nat.add_assoc, Nat.add_comm]

theorem tagLen_le {lat : Latch} (h : lat.tagLenBits.toNat < 128) : tagLen lat ≤ 16 := by
  simp only [tagLen, tagBytes]; omega

/-- The OUT steps of a GENERATE_TAG that write a byte. -/
theorem writeLoop {q : State} (hp : q.phase = .out) (hd : decode q.lat.cmd = some .generateTag) (hj : q.j = 0)
    (htb : q.tb.toNat = tagLen q.lat) (ht : tagLen q.lat ≤ 16) (hw : AdmitsWrites q q.lat.tagAddr (tagLen q.lat))
    (k : Nat) (hk : k ≤ tagLen q.lat) :
    engineTurns k q = .next
      { q with
        j := BitVec.ofNat 5 k
        mem := storeFrom q.lat.tagAddr 0 ((List.range k).map (tagByte q.st q.lat.tagLenBits.toNat)) q.mem
        trace := q.trace ++ (List.range k).map fun j =>
          .memWrite (byteAddr q.lat.tagAddr j) (tagByte q.st q.lat.tagLenBits.toNat j) } := by
  induction k with
  | zero =>
    have h0 : (0#5 : BitVec 5) = q.j := hj.symm
    simp [storeFrom, h0]
  | succ k ih =>
    rw [engineTurns_add 1 (ih (by omega))]
    generalize hu : ({ q with
        j := BitVec.ofNat 5 k
        mem := storeFrom q.lat.tagAddr 0 ((List.range k).map (tagByte q.st q.lat.tagLenBits.toNat)) q.mem
        trace := q.trace ++ (List.range k).map fun j =>
          .memWrite (byteAddr q.lat.tagAddr j) (tagByte q.st q.lat.tagLenBits.toNat j) } : State) = u
    have huj : u.j.toNat = k := by subst hu; simp only [BitVec.toNat_ofNat]; omega
    have hlt : u.j < u.tb := by rw [BitVec.lt_def, huj]; subst hu; rw [htb]; omega
    have ha : tagByteAddr u = byteAddr q.lat.tagAddr k := by simp only [tagByteAddr, huj]; subst hu; rfl
    have hw' : admitsWrite u (byteAddr q.lat.tagAddr k) = true := by subst hu; exact hw k (by omega)
    have hpu : u.phase = .out := by subst hu; exact hp
    have hdu : decode u.lat.cmd = some .generateTag := by subst hu; exact hd
    have hstep : engineTurn u = .next
        ({ (u.storeByte (byteAddr q.lat.tagAddr k) (tagByte q.st q.lat.tagLenBits.toNat k)).emit
          [.memWrite (byteAddr q.lat.tagAddr k) (tagByte q.st q.lat.tagLenBits.toNat k)] with j := u.j + 1 }) := by
      refine engineTurn_of_exec (by simp [hpu]) hdu ?_
      simp only [exec, execGenerateTag, hpu, generateOut, if_pos hlt, ha, writing_of_admits _ hw', huj]
      subst hu; rfl
    rw [engineTurns_succ hstep, engineTurns_zero]
    have hj1 : u.j + 1 = BitVec.ofNat 5 (k + 1) := by
      apply BitVec.eq_of_toNat_eq
      rw [BitVec.toNat_add, huj]; simp
    rw [hj1]
    subst hu
    simp [State.storeByte, State.emit, List.range_succ, storeFrom_snoc]

/-- The OUT steps of a VERIFY_TAG that compare a byte. -/
theorem compareLoop {q : State} (hp : q.phase = .out) (hd : decode q.lat.cmd = some .verifyTag) (hj : q.j = 0)
    (htb : q.tb.toNat = tagLen q.lat) (ht : tagLen q.lat ≤ 16) (hr : AdmitsReads q q.lat.tagAddr (tagLen q.lat))
    (k : Nat) (hk : k ≤ tagLen q.lat) :
    engineTurns k q = .next
      { q with
        j := BitVec.ofNat 5 k
        acc := compareFrom q.st q.lat.tagLenBits.toNat 0 q.acc (readBuffer q q.lat.tagAddr k)
        trace := q.trace ++ (bufferAddrs q.lat.tagAddr k).map .memRead } := by
  induction k with
  | zero =>
    have h0 : (0#5 : BitVec 5) = q.j := hj.symm
    simp [readBuffer, bufferAddrs, compareFrom, h0]
  | succ k ih =>
    rw [engineTurns_add 1 (ih (by omega))]
    generalize hu : ({ q with
        j := BitVec.ofNat 5 k
        acc := compareFrom q.st q.lat.tagLenBits.toNat 0 q.acc (readBuffer q q.lat.tagAddr k)
        trace := q.trace ++ (bufferAddrs q.lat.tagAddr k).map .memRead } : State) = u
    have huj : u.j.toNat = k := by subst hu; simp only [BitVec.toNat_ofNat]; omega
    have hlt : u.j < u.tb := by rw [BitVec.lt_def, huj]; subst hu; rw [htb]; omega
    have ha : tagByteAddr u = byteAddr q.lat.tagAddr k := by simp only [tagByteAddr, huj]; subst hu; rfl
    have hr' : admitsRead u (byteAddr q.lat.tagAddr k) = true := by subst hu; exact hr k (by omega)
    have hpu : u.phase = .out := by subst hu; exact hp
    have hdu : decode u.lat.cmd = some .verifyTag := by subst hu; exact hd
    have hstep : engineTurn u = .next
        { u with
          acc := compareByte u.acc q.st q.lat.tagLenBits.toNat k (byteAt q (byteAddr q.lat.tagAddr k))
          j := u.j + 1
          trace := u.trace ++ [.memRead (byteAddr q.lat.tagAddr k)] } := by
      refine engineTurn_of_exec (by simp [hpu]) hdu ?_
      simp only [exec, execVerifyTag, hpu, verifyOut, if_pos hlt, ha, readingByte_of_admits _ hr', compareStep,
        State.emit, huj]
      subst hu; rfl
    rw [engineTurns_succ hstep, engineTurns_zero]
    have hj1 : u.j + 1 = BitVec.ofNat 5 (k + 1) := by
      apply BitVec.eq_of_toNat_eq
      rw [BitVec.toNat_add, huj]; simp
    rw [hj1]
    subst hu
    simp [readBuffer, bufferAddrs, List.range_succ, compareFrom_snoc]

end Sys2Proof.Machine
end

