-- ==== Sys2Proof/Tests/Slice0.lean ====
section
/-! SUPPORT. The model's own tests. Expected values come from spec/95_test_vectors.md and the encodings of
spec/30_encoding.md; each test names its section. The theorems called witness_<Name> give, for the statement
Obligations.<Name>, states and operands that meet its hypotheses. -/

namespace Sys2Proof.Tests

open Sys2Proof.Machine

/-! ### Well-formedness -/

theorem test_wf_accepts_each_command :
    wellFormedWord 0x00000001 = true ∧ wellFormedWord 0x00000004 = true ∧ wellFormedWord 0x00000007 = true := by decide
/-- RSV not 0 (section 2.5). -/
theorem test_wf_refuses_rsv :
    rsvIsZero 0x00000105 = false ∧ wellFormedWord 0x00000105 = false ∧ wellFormedWord 0x80000006 = false := by decide
/-- OPCODE not assigned (section 2.5). -/
theorem test_wf_refuses_opcode :
    opcodeIsAssigned 0x00000000 = false ∧ wellFormedWord 0x00000000 = false ∧ wellFormedWord 0x00000008 = false ∧
      wellFormedWord 0x000000FF = false := by decide

/-! ### Decoding: RSV, then OPCODE, bit by bit from R90 and R94 -/

theorem test_decode_init : decode (0b000000000000000000000000#24 ++ 0b00000001#8) = some .init := by decide
theorem test_decode_set_device_instance :
    decode (0b000000000000000000000000#24 ++ 0b00000010#8) = some .setDeviceInstance := by decide
theorem test_decode_set_lock_wait_ticks :
    decode (0b000000000000000000000000#24 ++ 0b00000011#8) = some .setLockWaitTicks := by decide
theorem test_decode_setkey : decode (0b000000000000000000000000#24 ++ 0b00000100#8) = some .setkey := by decide
theorem test_decode_generate_tag :
    decode (0b000000000000000000000000#24 ++ 0b00000101#8) = some .generateTag := by decide
theorem test_decode_verify_tag : decode (0b000000000000000000000000#24 ++ 0b00000110#8) = some .verifyTag := by decide
theorem test_decode_free : decode (0b000000000000000000000000#24 ++ 0b00000111#8) = some .free := by decide
/-- Reserved words (section 2.5). -/
theorem test_decode_reserved :
    decode 0x00000000 = none ∧ decode 0x00000008 = none ∧ decode 0x000000FF = none ∧ decode 0x00000105 = none ∧
      decode 0x80000006 = none ∧ decode 0xFFFFFFFF = none := by decide
theorem test_decode_table_word : decodeTableWord 32 5 = some .generateTag ∧ decodeTableWord 32 0x105 = none := by decide

/-! ### Datapath vectors -/

/-- Section 2.1. -/
theorem test_dbl :
    dbl 0 = 0 ∧ dbl 1 = 2 ∧ dbl 0x80000000000000000000000000000000 = 0x87 ∧
      dbl 0x80000000000000000000000000000001 = 0x85 ∧
      dbl 0xffffffffffffffffffffffffffffffff = 0xffffffffffffffffffffffffffffff79 := by decide
/-- Sections 1.1 and 2.1: L to K1 to K2 of the AES-128 key. -/
theorem test_dbl_subkeys :
    dbl 0x7df76b0c1ab899b33e42f047b91b546f = 0xfbeed618357133667c85e08f7236a8de ∧
      dbl 0xfbeed618357133667c85e08f7236a8de = 0xf7ddac306ae266ccf90bc11ee46d513b := by decide
/-- Section 2.2. -/
theorem test_nblocks :
    nblocks 0 = 1 ∧ nblocks 1 = 1 ∧ nblocks 16 = 1 ∧ nblocks 17 = 2 ∧ nblocks 40 = 3 ∧ nblocks 64 = 4 ∧
      nblocks (2 ^ 29 - 1) = 2 ^ 25 := by decide
theorem test_complete :
    complete 0 = false ∧ complete 15 = false ∧ complete 16 = true ∧ complete 17 = false ∧ complete 32 = true := by
  decide
theorem test_pad : be128 (pad []) = 0x80000000000000000000000000000000 ∧
    be128 (pad [0xb0]) = 0xb0800000000000000000000000000000 := by decide
/-- Section 2.3. -/
theorem test_masks :
    tagMask 1 0 = 0x80 ∧ tagMask 7 0 = 0xfe ∧ tagMask 8 0 = 0xff ∧ tagMask 9 0 = 0xff ∧ tagMask 9 1 = 0x80 ∧
      tagMask 100 12 = 0xf0 ∧ tagMask 127 15 = 0xfe ∧ tagMask 0 0 = 0 := by decide
/-- The MAC of the AES-128 key and the 40-byte message (section 1.1). -/
def mac40 : Block := 0xdfa66747de9ae63030ca32611497c827
theorem test_tag_of :
    tagOf mac40 127 = bytes16 0xdfa66747de9ae63030ca32611497c826 ∧ tagOf mac40 9 = [0xdf, 0x80] ∧
      tagOf mac40 7 = [0xde] ∧ tagOf mac40 0 = [] := by decide
/-- Section 2.4. -/
theorem test_comparator :
    compareFrom mac40 127 0 0 (bytes16 0xdfa66747de9ae63030ca32611497c827) = 0x00 ∧
      compareFrom mac40 127 0 0 (bytes16 0xdfa66747de9ae63030ca32611497c824) = 0x02 ∧
      compareFrom mac40 127 0 0 (bytes16 0x5fa66747de9ae63030ca32611497c826) = 0x80 ∧
      compareFrom mac40 9 0 0 [0xdf, 0xff] = 0x00 ∧ compareFrom mac40 9 0 0 [0xdf, 0x7f] = 0x80 ∧
      compareFrom mac40 0 0 0 [] = 0x00 := by decide

/-- `E_T` of section 2.9, a legal value of the parameter E, for checking chaining by hand. -/
def testE (_ _ : Word) (key : List Byte) (x : Block) : Block := x ^^^ be128 (key.take 16)
def keyA : List Byte := bytes16 0x000102030405060708090a0b0c0d0e0f
def keyB : List Byte := bytes16 0x80000000000000000000000000000001
/-- `n` bytes that count up from `b`. -/
def counting (b n : Nat) : List Byte := (List.range n).map fun j => BitVec.ofNat 8 (b + j)

/-- Section 2.9. -/
theorem test_subkeys :
    deriveSubkeys testE 1 128 keyA = (0x000102030405060708090a0b0c0d0e0f, 0x00020406080a0c0e10121416181a1c1e,
      0x0004080c1014181c2024282c3034383c) ∧
    deriveSubkeys testE 1 128 keyB = (0x80000000000000000000000000000001, 0x85, 0x10a) := by decide
theorem test_cmac_key_a :
    cmac testE 1 128 keyA [] = 0x80050a0f14111e1b282d22273c393633 ∧
      cmac testE 1 128 keyA (counting 0x10 16) = 0x10121416181a1c1e00020406080a0c0e ∧
      cmac testE 1 128 keyA (counting 0x10 17) = 0x30951a1f04010e0b383d32372c292623 := by decide
theorem test_cmac_key_b :
    cmac testE 1 128 keyB [0x61, 0x62, 0x63] = 0xe162638000000000000000000000010b ∧
      cmac testE 1 128 keyB (counting 0x10 17) = 0x309112131415161718191a1b1c1d1f15 ∧
      cmac testE 1 128 keyB (counting 0x20 32) = 0x10101010101010101010101010101095 := by decide

/-! ### States to test on -/

/-- Bytes stored from an address on. -/
def bytesAt (a : Nat) (bs : List Byte) (m : List Host.Cell) : List Host.Cell :=
  (bs.zipIdx).foldl (fun m c => Memory.store m (a + c.2) c.1) m

/-- A key at 0x2000, a message of 17 bytes at 0x3000. -/
def memory : List Host.Cell := bytesAt 0x3000 (counting 0x10 17) (bytesAt 0x2000 keyA [])

/-- Operands of every command: AES-128, 17 bytes, a tag of 9 bits. -/
def operands : Regs :=
  { keyAddr := 0x2000, keyBits := 128, cipherFamily := 1, dataAddr := 0x3000, dataLenBits := 136, tagAddr := 0x4000,
    tagLenBits := 9, devInstanceArg := 5, lockTicksArg := 100 }

/-- A ready context, bound on instance 3, with device configuration set. -/
def readyCtx : Context :=
  { ready := true, bound := true, boundInst := 3, family := 1, keyBits := 128, key := keyA ++ List.replicate 16 0,
    k1 := (deriveSubkeys Config.encrypt 1 128 keyA).2.1, k2 := (deriveSubkeys Config.encrypt 1 128 keyA).2.2,
    instSet := true, inst := 3, ticksSet := true, ticks := 100 }

/-- A device that holds the binding and no lock, with the given answers to come. -/
def deviceWith (b : List Answer) (a : List AcquireAnswer) (e : List Answer) : Device :=
  { Device.fresh with bindAnswers := b, acquireAnswers := a, encryptAnswers := e, bindings := [3] }

/-- An idle block that is ready, with the given host memory. -/
def readyOn (m : List Host.Cell) (r : Regs) (d : Device) : State :=
  { State.reset with regs := r, mem := m, ctx := readyCtx, dev := d }

/-- An idle block that is ready. -/
def ready (r : Regs) (d : Device) : State := readyOn memory r d

/-- A device that grants and answers OK as often as two tag commands on 17 bytes need. -/
def willing : Device := deviceWith [.ok] [.granted, .granted] (List.replicate 4 .ok)

/-- An idle block without a key. -/
def keyless : State := { State.reset with regs := operands, mem := memory, ovr := true }

/-- A block in the given phase of a command. -/
def inPhase (i : Instr) (p : Phase) : State := { accept (ready operands willing) (encode i) with phase := p }

/-- Whether a step answers a next state of which a test holds. -/
def onward (o : Stepped) (p : State → Bool) : Bool :=
  match o with
  | .next t => p t
  | .fault _ => false
  | .refused _ => false

/-! ### One step at a time -/

/-- Section 2.10: INIT on a context bound on 3 issues Unbind(3) and zeroes everything. -/
theorem test_init_clears :
    onward (exec .init (inPhase .init .clear)) (fun t =>
      t.ctx == Context.zero && t.trace == [.cipherUnbind 3] && t.phase == .done) = true := by decide
/-- Section 2.10: INIT on a zeroed context issues no request. -/
theorem test_init_unbound :
    onward (exec .init { keyless with phase := .clear }) (fun t => t.ctx == Context.zero && t.trace == []) = true := by
  decide
theorem test_free_clears :
    onward (exec .free (inPhase .free .clear)) (fun t =>
      t.ctx == Context.zero && t.trace == [.cipherUnbind 3] && t.phase == .done) = true := by decide
/-- Section 2.10: the setter writes its pair, leaves READY and the binding, and issues nothing. -/
theorem test_set_device_instance :
    onward (exec .setDeviceInstance (inPhase .setDeviceInstance .setcfg)) (fun t =>
      t.ctx.inst == 5 && t.ctx.instSet && t.ctx.boundInst == 3 && t.ctx.ready && t.ctx.ticks == 100 && t.trace == [])
      = true := by decide
theorem test_set_lock_wait_ticks :
    onward (exec .setLockWaitTicks { keyless with phase := .setcfg, lat := { Latch.zero with ticksArg := 0 } }) (fun t =>
      t.ctx.ticksSet && t.ctx.ticks == 0 && !t.ctx.instSet && t.phase == .done) = true := by decide
/-- Section 2.6: 192 bits is no key size; the old key is kept. -/
theorem test_setkey_bad_size :
    onward (exec .setkey (accept (ready { operands with keyBits := 192 } willing) (encode .setkey))) (fun t =>
      t.pres == BAD_INPUT && t.phase == .done && t.ctx.ready && t.trace == []) = true := by decide
/-- R183: byte `j` of the key buffer is byte `j` of the store. -/
theorem test_setkey_load :
    onward (exec .setkey { inPhase .setkey .loadkey with ctx := Context.zero }) (fun t =>
      t.ctx.key == keyA ++ List.replicate 16 0 && t.trace.length == 16 && t.trace.head? == some (.memRead 0x2000) &&
        t.phase == .bind) = true := by decide
/-- A block in OUT with the MAC of section 2.4 and a tag of 9 bits. -/
def atOut (i : Instr) (j : BitVec 5) : State := { inPhase i .out with st := mac40, tb := 2, j := j }
/-- Section 2.3: the second byte of the 9-bit tag is masked to 80. -/
theorem test_generate_tag_writes :
    onward (exec .generateTag (atOut .generateTag 1)) (fun t =>
      byteAt t 0x4001 == 0x80 && byteAt t 0x4000 == 0 && t.j == 2 && t.trace == [.memWrite 0x4001 0x80]) = true := by
  decide
/-- Section 2.2: 17 bytes are two blocks; a 9-bit tag is two bytes. -/
theorem test_generate_tag_check :
    onward (exec .generateTag (inPhase .generateTag .check)) (fun t =>
      t.n == 2 && t.nb == 17 && t.tb == 2 && t.i == 1 && t.phase == .lock) = true := by decide
/-- Section 2.4: supplied byte 00 against df. -/
theorem test_verify_tag_compares :
    onward (exec .verifyTag (atOut .verifyTag 0)) (fun t =>
      t.acc == 0xdf && t.trace == [.memRead 0x4000] && t.mem == memory) = true := by decide
theorem test_verify_tag_verdict :
    onward (exec .verifyTag { atOut .verifyTag 2 with acc := 0x80 }) (fun t => t.pres == AUTH_FAILED && t.phase == .done)
      = true := by decide

/-- Program 2: a dropped command reads as OVR; STATUS of AUTH_FAILED with OVR and READY is 0x26. -/
theorem test_status_word :
    statusWord { ready operands willing with result := AUTH_FAILED, ovr := true } = 0x00000026 ∧
      statusWord { ready operands willing with result := SUCCESS } = 0x00000002 ∧
      statusWord { keyless with ovr := false, result := DEVICE_TIMEOUT } = 0x00000030 := by decide
/-- WAIT polls again while BUSY is 1, with an engine turn between two polls, and ends when it is 0. -/
theorem test_wait :
    (waitPoll (inPhase .free .check)).sched = [.engine, .host .wait] ∧ (waitPoll keyless).sched = [] := by decide
/-- The first step after reset of a placed command is its CHECK. -/
theorem test_first_step :
    onward (step (State.reset.withFetchWord 32 7)) (fun t => t.phase == .clear && t.lat.cmd == 7) = true ∧
      onward (step (State.reset.withFetchWord 32 4)) (fun t => t.phase == .done && t.pres == BAD_INPUT) = true := by
  decide

/-! ### Legal states -/

theorem memory_wf : Memory.wf memory = true := by decide
theorem readyCtx_keyBytes : keyBytes readyCtx = keyA := by decide

theorem readyCtx_derived : SubkeysDerived readyCtx := by
  simp only [SubkeysDerived, readyCtx_keyBytes]; rfl
theorem readyCtx_length : readyCtx.key.length = 32 := by decide
theorem readyCtx_tail :
    readyCtx.key.drop (readyCtx.keyBits.toNat / 8) = List.replicate (32 - readyCtx.keyBits.toNat / 8) 0 := by decide
theorem readyCtx_legal : readyCtx.family ∈ Config.families ∧ readyCtx.keyBits ∈ Config.keySizes readyCtx.family := by
  decide

theorem legal_readyOn {m : List Host.Cell} (hm : Memory.wf m = true) (r : Regs) (d : Device) (hl : d.locks = [])
    (hb : 3 ∈ d.bindings) : Inv (readyOn m r d) := by
  refine ⟨⟨?_, ?_, ?_, ?_, ?_, ?_, ?_, ?_, ?_, ?_, ?_, ?_⟩,
    ⟨readyCtx_length, readyCtx_tail, ?_, fun _ => rfl, fun _ => readyCtx_derived, fun _ => readyCtx_legal, ?_, ?_, ?_, ?_, ?_,
      ?_, ?_, ?_, ?_, ?_, ?_⟩, ⟨fun _ => ⟨rfl, rfl, rfl, rfl, rfl, rfl, rfl⟩, ?_, ?_, ?_⟩,
    ⟨hm, ?_, ?_, fun _ => hb⟩⟩
  all_goals simp [readyOn, State.reset, readyCtx, lockedPhases, SUCCESS, AUTH_FAILED, DEVICE_TIMEOUT, DEVICE_FAULT,
    shownError, hl]

theorem legal_ready (r : Regs) (d : Device) (hl : d.locks = []) (hb : 3 ∈ d.bindings) : Inv (ready r d) :=
  legal_readyOn memory_wf r d hl hb

theorem legal_keyless : Inv keyless := by
  refine ⟨⟨?_, ?_, ?_, ?_, ?_, ?_, ?_, ?_, ?_, ?_, ?_, ?_⟩,
    ⟨rfl, rfl, fun _ => ⟨rfl, rfl⟩, ?_, ?_, ?_, fun _ => rfl, fun _ _ => ⟨rfl, rfl, rfl, rfl, rfl, rfl, rfl, rfl⟩, ?_, ?_,
      ?_, ?_, ?_, ?_, ?_, ?_, ?_⟩, ⟨fun _ => ⟨rfl, rfl, rfl, rfl, rfl, rfl, rfl⟩, ?_, ?_, ?_⟩, ⟨memory_wf, ?_, ?_, ?_⟩⟩
  all_goals simp [keyless, State.reset, lockedPhases, SUCCESS, AUTH_FAILED, DEVICE_TIMEOUT, DEVICE_FAULT,
    shownError, Context.zero, Device.fresh]

/-- An idle block whose last command ended with the given result. -/
def ended (i : Instr) (r : BitVec 4) (c : Word) : State :=
  { ready operands willing with result := r, devError := c, pres := r, pcode := c, lat := (inPhase i .idle).lat }

theorem legal_ended :
    Inv (ended .verifyTag AUTH_FAILED 0) ∧ Inv (ended .generateTag DEVICE_FAULT 0x2A) ∧
      Inv (ended .setkey DEVICE_TIMEOUT 0) := by
  have hd : decode (encode .verifyTag) = some .verifyTag ∧ decode (encode .generateTag) = some .generateTag ∧
      decode (encode .setkey) = some .setkey := by decide
  refine ⟨?_, ?_, ?_⟩
  all_goals
    refine ⟨⟨?_, ?_, ?_, ?_, ?_, ?_, ?_, ?_, ?_, ?_, ?_, ?_⟩,
      ⟨readyCtx_length, readyCtx_tail, ?_, fun _ => rfl, fun _ => readyCtx_derived, fun _ => readyCtx_legal, ?_, ?_, ?_, ?_,
        ?_, ?_, ?_, ?_, ?_, ?_, ?_⟩, ⟨fun _ => ⟨rfl, rfl, rfl, rfl, rfl, rfl, rfl⟩, ?_, ?_, ?_⟩,
      ⟨memory_wf, ?_, ?_, fun _ => by decide⟩⟩
  all_goals simp [ended, inPhase, accept, hd, ready, readyOn, State.reset, readyCtx, lockedPhases, SUCCESS, AUTH_FAILED,
    DEVICE_TIMEOUT, DEVICE_FAULT, shownError, willing, deviceWith, Device.fresh, tagCommand, unfailedPhases]

/-- A GENERATE_TAG just accepted. -/
def accepted : State := inPhase .generateTag .check

theorem legal_accepted : Inv accepted := by
  have hd : decode (encode .generateTag) = some .generateTag := by decide
  refine ⟨⟨?_, ?_, ?_, ?_, ?_, ?_, ?_, ?_, ?_, ?_, ?_, ?_⟩,
    ⟨readyCtx_length, readyCtx_tail, ?_, fun _ => rfl, fun _ => readyCtx_derived, fun _ => readyCtx_legal, ?_, ?_, ?_, ?_, ?_,
      ?_, ?_, ?_, ?_, ?_, ?_⟩, ⟨fun _ => ⟨rfl, rfl, rfl, rfl, rfl, rfl, rfl⟩, ?_, ?_, ?_⟩,
    ⟨memory_wf, ?_, ?_, fun _ => by decide⟩⟩
  all_goals simp [accepted, inPhase, accept, hd, ready, readyOn, State.reset, readyCtx, lockedPhases, SUCCESS, AUTH_FAILED,
    DEVICE_TIMEOUT, DEVICE_FAULT, shownError, willing, deviceWith, Device.fresh, tagCommand, phasesOf, rekeying]

/-- A GENERATE_TAG at its first block. -/
def atBlock : State :=
  { inPhase .generateTag .block with
    n := 2, i := 1, nb := 17, tb := 2, lockHeld := true, lockInst := 3, dev := { willing with locks := [3] } }

theorem legal_atBlock : Inv atBlock := by
  have hd : decode (encode .generateTag) = some .generateTag := by decide
  refine ⟨⟨?_, ?_, ?_, ?_, ?_, ?_, ?_, ?_, ?_, ?_, ?_, ?_⟩,
    ⟨readyCtx_length, readyCtx_tail, ?_, fun _ => rfl, fun _ => readyCtx_derived, fun _ => readyCtx_legal, ?_, ?_, ?_, ?_, ?_,
      ?_, ?_, ?_, ?_, ?_, ?_⟩, ⟨?_, fun _ _ => by decide, ?_, ?_⟩, ⟨memory_wf, ?_, ?_, fun _ => by decide⟩⟩
  all_goals simp [atBlock, inPhase, accept, hd, ready, readyOn, State.reset, readyCtx, lockedPhases, SUCCESS, AUTH_FAILED,
    DEVICE_TIMEOUT, DEVICE_FAULT, shownError, willing, deviceWith, Device.fresh, tagCommand, phasesOf, rekeying]

/-- A SETKEY that is about to bind its key. -/
def atBind : State :=
  { inPhase .setkey .bind with
    ctx := { readyCtx with ready := false, bound := false, boundInst := 0, k1 := 0, k2 := 0 }, dev := willing }

theorem legal_atBind : Inv atBind := by
  have hd : decode (encode .setkey) = some .setkey := by decide
  refine ⟨⟨?_, ?_, ?_, ?_, ?_, ?_, ?_, ?_, ?_, ?_, ?_, ?_⟩,
    ⟨readyCtx_length, readyCtx_tail, ?_, ?_, ?_, ?_, ?_, ?_, fun _ _ => by decide, ?_, ?_,
      ?_, ?_, ?_, ?_, ?_, ?_⟩, ⟨fun _ => ⟨rfl, rfl, rfl, rfl, rfl, rfl, rfl⟩, ?_, ?_, ?_⟩,
    ⟨memory_wf, ?_, ?_, ?_⟩⟩
  all_goals simp [atBind, inPhase, accept, hd, ready, readyOn, State.reset, readyCtx, lockedPhases, SUCCESS, AUTH_FAILED,
    DEVICE_TIMEOUT, DEVICE_FAULT, shownError, willing, deviceWith, Device.fresh, tagCommand, phasesOf, rekeying,
    operands]

/-- The same after its last block, about to release. -/
def atRelease : State := { atBlock with phase := .release, i := 2, st := mac40 }

theorem legal_atRelease : Inv atRelease := by
  have hd : decode (encode .generateTag) = some .generateTag := by decide
  refine ⟨⟨?_, ?_, ?_, ?_, ?_, ?_, ?_, ?_, ?_, ?_, ?_, ?_⟩,
    ⟨readyCtx_length, readyCtx_tail, ?_, fun _ => rfl, fun _ => readyCtx_derived, fun _ => readyCtx_legal, ?_, ?_, ?_,
      ?_, ?_, ?_, ?_, ?_, ?_, ?_, ?_⟩, ⟨?_, fun _ _ => by decide, ?_, ?_⟩, ⟨memory_wf, ?_, ?_, fun _ => by decide⟩⟩
  all_goals simp [atRelease, atBlock, inPhase, accept, hd, ready, readyOn, State.reset, readyCtx, lockedPhases, SUCCESS,
    AUTH_FAILED, DEVICE_TIMEOUT, DEVICE_FAULT, shownError, willing, deviceWith, Device.fresh, tagCommand, phasesOf,
    rekeying]

/-- A FREE that is about to clear. -/
def atClear : State := inPhase .free .clear

theorem legal_atClear : Inv atClear := by
  have hd : decode (encode .free) = some .free := by decide
  refine ⟨⟨?_, ?_, ?_, ?_, ?_, ?_, ?_, ?_, ?_, ?_, ?_, ?_⟩,
    ⟨readyCtx_length, readyCtx_tail, ?_, fun _ => rfl, fun _ => readyCtx_derived, fun _ => readyCtx_legal, ?_, ?_, ?_,
      ?_, ?_, ?_, ?_, ?_, ?_, ?_, ?_⟩, ⟨fun _ => ⟨rfl, rfl, rfl, rfl, rfl, rfl, rfl⟩, ?_, ?_, ?_⟩,
    ⟨memory_wf, ?_, ?_, fun _ => by decide⟩⟩
  all_goals simp [atClear, inPhase, accept, hd, ready, readyOn, State.reset, readyCtx, lockedPhases, SUCCESS,
    AUTH_FAILED, DEVICE_TIMEOUT, DEVICE_FAULT, shownError, willing, deviceWith, Device.fresh, tagCommand, phasesOf,
    rekeying]

/-! ### Witnesses: the step and the window -/

/-- A region that refuses the one byte at `a`, for reads and writes. -/
def refusing (a : Nat) (s : State) : State := { s with refuses := [{ base := a, size := 1, read := true, write := true }] }

theorem witness_StepRunsTheDecodedCommand :
    (accepted.phase ≠ .idle ∧ decode accepted.lat.cmd = some .generateTag ∧ accepted.sched = [] ∧
      ∃ t, exec .generateTag accepted = .next t) ∧
    (let s := refusing 0x300F atBlock
     s.phase ≠ .idle ∧ decode s.lat.cmd = some .generateTag ∧
      exec .generateTag s = .fault (.memoryRefused 0x300F) ∧ { s with sched := [.engine] }.sched = .engine :: []) ∧
    (let s := inPhase .free .lock
     s.phase ≠ .idle ∧ decode s.lat.cmd = some .free ∧ exec .free s = .fault .noStep) :=
  ⟨⟨by decide, by decide, rfl, _, rfl⟩, ⟨by decide, by decide, rfl, rfl⟩, ⟨by decide, by decide, rfl⟩⟩

theorem witness_ReservedWordCompletesWithBadInput :
    Inv (ready operands willing) ∧ (ready operands willing).phase = .idle ∧ rsvOf 0x105 ≠ 0 ∧
      opcodeOf 0x00000000 = 0x00 ∧ 0x08 ≤ opcodeOf 0x00000008 ∧ 0x08 ≤ opcodeOf 0x000000FF :=
  ⟨legal_ready _ _ rfl (by decide), rfl, by decide, by decide, by decide, by decide⟩

/-- One state for each of the five cases, refusing the last byte of the range. -/
theorem witness_RefusedRequestLeavesTheEngineStuck :
    (let s := refusing 0x200F (inPhase .setkey .loadkey)
     s.busy = true ∧ decode s.lat.cmd = some .setkey ∧ s.phase = .loadkey ∧
      ∃ m < keyLen s.lat, admitsRead s (byteAddr s.lat.keyAddr m) = false) ∧
    (let s := refusing 0x300F atBlock
     s.busy = true ∧ tagCommand s ∧ s.phase = .block ∧ s.i < s.n ∧
      ∃ m < 16, admitsRead s (byteAddr (blockAddr s) m) = false) ∧
    (let s := refusing 0x3010 { atBlock with i := 2 }
     s.busy = true ∧ tagCommand s ∧ s.phase = .block ∧ s.i = s.n ∧
      ∃ m < lastLen s, admitsRead s (byteAddr (blockAddr s) m) = false) ∧
    (let s := refusing 0x4001 (atOut .generateTag 1)
     s.busy = true ∧ decode s.lat.cmd = some .generateTag ∧ s.phase = .out ∧ s.j < s.tb ∧
      admitsWrite s (tagByteAddr s) = false) ∧
    (let s := refusing 0x4001 (atOut .verifyTag 1)
     s.busy = true ∧ decode s.lat.cmd = some .verifyTag ∧ s.phase = .out ∧ s.j < s.tb ∧
      admitsRead s (tagByteAddr s) = false) :=
  ⟨⟨by decide, by decide, by decide, 15, by decide, by decide⟩,
    ⟨by decide, .inl (by decide), by decide, by decide, 15, by decide, by decide⟩,
    ⟨by decide, .inl (by decide), by decide, by decide, 0, by decide, by decide⟩,
    by decide, by decide⟩

/-- Every defined offset at the ends of its group, a byte access at a defined offset, a word access off by 2, a bus address
of the window. -/
theorem witness_OnlyAlignedWordAccessesAreDefined :
    ¬ (Width.byte = .word ∧ (0x04 : BitVec 6).toNat % 4 = 0) ∧ ¬ (Width.word = .word ∧ (0x02 : BitVec 6).toNat % 4 = 0) ∧
      (Width.word = .word ∧ (0x00 : BitVec 6).toNat % 4 = 0) ∧ (Width.word = .word ∧ (0x3C : BitVec 6).toNat % 4 = 0) ∧
      windowOffset Config.base ≠ none :=
  ⟨by decide, by decide, by decide, by decide, windowOffset_base⟩

/-- An address outside the window, and a block that is busy and one that is not. -/
theorem witness_HostReachesMemoryAndPollsStatus :
    (∃ a : Word, windowOffset a = none) ∧ Memory.wf accepted.mem = true ∧ accepted.busy = true ∧ keyless.busy = false :=
  ⟨exists_outside, memory_wf, rfl, rfl⟩

theorem witness_HostWritesReachOnlyTheirRegister :
    (0x0C : BitVec 6) ∈ [(0x0C : BitVec 6), 0x10, 0x14, 0x18, 0x1C, 0x20, 0x24, 0x28, 0x2C] ∧
      (0x2C : BitVec 6) ∈ [(0x0C : BitVec 6), 0x10, 0x14, 0x18, 0x1C, 0x20, 0x24, 0x28, 0x2C] ∧
      (0x04 : BitVec 6) ≠ 0x0C ∧ (0x3C : BitVec 6) ∈ [(0x04 : BitVec 6), 0x08, 0x30, 0x34, 0x38, 0x3C] := by decide

theorem witness_AcceptanceLatchesTheCommand : (ready operands willing).busy = false ∧ keyless.busy = false := ⟨rfl, rfl⟩

theorem witness_DroppedCommandOnlySetsOvr : accepted.busy = true ∧ atBlock.busy = true := ⟨rfl, rfl⟩

theorem witness_ResetSetsEveryFieldAndAbandonsTheCommand :
    { atBlock with sched := [.reset, .engine] }.sched = .reset :: [.engine] := rfl

theorem witness_DoneCompletesEveryCommand :
    ((ready operands willing).phase = .idle ∧ Turn.host .wait ≠ .reset ∧
      (∀ w, Turn.host .wait ≠ .host (.write 0x00 .word w)) ∧
      takeTurn (.host .wait) (ready operands willing) =
        .next { ready operands willing with readData := statusWord (ready operands willing) }) ∧
    (inPhase .init .done).phase = .done ∧ { inPhase .setkey .done with pres := DEVICE_FAULT, pcode := 7 }.phase = .done ∧
      { inPhase .verifyTag .done with pres := AUTH_FAILED }.phase = .done := 
  ⟨⟨rfl, by decide, fun _ => by simp, rfl⟩, rfl, rfl, rfl⟩

/-- A granted answer with no other holder, the same with another holder, and a failed answer laid down. -/
theorem witness_LockFollowsTheDevicesAnswer :
    (let s := inPhase .generateTag .lock
     s.phase = .lock ∧ s.dev.acquireAnswers = .granted :: [.granted] ∧ effInst s.ctx ∉ s.dev.otherLocks) ∧
    (let s := { inPhase .setkey .lock with dev := { willing with otherLocks := [3] } }
     s.phase = .lock ∧ effInst s.ctx ∈ s.dev.otherLocks) ∧
    (let s := { inPhase .verifyTag .lock with dev := deviceWith [] [.err 9] [] }
     s.phase = .lock ∧ s.dev.acquireAnswers = .err 9 :: []) :=
  ⟨⟨rfl, rfl, by decide⟩, ⟨rfl, by decide⟩, ⟨rfl, rfl⟩⟩

theorem witness_ReleaseGivesTheLockBack :
    Inv atRelease ∧ atRelease.phase = .release ∧ { atBlock with phase := .release }.phase = .release ∧
      { inPhase .setkey .release with pres := DEVICE_FAULT, lockInst := 3 }.phase = .release :=
  ⟨legal_atRelease, rfl, rfl, rfl⟩

/-- A step that encrypts, one that binds and one that unbinds, each from a legal state. -/
theorem witness_EncryptOnlyUnderTheLock :
    (Inv atBlock ∧ ∃ t x, engineTurn atBlock = .next t ∧
      t.trace = atBlock.trace ++ ((bufferAddrs 0x3000 16).map .memRead ++ [.cipherEncrypt 3 1 128 keyA x])) ∧
    (Inv atBind ∧ ∃ t, engineTurn atBind = .next t ∧ t.trace = atBind.trace ++ [.cipherBind 3 1 128 keyA]) ∧
    (Inv atClear ∧ ∃ t, engineTurn atClear = .next t ∧ t.trace = atClear.trace ++ [.cipherUnbind 3]) :=
  ⟨⟨legal_atBlock, _, _, rfl, by
      have h : keyBytes atBlock.ctx = keyA := readyCtx_keyBytes
      rw [← h]; rfl⟩,
    ⟨legal_atBind, _, rfl, by
      have h : keyBytes atBind.ctx = keyA := by decide
      rw [← h]; rfl⟩,
    ⟨legal_atClear, _, rfl, rfl⟩⟩

/-- CHECK of each kind of word, passing and failing. -/
theorem witness_BadInputHasExactlyItsCauses :
    (∃ t, engineTurn { inPhase .setkey .done with pres := BAD_INPUT } = .next t ∧ t.pres = BAD_INPUT) ∧
    (accepted.phase = .check ∧ accepted.pres = SUCCESS) ∧
    (accept keyless 0x105).phase = .check ∧ (accept keyless 0x105).pres = SUCCESS ∧
    (inPhase .setkey .check).phase = .check ∧ (inPhase .setkey .check).pres = SUCCESS :=
  ⟨⟨_, rfl, rfl⟩, ⟨rfl, rfl⟩, rfl, rfl, rfl, rfl⟩

/-! ### Witnesses: the datapath -/

theorem witness_DoublerBitForm : (3 ≤ 3 ∧ 3 ≤ 6) ∧ (3 ≤ 6 ∧ 6 ≤ 6) ∧ (8 ≤ 8 ∧ 8 ≤ 127) ∧ (8 ≤ 127 ∧ 127 ≤ 127) := by
  decide

theorem witness_BlockBytesConvertBigEndian :
    0 < 16 ∧ 15 < 16 ∧ 0 < 8 ∧ 7 < 8 ∧ keyB.length = 16 ∧ (List.replicate 16 (0xFF : Byte)).length = 16 := by decide

theorem witness_PaddingAppendsOneBit :
    ([] : List Byte).length ≤ 15 ∧ (counting 0 15).length ≤ 15 := by decide

/-- Each clause at its boundary: whole byte, partial byte, past the end of a whole and of a partial tag. -/
theorem witness_MaskHasExactlyTheTagBits :
    (127 ≤ 127 ∧ 14 < 16 ∧ 14 < 127 / 8) ∧ (15 < 16 ∧ 15 = 127 / 8 ∧ 127 % 8 ≠ 0) ∧
      (8 ≤ 127 ∧ 1 = 8 / 8 ∧ 8 % 8 = 0) ∧ (0 ≤ 127 ∧ 0 / 8 < 15) := by decide

theorem witness_ComparatorMatchesExactlyEqualTagBits :
    (127 ≤ 127 ∧ (bytes16 mac40).length = tagBytes 127) ∧ (9 ≤ 127 ∧ [(0xdf : Byte), 0x80].length = tagBytes 9) ∧
      (0 ≤ 127 ∧ ([] : List Byte).length = tagBytes 0) ∧ 15 < tagBytes 127 := by decide

theorem witness_ShorterTagIsMaskedPrefix :
    (8 ≤ 127 ∧ 127 ≤ 127 ∧ 0 < tagBytes 8) ∧ (127 ≤ 127 ∧ 15 < tagBytes 127) := by decide

/-! ### Witnesses: the commands -/

theorem witness_InitAndFreeClearTheContext :
    (inPhase .init .check).phase = .check ∧ (inPhase .free .clear).phase = .clear ∧
      { keyless with phase := .clear }.phase = .clear ∧ { keyless with phase := .clear }.ctx.bound = false :=
  ⟨rfl, rfl, rfl, rfl⟩

theorem witness_SettersWriteOnlyTheirPair :
    (inPhase .setDeviceInstance .check).phase = .check ∧ (inPhase .setLockWaitTicks .setcfg).phase = .setcfg := ⟨rfl, rfl⟩

/-- A key that ends at the top of the address space, and one that is one byte too high. -/
theorem witness_SetkeyCheckAcceptsExactlyTheAesKeys :
    (let s := accept (ready { operands with keyAddr := 0xFFFFFFF0 } willing) (encode .setkey)
     s.phase = .check ∧ s.lat.family = 1 ∧ (s.lat.keyBits = 128 ∨ s.lat.keyBits = 256) ∧
      s.lat.keyAddr.toNat + s.lat.keyBits.toNat / 8 ≤ 2 ^ 32) ∧
    (let s := accept (ready { operands with keyAddr := 0xFFFFFFF1 } willing) (encode .setkey)
     s.phase = .check ∧ ¬ (s.lat.family = 1 ∧ (s.lat.keyBits = 128 ∨ s.lat.keyBits = 256) ∧
      s.lat.keyAddr.toNat + s.lat.keyBits.toNat / 8 ≤ 2 ^ 32)) := by decide

theorem witness_SetkeyDiscardsOldKeyAndCleansUp :
    (inPhase .setkey .discard).phase = .discard ∧ (inPhase .setkey .discard).ctx.bound = true ∧
      { keyless with phase := .cleanup }.phase = .cleanup ∧ { keyless with phase := .cleanup }.ctx.bound = false :=
  ⟨rfl, rfl, rfl, rfl⟩

/-- A state that refuses nothing admits every access. -/
theorem admits_all {s : State} (h : s.refuses = []) (a : Word) : admitsRead s a = true ∧ admitsWrite s a = true := by
  simp [admitsRead, admitsWrite, h]

theorem witness_SetkeyLoadsAndBindsTheKey :
    (let s := inPhase .setkey .loadkey
     s.phase = .loadkey ∧ AdmitsReads s s.lat.keyAddr (keyLen s.lat) ∧ keyLen s.lat = 16) ∧
    atBind.phase = .bind ∧ atBind.dev.bindAnswers = .ok :: [] :=
  ⟨⟨rfl, fun _ _ => (admits_all rfl _).1, by decide⟩, rfl, rfl⟩

theorem witness_SetkeyDerivesTheSubkeys :
    (let s := inPhase .setkey .encL
     s.phase = .encL ∧ s.dev.encryptAnswers = .ok :: [.ok, .ok, .ok]) ∧ (inPhase .setkey .subkeys).phase = .subkeys :=
  ⟨⟨rfl, rfl⟩, rfl⟩

/-- The longest tag at the top of the address space; one bit more; a message that is not whole bytes. -/
theorem witness_TagCheckAcceptsAndInitialises :
    (let s := accept (ready { operands with tagAddr := 0xFFFFFFF0, tagLenBits := 127 } willing) (encode .generateTag)
     s.phase = .check ∧ s.ctx.ready = true ∧ s.lat.dataLenBits.toNat % 8 = 0 ∧ s.lat.tagLenBits.toNat < 128 ∧
      s.lat.dataAddr.toNat + s.lat.dataLenBits.toNat / 8 ≤ 2 ^ 32 ∧
      s.lat.tagAddr.toNat + (s.lat.tagLenBits.toNat + 7) / 8 ≤ 2 ^ 32) ∧
    (let s := accept (ready { operands with tagLenBits := 128 } willing) (encode .verifyTag)
     s.phase = .check ∧ ¬ s.lat.tagLenBits.toNat < 128) ∧
    (let s := accept (ready { operands with dataLenBits := 12 } willing) (encode .verifyTag)
     s.phase = .check ∧ ¬ s.lat.dataLenBits.toNat % 8 = 0) := by decide

theorem witness_BlockStepChainsOneBlock :
    (atBlock.phase = .block ∧ atBlock.i < atBlock.n ∧ AdmitsReads atBlock (blockAddr atBlock) 16 ∧
      atBlock.dev.encryptAnswers = .ok :: [.ok, .ok, .ok]) ∧
    (let s := { atBlock with i := 2 }
     s.phase = .block ∧ s.i = s.n ∧ AdmitsReads s (blockAddr s) (lastLen s) ∧ lastLen s = 1) :=
  ⟨⟨rfl, by decide, fun _ _ => (admits_all rfl _).1, rfl⟩, ⟨rfl, rfl, fun _ _ => (admits_all rfl _).1, by decide⟩⟩

theorem witness_GenerateTagWritesOneByteAStep :
    (let s := atOut .generateTag 1
     s.phase = .out ∧ Memory.wf s.mem = true ∧ s.j < s.tb ∧ admitsWrite s (tagByteAddr s) = true) ∧
    (let s := atOut .generateTag 2
     s.phase = .out ∧ Memory.wf s.mem = true ∧ ¬ s.j < s.tb) := by decide

theorem witness_VerifyTagComparesOneByteAStep :
    (let s := atOut .verifyTag 1
     s.phase = .out ∧ s.j < s.tb ∧ admitsRead s (tagByteAddr s) = true) ∧
    (let s := atOut .verifyTag 2
     s.phase = .out ∧ ¬ s.j < s.tb) := by decide

/-! ### Witnesses: frames -/

theorem witness_LifecycleCommandsLeaveTheRestAlone :
    (∃ t, exec .init (inPhase .init .clear) = .next t) ∧ (∃ t, exec .free (inPhase .free .done) = .next t) ∧
      (∃ t, exec .setDeviceInstance (inPhase .setDeviceInstance .setcfg) = .next t) ∧
      (∃ t, exec .setLockWaitTicks (inPhase .setLockWaitTicks .setcfg) = .next t) :=
  ⟨⟨_, rfl⟩, ⟨_, rfl⟩, ⟨_, rfl⟩, ⟨_, rfl⟩⟩

theorem witness_SetkeyLeavesTheRestAlone :
    (∃ t, exec .setkey (inPhase .setkey .loadkey) = .next t) ∧ (∃ t, exec .setkey (inPhase .setkey .done) = .next t) :=
  ⟨⟨_, rfl⟩, ⟨_, rfl⟩⟩

theorem witness_TagCommandsLeaveTheContextAlone :
    (Memory.wf (atOut .generateTag 1).mem = true ∧ ∃ t, exec .generateTag (atOut .generateTag 1) = .next t) ∧
      (Memory.wf (atOut .verifyTag 0).mem = true ∧ ∃ t, exec .verifyTag (atOut .verifyTag 0) = .next t) ∧
      ∃ t, exec .verifyTag (inPhase .verifyTag .done) = .next t :=
  ⟨⟨by decide, _, rfl⟩, ⟨by decide, _, rfl⟩, _, rfl⟩

theorem witness_OnlyTagBytesAreWrittenToMemory :
    onward (engineTurn (atOut .generateTag 0)) (fun t =>
      t.mem != (atOut .generateTag 0).mem && t.trace.contains (.memWrite 0x4000 0xdf)) = true := by decide

/-! ### Witnesses: whole commands -/

theorem legal_willing (r : Regs) : Inv (ready r willing) := legal_ready r willing rfl (by decide)

theorem witness_InitAndFreeRunToTheZeroedContext :
    Inv (ready operands willing) ∧ (ready operands willing).phase = .idle ∧ Inv keyless ∧ keyless.phase = .idle ∧
      keyless.ctx.bound = false :=
  ⟨legal_willing _, rfl, legal_keyless, rfl, rfl⟩

theorem witness_SettersRunToTheirPair : Inv (ready operands willing) ∧ (ready operands willing).phase = .idle :=
  ⟨legal_willing _, rfl⟩

/-- From a ready block (an old binding) and from one without a key. -/
theorem witness_SetkeyRunDerivesSubkeys :
    let s := ready operands willing
    let k := { keyless with dev := { Device.fresh with
      bindAnswers := [.ok], acquireAnswers := [.granted], encryptAnswers := [.ok] } }
    (Inv s ∧ s.phase = .idle ∧ setkeyCheck (accept s (encode .setkey)).lat = true ∧
      AdmitsReads s s.regs.keyAddr (s.regs.keyBits.toNat / 8) ∧ s.dev.bindAnswers = .ok :: [] ∧
      s.dev.acquireAnswers = .granted :: [.granted] ∧ s.dev.encryptAnswers = .ok :: [.ok, .ok, .ok] ∧
      effInst s.ctx ∉ s.dev.otherLocks) ∧
    (setkeyCheck (accept k (encode .setkey)).lat = true ∧ k.dev.bindAnswers = .ok :: [] ∧
      k.dev.acquireAnswers = .granted :: [] ∧ k.dev.encryptAnswers = .ok :: [] ∧ k.ctx.bound = false) :=
  ⟨⟨legal_willing _, rfl, by decide, fun _ _ => (admits_all rfl _).1, rfl, rfl, rfl, by decide⟩,
    ⟨by decide, rfl, rfl, rfl, rfl⟩⟩

/-- One device for each of the failures, and operands that fail the check. -/
theorem witness_SetkeyEndsOnAFailureAsTheTableSays :
    (let s := ready { operands with keyBits := 192 } willing
     Inv s ∧ s.phase = .idle ∧ setkeyCheck (accept s (encode .setkey)).lat = false) ∧
    (∀ d : Device, d.locks = [] → 3 ∈ d.bindings →
      let s := ready operands d
      Inv s ∧ s.phase = .idle ∧ setkeyCheck (accept s (encode .setkey)).lat = true ∧
        AdmitsReads s s.regs.keyAddr (s.regs.keyBits.toNat / 8)) ∧
    (deviceWith [.err 1] [] []).bindAnswers = .err 1 :: [] ∧
    (deviceWith [.ok] [.timeout] []).acquireAnswers = .timeout :: [] ∧
    (deviceWith [.ok] [.err 2] []).acquireAnswers = .err 2 :: [] ∧
    (deviceWith [.ok] [.granted] [.err 3]).encryptAnswers = .err 3 :: [] ∧
    3 ∉ (deviceWith [.ok] [.granted] [.err 3]).otherLocks :=
  ⟨⟨legal_willing _, rfl, by decide⟩,
    fun _ hl hb => ⟨legal_ready _ _ hl hb, rfl,
      (by decide : setkeyCheck (accept (ready operands willing) (encode .setkey)).lat = true),
      fun _ _ => (admits_all rfl _).1⟩,
    rfl, rfl, rfl, rfl, by decide⟩

theorem witness_GenerateTagWritesTheCmac :
    let s := ready operands willing
    let s0 := accept s (encode .generateTag)
    Inv s ∧ s.phase = .idle ∧ tagCheck s0 = true ∧ AdmitsReads s s.regs.dataAddr (dataLen s0.lat) ∧
      AdmitsWrites s s.regs.tagAddr (tagLen s0.lat) ∧ s.dev.acquireAnswers = .granted :: [.granted] ∧
      effInst s.ctx ∉ s.dev.otherLocks ∧
      s.dev.encryptAnswers = List.replicate (blockCount s0) .ok ++ [.ok, .ok] ∧ 1 < tagLen s0.lat :=
  ⟨legal_willing _, rfl, by decide, fun _ _ => (admits_all rfl _).1, fun _ _ => (admits_all rfl _).2, rfl, by decide,
    by decide, by decide⟩

/-- The empty message and the empty tag. -/
theorem witness_VerifyTagAcceptsExactlyTheCmac :
    (let s := ready operands willing
     let s0 := accept s (encode .verifyTag)
     Inv s ∧ s.phase = .idle ∧ tagCheck s0 = true ∧ AdmitsReads s s.regs.dataAddr (dataLen s0.lat) ∧
      AdmitsReads s s.regs.tagAddr (tagLen s0.lat) ∧ s.dev.acquireAnswers = .granted :: [.granted] ∧
      effInst s.ctx ∉ s.dev.otherLocks ∧ s.dev.encryptAnswers = List.replicate (blockCount s0) .ok ++ [.ok, .ok]) ∧
    (let s := ready { operands with dataLenBits := 0, tagLenBits := 0 } willing
     let s0 := accept s (encode .verifyTag)
     Inv s ∧ tagCheck s0 = true ∧ dataLen s0.lat = 0 ∧ tagLen s0.lat = 0 ∧
      s.dev.encryptAnswers = List.replicate (blockCount s0) .ok ++ [.ok, .ok, .ok]) :=
  ⟨⟨legal_willing _, rfl, by decide, fun _ _ => (admits_all rfl _).1, fun _ _ => (admits_all rfl _).1, rfl, by decide,
    by decide⟩, ⟨legal_willing _, by decide, by decide, by decide, by decide⟩⟩

/-- A failed check, a failed lock of each kind, and an encryption that fails at the first and at the last block. -/
theorem witness_TagCommandFailuresWriteNothing :
    (let s := ready { operands with tagLenBits := 128 } willing
     Inv s ∧ s.phase = .idle ∧ tagCheck (accept s (encode .generateTag)) = false) ∧
    (∀ d : Device, d.locks = [] → 3 ∈ d.bindings →
      let s := ready operands d
      Inv s ∧ s.phase = .idle ∧ tagCheck (accept s (encode .verifyTag)) = true ∧
        AdmitsReads s s.regs.dataAddr (dataLen (accept s (encode .verifyTag)).lat) ∧
        blockCount (accept s (encode .verifyTag)) = 2) ∧
    (deviceWith [] [.timeout] []).acquireAnswers = .timeout :: [] ∧
    (deviceWith [] [.err 2] []).acquireAnswers = .err 2 :: [] ∧
    (deviceWith [] [.granted] [.err 3]).encryptAnswers = List.replicate (1 - 1) .ok ++ .err 3 :: [] ∧
    (deviceWith [] [.granted] [.ok, .err 3]).encryptAnswers = List.replicate (2 - 1) .ok ++ .err 3 :: [] ∧
    3 ∉ (deviceWith [] [.granted] [.ok, .err 3]).otherLocks :=
  ⟨⟨legal_willing _, rfl, by decide⟩,
    fun _ hl hb => ⟨legal_ready _ _ hl hb, rfl,
      (by decide : tagCheck (accept (ready operands willing) (encode .verifyTag)) = true),
      fun _ _ => (admits_all rfl _).1,
      (by decide : nblocks (dataLen (accept (ready operands willing) (encode .verifyTag)).lat) = 2)⟩,
    rfl, rfl, rfl, rfl, by decide⟩

/-- Memory that differs in the supplied tag only. -/
theorem witness_VerifyTagIsConstantTime :
    let s := ready operands willing
    message (accept s (encode .verifyTag)) =
      message (accept { s with mem := Memory.store memory 0x4000 0xFF } (encode .verifyTag)) ∧
    byteAt s 0x4000 ≠ byteAt { s with mem := Memory.store memory 0x4000 0xFF } 0x4000 := by decide

theorem witness_GeneratedTagVerifies :
    let s := ready operands willing
    let s0 := accept s (encode .generateTag)
    Inv s ∧ s.phase = .idle ∧ tagCheck s0 = true ∧ AdmitsReads s s.regs.dataAddr (dataLen s0.lat) ∧
      AdmitsWrites s s.regs.tagAddr (tagLen s0.lat) ∧ AdmitsReads s s.regs.tagAddr (tagLen s0.lat) ∧
      (∀ m < dataLen s0.lat, ∀ j < tagLen s0.lat, byteAddr s.regs.dataAddr m ≠ byteAddr s.regs.tagAddr j) ∧
      s.dev.acquireAnswers = .granted :: .granted :: [] ∧ effInst s.ctx ∉ s.dev.otherLocks ∧
      s.dev.encryptAnswers = List.replicate (blockCount s0 + blockCount s0) .ok ++ [] :=
  ⟨legal_willing _, rfl, by decide, fun _ _ => (admits_all rfl _).1, fun _ _ => (admits_all rfl _).2,
    fun _ _ => (admits_all rfl _).1, by decide, rfl, by decide, by decide⟩

/-- A tag of one bit, supplied as 0 or as 1. -/
def oneBit (b : Byte) : State :=
  readyOn (Memory.store [] 0x4000 b) { operands with dataLenBits := 0, tagLenBits := 1 } willing

/-- The MAC of the empty message under the key, whatever E is. -/
def mac0 : Block := macWith Config.encrypt 1 128 (keyBytes readyCtx) readyCtx.k1 readyCtx.k2 []

/-- The state after its CHECK. -/
def oneBitLock (b : Byte) : State :=
  { accept (oneBit b) (encode .verifyTag) with phase := .lock, n := 1, i := 1, nb := 0, tb := 1 }

/-- The state after its LOCK. -/
def oneBitBlock (b : Byte) : State :=
  { oneBitLock b with
    phase := .block
    lockHeld := true
    lockInst := 3
    dev := { willing with acquireAnswers := [.granted], locks := [3] }
    trace := [.cipherAcquire 3 100] }

/-- The state in which its tag is compared. -/
def oneBitOut (b : Byte) : State :=
  { oneBitLock b with
    phase := .out
    st := mac0
    dev := { willing with acquireAnswers := [.granted], encryptAnswers := [.ok, .ok, .ok], locks := [3].filter (· != 3) }
    trace := [.cipherAcquire 3 100] ++ (List.range 1).flatMap (fun m => blockRequests (oneBitBlock b) (m + 1)) ++
      [.cipherRelease 3] }

theorem oneBit_out (b : Byte) : engineTurns 4 (accept (oneBit b) (encode .verifyTag)) = .next (oneBitOut b) := by
  have hd : decode (encode .verifyTag) = some .verifyTag := by decide
  have h1 : engineTurn (accept (oneBit b) (encode .verifyTag)) = .next (oneBitLock b) :=
    engineTurn_of_exec (by simp [accept]) hd (by
      simp [exec, execVerifyTag, accept, checkTag, tagCheck, oneBit, readyOn, readyCtx, operands, fits, dataLen, tagLen,
        tagBytes, tagInit, nblocks, oneBitLock, State.reset])
  have h2 : engineTurn (oneBitLock b) = .next (oneBitBlock b) :=
    engineTurn_of_exec (i := .verifyTag) (by simp [oneBitLock]) hd rfl
  have hb : blockCount (oneBitBlock b) = 1 := (by decide : nblocks ((0 : Word).toNat / 8) = 1)
  have h3 := blocksRun (q := oneBitBlock b) (es := [.ok, .ok, .ok]) rfl (.inr hd) rfl rfl
    (hb ▸ (by decide : (1 : Word).toNat = 1)) (by decide : (0 : Word).toNat = (0 : Word).toNat / 8)
    (fun _ _ => (admits_all rfl _).1) (by rw [hb]; rfl)
  have hm : message (oneBitBlock b) = [] :=
    List.length_eq_zero_iff.mp ((length_readBuffer _ _ _).trans (by decide : (0 : Word).toNat / 8 = 0))
  rw [hb, hm] at h3
  rw [engineTurns_succ h1, engineTurns_succ h2, show 2 = 1 + 1 from rfl, engineTurns_add 1 h3]
  refine engineTurns_succ (engineTurn_of_exec (i := .verifyTag) (by simp) hd ?_)
  rfl

theorem oneBit_run (b : Byte) (hb : b = 0 ∨ b = 0x80) :
    ∃ u, engineTurns 7 (accept (oneBit b) (encode .verifyTag)) = .next u ∧
      u.result = verdict ((byteOf mac0 0 ^^^ b) &&& 0x80) := by
  have hd : decode (oneBitOut b).lat.cmd = some .verifyTag := (by decide : decode (encode .verifyTag) = some .verifyTag)
  have hlen : tagLen (oneBitOut b).lat = 1 := (by decide : tagBytes (1 : Word).toNat = 1)
  have h1 := compareLoop (q := oneBitOut b) rfl hd rfl (by rw [hlen]; rfl) (by omega)
    (fun _ _ => (admits_all rfl _).1) 1 (by omega)
  have hb' : byteAt (oneBitOut b) (oneBitOut b).lat.tagAddr = b := by
    rcases hb with rfl | rfl <;> decide
  have ht1 : (oneBitOut b).lat.tagLenBits.toNat = 1 := rfl
  have hmask : tagMask 1 0 = 0x80 := by decide
  have ha : (oneBitOut b).acc = 0 := rfl
  have hs : (oneBitOut b).st = mac0 := rfl
  have ht : (oneBitOut b).tb = 1 := rfl
  simp only [readBuffer, bufferAddrs, List.range_succ, List.range_zero, List.nil_append, List.map_cons, List.map_nil,
    byteAddr_zero, compareFrom, compareByte, hb', ha, hs, ht1, hmask] at h1
  rw [show 7 = 4 + (1 + 2) from rfl, engineTurns_add _ (oneBit_out b), engineTurns_add _ h1]
  simp [engineTurns, engineTurn, commandStep, show (oneBitOut b).phase = .out from rfl, hd, exec, execVerifyTag, verifyOut, ht]

/-- One of the two supplied bits verifies: the other hypotheses hold for both. -/
theorem witness_FlippedTagBitFailsVerification :
    ∃ b : Byte,
      let s := oneBit b
      let s0 := accept s (encode .verifyTag)
      Inv s ∧ s.phase = .idle ∧ tagCheck s0 = true ∧ 0 < s.regs.tagLenBits.toNat ∧
        AdmitsReads s s.regs.dataAddr (dataLen s0.lat) ∧ AdmitsReads s s.regs.tagAddr (tagLen s0.lat) ∧
        (∀ m < dataLen s0.lat, byteAddr s.regs.dataAddr m ≠ byteAddr s.regs.tagAddr (0 / 8)) ∧
        s.dev.acquireAnswers = .granted :: [.granted] ∧ effInst s.ctx ∉ s.dev.otherLocks ∧
        s.dev.encryptAnswers = List.replicate (blockCount s0) .ok ++ [.ok, .ok, .ok] ∧
        ∃ u, engineTurns (blockCount s0 + tagLen s0.lat + 5) s0 = .next u ∧ u.result = SUCCESS := by
  have hx : ∀ x : Byte, verdict ((x ^^^ 0) &&& 0x80) = SUCCESS ∨ verdict ((x ^^^ 0x80) &&& 0x80) = SUCCESS := by decide
  rcases hx (byteOf mac0 0) with h | h
  · obtain ⟨u, hu, hr⟩ := oneBit_run 0 (.inl rfl)
    exact ⟨0, legal_readyOn (by decide) _ _ rfl (by decide), rfl, by decide, by decide, fun _ _ => (admits_all rfl _).1,
      fun _ _ => (admits_all rfl _).1, by decide, rfl, by decide, by decide, u, hu, hr.trans h⟩
  · obtain ⟨u, hu, hr⟩ := oneBit_run 0x80 (.inr rfl)
    exact ⟨0x80, legal_readyOn (by decide) _ _ rfl (by decide), rfl, by decide, by decide,
      fun _ _ => (admits_all rfl _).1, fun _ _ => (admits_all rfl _).1, by decide, rfl, by decide, by decide, u, hu,
      hr.trans h⟩

/-- Two SETKEY runs that end with SUCCESS, the second with another key before it. -/
theorem witness_SetkeyIsDeterministic :
    let s1 := ready operands willing
    let s2 := ready operands (deviceWith [.ok] [.granted] [.ok])
    Inv s1 ∧ Inv s2 ∧ s1.phase = .idle ∧ s2.phase = .idle ∧ s1.regs.cipherFamily = s2.regs.cipherFamily ∧
      s1.regs.keyBits = s2.regs.keyBits ∧
      readBuffer s1 s1.regs.keyAddr (s1.regs.keyBits.toNat / 8) =
        readBuffer s2 s2.regs.keyAddr (s2.regs.keyBits.toNat / 8) ∧
      (∃ t1, engineTurns 9 (accept s1 (encode .setkey)) = .next t1 ∧ t1.phase = .idle ∧ t1.result = SUCCESS) ∧
      ∃ t2, engineTurns 9 (accept s2 (encode .setkey)) = .next t2 ∧ t2.phase = .idle ∧ t2.result = SUCCESS :=
  ⟨legal_willing _, legal_ready _ _ rfl (by decide), rfl, rfl, rfl, rfl, rfl, ⟨_, rfl, rfl, rfl⟩, ⟨_, rfl, rfl, rfl⟩⟩

/-! ### Witnesses: invariants -/

theorem witness_EveryStepKeepsTheStateLegal :
    (Inv accepted ∧ ∃ t, step accepted = .next t) ∧ (Inv atBind ∧ ∃ t, step atBind = .next t) :=
  ⟨⟨legal_accepted, _, rfl⟩, ⟨legal_atBind, _, rfl⟩⟩

theorem witness_IdleContextIsKeyedOrCleared :
    (Inv (ready operands willing) ∧ (ready operands willing).phase = .idle ∧
      (ready operands willing).ctx.ready = true) ∧
    (Inv keyless ∧ keyless.phase = .idle ∧ keyless.ctx.ready = false) :=
  ⟨⟨legal_willing _, rfl, rfl⟩, ⟨legal_keyless, rfl, rfl⟩⟩

theorem witness_ResultsAreLegalAndComeFromTheirCommands :
    (Inv (ended .verifyTag AUTH_FAILED 0) ∧ (ended .verifyTag AUTH_FAILED 0).result = AUTH_FAILED) ∧
    (Inv (ended .generateTag DEVICE_FAULT 0x2A) ∧ (ended .generateTag DEVICE_FAULT 0x2A).result = DEVICE_FAULT) ∧
    (Inv (ended .setkey DEVICE_TIMEOUT 0) ∧ (ended .setkey DEVICE_TIMEOUT 0).result = DEVICE_TIMEOUT) ∧
    (Inv atBlock ∧ atBlock.busy = true) :=
  ⟨⟨legal_ended.1, rfl⟩, ⟨legal_ended.2.1, rfl⟩, ⟨legal_ended.2.2, rfl⟩, ⟨legal_atBlock, rfl⟩⟩

/-- The refusal, of a narrow register access and of a byte access to the window, and a schedule without one. -/
theorem witness_LegalStatesStepUnlessTheAccessIsUndefined :
    (let s := { keyless with sched := [.host (.read 0x02 .word)] }
     Inv s ∧ s.sched = .host (.read 0x02 .word) :: [] ∧ UndefinedAccess (.read 0x02 .word)) ∧
    (let op := HostOp.store Config.base 0x5A
     Inv { atBlock with sched := [.host op] } ∧ UndefinedAccess op) ∧
    (Inv { keyless with sched := [.engine] } ∧
      ∀ op rest, { keyless with sched := [.engine] }.sched = .host op :: rest → ¬ UndefinedAccess op) :=
  ⟨⟨legal_keyless.around _ _ _, rfl, fun h => absurd h.2 (by decide)⟩,
    ⟨legal_atBlock.around _ _ _, windowOffset_base⟩,
    ⟨legal_keyless.around _ _ _, fun _ _ h => by cases h⟩⟩

/-- A tag command, and a SETKEY, in whose address space only bytes outside their buffers are refused. -/
theorem witness_EveryCommandCompletes :
    (let s := { atBlock with refuses := [⟨0xF0000000, 4, true, true⟩] }
     Inv s ∧ RequestsAdmitted s ∧ admitsWrite s 0xF0000003 = false) ∧
    (let s := { atBind with refuses := [⟨0xF0000000, 4, true, true⟩] }
     Inv s ∧ RequestsAdmitted s ∧ admitsRead s 0xF0000000 = false) :=
  ⟨⟨legal_atBlock.around _ _ _, fun _ => ⟨by unfold AdmitsReads; decide, by unfold AdmitsWrites; decide⟩, by decide⟩,
    ⟨legal_atBind.around _ _ _, fun _ => by unfold AdmitsReads; decide, by decide⟩⟩

end Sys2Proof.Tests
end

section
/-! SUPPORT. Big-endian bytes and blocks: what `be128`, `byteOf` and `bytes16` do to bits and to numbers (R11). -/

namespace Sys2Proof.Machine

@[simp] theorem be128_nil : be128 [] = 0 := rfl

@[simp] theorem be128_concat (b : List Byte) (x : Byte) :
    be128 (b ++ [x]) = (be128 b <<< 8) ||| x.setWidth 128 := by
  simp [be128]

/-- Bit `i` of a big-endian number stands in byte `i / 8` counted from the last byte. -/
theorem getLsbD_be128 (b : List Byte) (i : Nat) :
    (be128 b).getLsbD i = (decide (i < 128) && (b.reverse.getD (i / 8) 0).getLsbD (i % 8)) := by
  induction b using List.reverseRecOn generalizing i with
  | nil => simp
  | append_singleton b x ih =>
    rw [be128_concat, BitVec.getLsbD_or, BitVec.getLsbD_shiftLeft, BitVec.getLsbD_setWidth, ih, List.reverse_concat]
    by_cases hi : i < 8
    · simp [hi, Nat.div_eq_of_lt hi, Nat.mod_eq_of_lt hi]
    · obtain ⟨k, rfl⟩ : ∃ k, i = k + 8 := ⟨i - 8, by omega⟩
      have hk : k + 8 < 128 → k < 128 := by omega
      by_cases h : k + 8 < 128 <;> simp [h, hk]

/-- The number of `n` bytes is below `2 ^ (8 * n)`. -/
theorem toNat_be128_lt (b : List Byte) : (be128 b).toNat < 2 ^ (8 * b.length) := by
  apply Nat.lt_pow_two_of_testBit
  intro i hi
  have hlen : b.reverse.length ≤ i / 8 := by rw [List.length_reverse]; omega
  rw [BitVec.testBit_toNat, getLsbD_be128, List.getD_eq_default _ _ hlen]
  simp

/-- A further byte of a number that still fits the block. -/
theorem toNat_be128_concat {b : List Byte} (h : b.length < 16) (x : Byte) :
    (be128 (b ++ [x])).toNat = (be128 b).toNat * 2 ^ 8 + x.toNat := by
  have hb : (be128 b).toNat < 2 ^ 120 :=
    (toNat_be128_lt b).trans_le (Nat.pow_le_pow_right (by decide) (by omega))
  have hx : x.toNat < 2 ^ 8 := x.isLt
  rw [be128_concat, BitVec.toNat_or, BitVec.toNat_shiftLeft, BitVec.toNat_setWidth, Nat.shiftLeft_eq,
    Nat.mod_eq_of_lt (by omega), Nat.mod_eq_of_lt (by omega), ← Nat.shiftLeft_eq, Nat.shiftLeft_add_eq_or_of_lt hx]

/-- R11's sum, for up to 16 bytes: byte `j` weighs as many bytes as follow it. -/
theorem toNat_be128 {b : List Byte} (h : b.length ≤ 16) :
    (be128 b).toNat =
      ((List.range b.length).map fun j => (b.getD j 0).toNat * 2 ^ (8 * (b.length - 1 - j))).sum := by
  induction b using List.reverseRecOn with
  | nil => simp
  | append_singleton b x ih =>
    rw [List.length_append, List.length_singleton] at h ⊢
    have earlier : ∀ j ∈ List.range b.length,
        ((b ++ [x]).getD j 0).toNat * 2 ^ (8 * (b.length + 1 - 1 - j)) =
          (b.getD j 0).toNat * 2 ^ (8 * (b.length - 1 - j)) * 2 ^ 8 := by
      intro j hj
      rw [List.mem_range] at hj
      rw [List.getD_append _ _ _ _ hj, Nat.mul_assoc, ← Nat.pow_add]
      congr 2
      omega
    rw [toNat_be128_concat (by omega), ih (by omega), List.range_succ, List.map_append, List.sum_append,
      List.map_congr_left earlier, List.sum_map_mul_right]
    simp

@[simp] theorem be128_replicate_zero (n : Nat) : be128 (List.replicate n 0) = 0 := by
  induction n with
  | zero => rfl
  | succ n ih => rw [List.replicate_succ', be128_concat, ih]; decide

/-- Bit `k` of byte `j` is bit `120 - 8 * j + k` of the block (R11). -/
theorem getLsbD_byteOf (x : Block) (j : Nat) {k : Nat} (h : k < 8) :
    (byteOf x j).getLsbD k = x.getLsbD (120 - 8 * j + k) := by
  simp [byteOf, h]

@[simp] theorem length_bytes16 (x : Block) : (bytes16 x).length = 16 := by
  simp [bytes16]

@[simp] theorem getElem_bytes16 (x : Block) {j : Nat} (h : j < (bytes16 x).length) :
    (bytes16 x)[j] = byteOf x j := by
  simp [bytes16]

theorem getD_bytes16 (x : Block) {j : Nat} (h : j < 16) : (bytes16 x).getD j 0 = byteOf x j := by
  rw [List.getD_eq_getElem _ _ (by simpa using h), getElem_bytes16]

/-- Byte `j` of the number of 16 bytes is the `j`th of them. -/
theorem byteOf_be128 {b : List Byte} (hb : b.length = 16) {j : Nat} (hj : j < b.length) :
    byteOf (be128 b) j = b[j] := by
  apply BitVec.eq_of_getLsbD_eq
  intro k hk
  have hbyte : (120 - 8 * j + k) / 8 = 15 - j := by omega
  have hbit : (120 - 8 * j + k) % 8 = k := by omega
  have hlast : 15 - j < b.reverse.length := by rw [List.length_reverse]; omega
  have hrev : b.reverse[15 - j] = b[j] := by
    rw [List.getElem_reverse]; congr 1; omega
  rw [getLsbD_byteOf _ _ hk, getLsbD_be128, hbyte, hbit, List.getD_eq_getElem _ _ hlast, hrev]
  simp only [Bool.and_eq_right_iff_imp, decide_eq_true_eq]
  omega

theorem bytes16_be128 {b : List Byte} (hb : b.length = 16) : bytes16 (be128 b) = b :=
  List.ext_getElem (by simp [hb]) fun j _ hj => by rw [getElem_bytes16, byteOf_be128 hb hj]

@[simp] theorem be128_bytes16 (x : Block) : be128 (bytes16 x) = x := by
  apply BitVec.eq_of_getLsbD_eq
  intro i hi
  have hlast : i / 8 < (bytes16 x).reverse.length := by rw [List.length_reverse, length_bytes16]; omega
  have hpos : 120 - 8 * (16 - 1 - i / 8) + i % 8 = i := by omega
  rw [getLsbD_be128, List.getD_eq_getElem _ _ hlast, List.getElem_reverse, getElem_bytes16,
    getLsbD_byteOf _ _ (Nat.mod_lt _ (by decide)), length_bytes16, hpos]
  simp [hi]

/-- Settles O24: both conversions are followed bit by bit, and the sum byte by byte from the last. -/
theorem blockBytesConvertBigEndian : Obligations.BlockBytesConvertBigEndian := by
  unfold Obligations.BlockBytesConvertBigEndian
  refine ⟨fun x => ⟨be128_bytes16 x, length_bytes16 x, fun j hj k hk => ?_⟩, fun b hb => ⟨bytes16_be128 hb, ?_⟩,
    be128_replicate_zero 16⟩
  · rw [getD_bytes16 x hj, getLsbD_byteOf x j hk]
  · rw [toNat_be128 hb.le, hb]

end Sys2Proof.Machine
end

section
/-! SUPPORT. The register window, as numbers: BASE and the window's addresses (R8, R20, R97). -/

namespace Sys2Proof.Machine

theorem toNat_base : Config.base.toNat = 0x40 * Config.baseIndex.toNat := by
  rw [Config.base, BitVec.toNat_append, Nat.shiftLeft_eq]
  simp [Nat.mul_comm]

/-- Masking with 0xFFFFFFC0 rounds down to a multiple of 0x40. -/
theorem toNat_and_windowMask (a : Word) : (a &&& 0xFFFFFFC0).toNat = 0x40 * (a.toNat / 0x40) := by
  have hshift : a &&& (0xFFFFFFC0 : Word) = (a >>> 6) <<< 6 := by
    apply BitVec.eq_of_getElem_eq
    intro i hi
    rw [BitVec.getElem_and]
    interval_cases i <;> simp
  have ha : a.toNat < 2 ^ 32 := a.isLt
  rw [hshift, BitVec.toNat_shiftLeft, BitVec.toNat_ushiftRight, Nat.shiftLeft_eq, Nat.shiftRight_eq_div_pow]
  omega

/-- An address is in the window at an offset exactly when it is BASE plus the offset, with no wrap-around. -/
theorem windowOffset_eq_some_iff {a : Word} {off : BitVec 6} :
    windowOffset a = some off ↔ a.toNat = Config.base.toNat + off.toNat := by
  have hoff : off.toNat < 0x40 := off.isLt
  have hmask : a &&& 0xFFFFFFC0 = Config.base ↔ 0x40 * (a.toNat / 0x40) = Config.base.toNat := by
    rw [← BitVec.toNat_inj, toNat_and_windowMask]
  have hlow : a.extractLsb' 0 6 = off ↔ a.toNat % 0x40 = off.toNat := by
    rw [← BitVec.toNat_inj, BitVec.extractLsb'_toNat]; simp
  rw [windowOffset, Option.ite_none_right_eq_some, Option.some_inj, hmask, hlow, toNat_base]
  omega

/-- The bus address of an offset does not wrap: BASE is a multiple of 0x40. -/
theorem toNat_regAddress (off : BitVec 6) : (regAddress off).toNat = Config.base.toNat + off.toNat := by
  have hoff : off.toNat < 0x40 := off.isLt
  have hbase : Config.baseIndex.toNat < 2 ^ 26 := Config.baseIndex.isLt
  rw [regAddress, BitVec.toNat_add, BitVec.toNat_setWidth, toNat_base]
  omega

@[simp] theorem windowOffset_regAddress (off : BitVec 6) : windowOffset (regAddress off) = some off :=
  windowOffset_eq_some_iff.mpr (toNat_regAddress off)

/-- Settles O11: the mask compares the address without its low six bits with BASE, and those bits are the offset. -/
theorem windowHoldsTheAddressesFromBase : Obligations.WindowHoldsTheAddressesFromBase := by
  unfold Obligations.WindowHoldsTheAddressesFromBase
  refine ⟨?_, windowOffset_regAddress, fun a off => ?_⟩
  · rw [toNat_base, Nat.mul_mod_right]
  · rw [windowOffset_eq_some_iff]
    omega

end Sys2Proof.Machine
end

section
/-! SUPPORT. The control part of the invariant: busy, phase, results and the lock bits, and how each kind of phase
change keeps it (R23, R26, R27, R51, R125 to R127). -/

namespace Sys2Proof.Machine

/-! ### The fields each part of the invariant speaks of -/

/-- The fields that `ControlInv` speaks of. -/
def controlPart (s : State) :=
  (s.busy, s.phase, s.lat, s.result, s.devError, s.pres, s.pcode, s.lockHeld, s.lockInst)

/-- The fields that `ContextInv` speaks of. -/
def contextPart (s : State) := (s.ctx, s.lat, s.phase, s.L, s.pres)

/-- The working registers that DONE zeroes and `ScratchZero` speaks of. -/
def scratchPart (s : State) := (s.n, s.i, s.nb, s.tb, s.j, s.st, s.acc)

/-- The fields that `TagInv` speaks of: READY is all that the check of R200 takes from the context. -/
def tagPart (s : State) := (s.lat, s.phase, s.ctx.ready, scratchPart s)

/-- The fields that `OutsideInv` speaks of. -/
def outsidePart (s : State) :=
  (s.mem, s.dev.locks, s.dev.otherLocks, s.lockHeld, s.lockInst, s.ctx.bound, s.ctx.boundInst, s.dev.bindings)

variable {s t : State}

theorem ControlInv.congr (h : ControlInv s) (e : controlPart t = controlPart s) : ControlInv t := by
  cases s; cases t
  simp only [controlPart, Prod.mk.injEq] at e
  obtain ⟨rfl, rfl, rfl, rfl, rfl, rfl, rfl, rfl, rfl⟩ := e
  cases h; constructor <;> assumption

theorem ContextInv.congr (h : ContextInv s) (e : contextPart t = contextPart s) : ContextInv t := by
  cases s; cases t
  simp only [contextPart, Prod.mk.injEq] at e
  obtain ⟨rfl, rfl, rfl, rfl, rfl⟩ := e
  cases h; constructor <;> assumption

theorem ScratchZero.congr (h : ScratchZero s) (e : scratchPart t = scratchPart s) : ScratchZero t := by
  cases s; cases t
  simp only [scratchPart, Prod.mk.injEq] at e
  obtain ⟨rfl, rfl, rfl, rfl, rfl, rfl, rfl⟩ := e
  cases h; constructor <;> assumption

theorem tagCheck_congr (hr : t.ctx.ready = s.ctx.ready) (hl : t.lat = s.lat) : tagCheck t = tagCheck s := by
  simp only [tagCheck, hr, hl]

theorem TagInv.congr (h : TagInv s) (e : tagPart t = tagPart s) : TagInv t := by
  simp only [tagPart, Prod.mk.injEq] at e
  obtain ⟨hl, hp, hr, hs⟩ := e
  have hcheck := tagCheck_congr hr hl
  obtain ⟨hscratch, hchecked, hbefore, hcompared⟩ := h
  refine ⟨?_, ?_, ?_, ?_⟩
  · unfold tagCommand at *
    rw [hl, hp]
    exact fun hn => (hscratch hn).congr hs
  all_goals
    simp only [scratchPart, Prod.mk.injEq] at hs
    obtain ⟨hn, hi, hnb, htb, hj, hst, hacc⟩ := hs
    unfold tagCommand at *
    simpa only [hl, hp, hcheck, hn, hi, hnb, htb, hj, hacc]

theorem OutsideInv.congr (h : OutsideInv s) (e : outsidePart t = outsidePart s) : OutsideInv t := by
  simp only [outsidePart, Prod.mk.injEq] at e
  obtain ⟨hmem, hlocks, hother, hheld, hinst, hbound, hboundInst, hbindings⟩ := e
  obtain ⟨hcanon, hone, hlock, hbinding⟩ := h
  constructor
  · rwa [hmem]
  · rwa [hlocks, hother]
  · rwa [hheld, hinst, hlocks]
  · rwa [hbound, hboundInst, hbindings]

/-- A state that differs only in fields that no part of the invariant speaks of is legal as well. -/
theorem Inv.congr (h : Inv s) (hc : controlPart t = controlPart s) (hx : contextPart t = contextPart s)
    (ht : tagPart t = tagPart s) (ho : outsidePart t = outsidePart s) : Inv t :=
  ⟨h.control.congr hc, h.context.congr hx, h.tag.congr ht, h.outside.congr ho⟩

/-! ### The phases of a command -/

theorem idle_notMem_phasesOf (c : Option Instr) : .idle ∉ phasesOf c := by
  rcases c with _ | c
  · decide
  · cases c <;> decide

/-- Every command word has a CHECK and a DONE (R125). -/
theorem check_mem_phasesOf (c : Option Instr) : .check ∈ phasesOf c := by
  rcases c with _ | c
  · decide
  · cases c <;> decide

theorem done_mem_phasesOf (c : Option Instr) : .done ∈ phasesOf c := by
  rcases c with _ | c
  · decide
  · cases c <;> decide

/-- The phases that only SETKEY passes through (R125). -/
theorem eq_setkey_of_mem_phasesOf {c : Option Instr} {p : Phase} (h : p ∈ phasesOf c)
    (hp : p ∈ [Phase.discard, .loadkey, .bind, .encL, .subkeys, .cleanup]) : c = some .setkey := by
  rcases c with _ | c
  · revert p; decide
  · revert p; cases c <;> decide

theorem ControlInv.setkey_of_phase (h : ControlInv s)
    (hp : s.phase ∈ [Phase.discard, .loadkey, .bind, .encL, .subkeys, .cleanup]) :
    decode s.lat.cmd = some .setkey := by
  have hne : s.phase ≠ .idle := fun hi => by simp [hi] at hp
  exact eq_setkey_of_mem_phasesOf (h.on_path hne) hp

/-- GENERATE_TAG and VERIFY_TAG have one path. -/
theorem phasesOf_of_tagCommand (h : tagCommand s) : phasesOf (decode s.lat.cmd) = phasesOf (some .generateTag) := by
  rcases h with h | h <;> simp only [h, phasesOf]

/-! ### The pending result and the lock bits -/

/-- The clauses of `ControlInv` about the result that DONE is to show. -/
structure PendingInv (s : State) : Prop where
  pres_legal : s.pres.toNat ≤ 4
  pcode_fault : s.pres ≠ DEVICE_FAULT → s.pcode = 0
  unfailed : s.phase ∈ unfailedPhases → s.pres = SUCCESS
  cleanup_failed : s.phase = .cleanup → s.pres ≠ SUCCESS
  auth_from_verify : s.pres = AUTH_FAILED → decode s.lat.cmd = some .verifyTag
  device_failure : s.pres = DEVICE_TIMEOUT ∨ s.pres = DEVICE_FAULT → decode s.lat.cmd = some .setkey ∨ tagCommand s

/-- The clauses of `ControlInv` about the lock bits. -/
structure LockInv (s : State) : Prop where
  lock_held : s.lockHeld = true ↔ s.phase ∈ lockedPhases
  lock_inst : s.lockHeld = false → s.lockInst = 0

theorem ControlInv.not_held (h : ControlInv s) (hp : s.phase ∉ lockedPhases) : s.lockHeld = false := by
  rw [← Bool.not_eq_true, h.lock_held]; exact hp

theorem ControlInv.busy_of_phase (h : ControlInv s) (hp : s.phase ≠ .idle) : s.busy = true := h.busy_iff.mpr hp

/-- While no failure is recorded the device's code is 0. -/
theorem ControlInv.pcode_of_success (h : ControlInv s) (hs : s.pres = SUCCESS) : s.pcode = 0 :=
  h.pcode_fault (by rw [hs]; decide)

/-- What an engine step that is not DONE leaves alone: the shown results and the latch (R26, R127). -/
def shownPart (s : State) := (s.busy, s.result, s.devError, s.lat)

/-- An engine step along the command's path, given its pending result and its lock bits. -/
theorem ControlInv.next (h : ControlInv s) (hp : s.phase ≠ .idle) (he : shownPart t = shownPart s)
    (hq : t.phase ∈ phasesOf (decode s.lat.cmd)) (hpend : PendingInv t) (hlock : LockInv t) : ControlInv t := by
  simp only [shownPart, Prod.mk.injEq] at he
  obtain ⟨hbusy, hresult, herror, hlat⟩ := he
  have hbusy' : t.busy = true := hbusy.trans (h.busy_of_phase hp)
  have hne : t.phase ≠ .idle := fun hi => idle_notMem_phasesOf _ (hi ▸ hq)
  exact
    { hpend, hlock with
      busy_iff := ⟨fun _ => hne, fun _ => hbusy'⟩
      on_path := fun _ => hlat ▸ hq
      hidden_while_busy := fun _ => by rw [hresult, herror]; exact h.hidden_while_busy (h.busy_of_phase hp)
      shown_when_idle := fun hi => by rw [hbusy'] at hi; cases hi }

/-- With SUCCESS pending every phase but CLEANUP is allowed. -/
theorem PendingInv.of_success (hs : s.pres = SUCCESS) (hc : s.pcode = 0) (hq : s.phase ≠ .cleanup) : PendingInv s where
  pres_legal := by rw [hs]; decide
  pcode_fault := fun _ => hc
  unfailed := fun _ => hs
  cleanup_failed := fun h => absurd h hq
  auth_from_verify := fun h => absurd (hs.symm.trans h) (by decide)
  device_failure := fun h => h.elim (fun h => absurd (hs.symm.trans h) (by decide))
    fun h => absurd (hs.symm.trans h) (by decide)

variable {p q : Phase}

/-- A step to the next phase before anything has failed, with the lock as it is. -/
theorem ControlInv.forward {c : Option Instr} (h : ControlInv s) (hp : s.phase = p)
    (hd : phasesOf (decode s.lat.cmd) = phasesOf c) (hq : q ∈ phasesOf c := by decide)
    (hu : p ∈ unfailedPhases := by decide) (hc : q ≠ .cleanup := by decide)
    (hl : p ∈ lockedPhases ↔ q ∈ lockedPhases := by decide) : ControlInv (s.goto q) := by
  have hs : s.pres = SUCCESS := h.unfailed (hp ▸ hu)
  refine h.next (fun hi => ?_) rfl (hd ▸ hq) (.of_success hs (h.pcode_of_success hs) hc)
    ⟨h.lock_held.trans (hp ▸ hl), h.lock_inst⟩
  rw [← hp, hi] at hu; revert hu; decide

/-- A step that leaves the pending result as it is, into a phase that allows it. -/
theorem ControlInv.pending_kept (h : ControlInv s) (hpres : t.pres = s.pres) (hcode : t.pcode = s.pcode)
    (hlat : t.lat = s.lat) (hu : t.phase ∈ unfailedPhases → s.pres = SUCCESS)
    (hc : t.phase = .cleanup → s.pres ≠ SUCCESS) : PendingInv t where
  pres_legal := hpres ▸ h.pres_legal
  pcode_fault := by rw [hpres, hcode]; exact h.pcode_fault
  unfailed := by rw [hpres]; exact hu
  cleanup_failed := by rw [hpres]; exact hc
  auth_from_verify := by rw [hpres, hlat]; exact h.auth_from_verify
  device_failure := by unfold tagCommand; rw [hpres, hlat]; exact h.device_failure

/-- `finish(r)` (R126) with SUCCESS, BAD_INPUT or the verdict of VERIFY_TAG. -/
theorem ControlInv.finished {r : BitVec 4} (h : ControlInv s) (hp : s.phase = p) (hr : r.toNat ≤ 2)
    (ha : r = AUTH_FAILED → decode s.lat.cmd = some .verifyTag) (hu : p ∈ unfailedPhases := by decide)
    (hl : p ∉ lockedPhases := by decide) (hne : p ≠ .idle := by decide) : ControlInv (s.finish r) := by
  have hpend : PendingInv (s.finish r) :=
    { pres_legal := hr.trans (by decide)
      pcode_fault := fun _ => h.pcode_of_success (h.unfailed (hp ▸ hu))
      unfailed := fun hx => absurd hx (by simp [unfailedPhases])
      cleanup_failed := fun hx => by cases hx
      auth_from_verify := ha
      device_failure := fun hx => by rcases hx with rfl | rfl <;> exact absurd hr (by decide) }
  exact h.next (hp ▸ hne) rfl (done_mem_phasesOf _) hpend
    ⟨by simp [h.not_held (hp ▸ hl), lockedPhases], h.lock_inst⟩

/-- A failure of the device in SETKEY or a tag command (R126, R130), with the lock as it is. -/
theorem ControlInv.failed {c : Option Instr} {r : BitVec 4} {code : Word} (h : ControlInv s) (hp : s.phase = p)
    (hr : r = DEVICE_TIMEOUT ∧ code = 0 ∨ r = DEVICE_FAULT) (hcmd : decode s.lat.cmd = some .setkey ∨ tagCommand s)
    (hd : phasesOf (decode s.lat.cmd) = phasesOf c) (hq : q ∈ phasesOf c := by decide)
    (hne : p ≠ .idle := by decide) (hu : q ∉ unfailedPhases := by decide)
    (hl : p ∈ lockedPhases ↔ q ∈ lockedPhases := by decide) : ControlInv ((s.fail r code).goto q) := by
  have hcode : r = DEVICE_TIMEOUT ∨ r = DEVICE_FAULT := hr.imp And.left id
  have hpend : PendingInv ((s.fail r code).goto q) :=
    { pres_legal := show r.toNat ≤ 4 by rcases hcode with rfl | rfl <;> decide
      pcode_fault := fun hx => (hr.resolve_right hx).2
      unfailed := fun hx => absurd hx hu
      cleanup_failed := fun _ => show r ≠ SUCCESS by rcases hcode with rfl | rfl <;> decide
      auth_from_verify := fun hx => absurd hx (show r ≠ AUTH_FAILED by rcases hcode with rfl | rfl <;> decide)
      device_failure := fun _ => hcmd }
  exact h.next (hp ▸ hne) rfl (hd ▸ hq) hpend ⟨h.lock_held.trans (hp ▸ hl), h.lock_inst⟩

/-- LOCK on a grant (R131). -/
theorem ControlInv.locked {c : Option Instr} {inst : Word} (h : ControlInv s) (hp : s.phase = .lock)
    (hd : phasesOf (decode s.lat.cmd) = phasesOf c) (hq : q ∈ phasesOf c := by decide)
    (hl : q ∈ lockedPhases := by decide) (hc : q ≠ .cleanup := by decide) :
    ControlInv { s with lockHeld := true, lockInst := inst, phase := q } := by
  have hs : s.pres = SUCCESS := h.unfailed (hp ▸ by decide)
  exact h.next (hp ▸ by decide) rfl (hd ▸ hq) (.of_success hs (h.pcode_of_success hs) hc)
    ⟨by simp [hl], fun hx => by cases hx⟩

/-- RELEASE (R132) into a phase that its pending result allows. -/
theorem ControlInv.unlocked {c : Option Instr} (h : ControlInv s) (hp : s.phase = .release)
    (hd : phasesOf (decode s.lat.cmd) = phasesOf c) (hu : q ∈ unfailedPhases → s.pres = SUCCESS)
    (hc : q = .cleanup → s.pres ≠ SUCCESS) (hq : q ∈ phasesOf c := by decide)
    (hl : q ∉ lockedPhases := by decide) : ControlInv ((unlockStep s).goto q) :=
  h.next (hp ▸ by decide) rfl (hd ▸ hq) (h.pending_kept rfl rfl rfl hu hc)
    ⟨by simp [hl, unlockStep, State.goto], fun _ => rfl⟩

/-- CLEANUP (R189) keeps the failure it cleans up after. -/
theorem ControlInv.cleaned (h : ControlInv s) (hp : s.phase = .cleanup) : ControlInv (s.goto .done) :=
  h.next (hp ▸ by decide) rfl (done_mem_phasesOf _)
    (h.pending_kept rfl rfl rfl (fun hx => absurd hx (by simp [unfailedPhases])) (fun hx => by cases hx))
    ⟨by simp [h.not_held (hp ▸ by decide), lockedPhases], h.lock_inst⟩

/-- DONE (R127). -/
theorem ControlInv.completed (h : ControlInv s) (hp : s.phase = .done) : ControlInv s.complete := by
  have hheld : s.lockHeld = false := h.not_held (hp ▸ by decide)
  have hpend : PendingInv s.complete :=
    h.pending_kept rfl rfl rfl (fun hx => absurd hx (by simp [unfailedPhases])) (fun hx => by cases hx)
  exact
    { hpend with
      busy_iff := by simp
      on_path := fun hx => absurd rfl hx
      hidden_while_busy := fun hx => by cases hx
      shown_when_idle := fun _ => ⟨rfl, rfl⟩
      lock_held := by simp [hheld, lockedPhases]
      lock_inst := h.lock_inst }

/-- Acceptance of a command word by an idle engine (R120). -/
theorem ControlInv.accepted (h : ControlInv s) (hb : s.busy = false) (w : Word) : ControlInv (accept s w) := by
  have hp : s.phase = .idle := by
    by_contra hne; rw [h.busy_of_phase hne] at hb; cases hb
  have hheld : s.lockHeld = false := h.not_held (hp ▸ by decide)
  have hpend : PendingInv (accept s w) := .of_success rfl rfl (by simp [accept])
  exact
    { hpend with
      busy_iff := by simp [accept]
      on_path := fun _ => check_mem_phasesOf _
      hidden_while_busy := fun _ => ⟨rfl, rfl⟩
      shown_when_idle := fun hx => by cases hx
      lock_held := by simp [accept, hheld, lockedPhases]
      lock_inst := h.lock_inst }

end Sys2Proof.Machine
end

section
/-! SUPPORT. The context part of the invariant: what is true of a context in every phase, what a SETKEY adds in each of
its phases, and that every other command keeps a settled context (R38 to R42, R55, R180 to R189, R244, R245). -/

namespace Sys2Proof.Machine

variable {s t : State} {c : Context}

/-- The clauses of `ContextInv` that no phase changes. -/
structure Context.Sound (c : Context) : Prop where
  key_length : c.key.length = 32
  key_tail : c.key.drop (c.keyBits.toNat / 8) = List.replicate (32 - c.keyBits.toNat / 8) 0
  unready_subkeys : c.ready = false → c.k1 = 0 ∧ c.k2 = 0
  ready_bound : c.ready = true → c.bound = true
  ready_derived : c.ready = true → SubkeysDerived c
  bound_legal : c.bound = true → c.family ∈ Config.families ∧ c.keyBits ∈ Config.keySizes c.family
  unbound_inst : c.bound = false → c.boundInst = 0

theorem ContextInv.sound (h : ContextInv s) : s.ctx.Sound := by cases h; constructor <;> assumption

theorem Unkeyed.sound (h : Unkeyed c) : c.Sound where
  key_length := by rw [h.key]; rfl
  key_tail := by rw [h.key, h.keyBits]; rfl
  unready_subkeys := fun _ => ⟨h.k1, h.k2⟩
  ready_bound := by simp [h.ready]
  ready_derived := by simp [h.ready]
  bound_legal := by simp [h.bound]
  unbound_inst := fun _ => h.boundInst

theorem unkeyed_zero : Unkeyed Context.zero := ⟨rfl, rfl, rfl, rfl, rfl, rfl, rfl, rfl⟩

theorem unkeyed_zeroKeyMaterial (c : Context) : Unkeyed c.zeroKeyMaterial := ⟨rfl, rfl, rfl, rfl, rfl, rfl, rfl, rfl⟩

/-! ### Outside SETKEY's own steps -/

/-- No SETKEY is past its CHECK. -/
def settled (s : State) : Prop := decode s.lat.cmd = some .setkey → s.phase ∈ [Phase.idle, .check, .done]

theorem settled_of_ne (h : decode s.lat.cmd ≠ some .setkey) : settled s := fun hk => absurd hk h

/-- Where only a SETKEY past its CHECK can be there is no settled state. -/
theorem settled.phase_notMem {l : List Phase} (hs : settled s) (hd : decode s.lat.cmd = some .setkey)
    (hl : ∀ p ∈ [Phase.idle, .check, .done], p ∉ l := by decide) : s.phase ∉ l :=
  hl _ (hs hd)

theorem not_rekeying_of_settled (h : settled s) : ¬ rekeying s := fun hr => absurd hr.2 (h.phase_notMem hr.1)

/-- A settled context: keyed and bound, or empty. -/
theorem contextInv_of_settled (hc : ControlInv s) (hs : settled s) (hsound : s.ctx.Sound)
    (hu : s.ctx.ready = false → Unkeyed s.ctx) (hL : s.L = 0) : ContextInv s := by
  have hp : s.phase ∉ [Phase.discard, .loadkey, .bind, .encL, .subkeys, .cleanup] := fun hm =>
    absurd hm (hs.phase_notMem (hc.setkey_of_phase hm))
  have hrelease (hd : decode s.lat.cmd = some .setkey) : s.phase ∉ [Phase.release] := hs.phase_notMem hd
  exact
    { hsound with
      steady := fun _ => hu
      checked := fun hd hq => absurd hq (hs.phase_notMem hd)
      loading := fun hq => absurd (by simp [hq]) hp
      binding := fun hq => absurd (by simp [hq]) hp
      keyed := fun hd hq => absurd hq (hs.phase_notMem hd)
      halfway := fun hd hq => absurd hq (hs.phase_notMem hd)
      released := fun hd hq => absurd (by simp [hq]) (hrelease hd)
      cleaning := fun hq => absurd (by simp [hq]) hp
      subkeys_input := fun hq => absurd (by simp [hq]) hp
      no_stray_L := fun _ => hL }

/-- A step between settled states that leaves the context alone. -/
theorem ContextInv.kept (h : ContextInv s) (hs : settled s) (hc : ControlInv t) (ht : settled t) (hx : t.ctx = s.ctx)
    (hL : t.L = 0) : ContextInv t :=
  contextInv_of_settled hc ht (hx ▸ h.sound) (hx ▸ h.steady (not_rekeying_of_settled hs)) hL

/-! ### The phases of SETKEY -/

/-- The key that a SETKEY has loaded and not yet made ready is the one its latch names (R181, R183). -/
structure LoadedKey (s : State) : Prop where
  checked : setkeyCheck s.lat = true
  family : s.ctx.family = s.lat.family
  keyBits : s.ctx.keyBits = s.lat.keyBits
  ready : s.ctx.ready = false

theorem ContextInv.loadedKey (h : ContextInv s) (hd : decode s.lat.cmd = some .setkey)
    (hp : s.phase ∈ [Phase.lock, .encL, .subkeys]) : LoadedKey s ∧ s.ctx.bound = true := by
  have hkeyed : s.phase ∈ [Phase.bind, .lock, .encL, .subkeys] := List.mem_cons_of_mem _ hp
  have hchecked : s.phase ∈ [Phase.discard, .loadkey, .bind, .lock, .encL, .subkeys] :=
    List.mem_cons_of_mem _ (List.mem_cons_of_mem _ hkeyed)
  obtain ⟨hbound, hready⟩ := h.halfway hd hp
  obtain ⟨hfamily, hbits⟩ := h.keyed hd hkeyed
  exact ⟨⟨h.checked hd hchecked, hfamily, hbits, hready⟩, hbound⟩

/-- A SETKEY between CHECK and DISCARD: the context is still the settled one. -/
theorem contextInv_of_discard (hp : s.phase = .discard) (hs : s.ctx.Sound)
    (hcheck : setkeyCheck s.lat = true) (hu : s.ctx.ready = false → Unkeyed s.ctx) (hL : s.L = 0) : ContextInv s := by
  refine { hs with
      steady := fun _ => hu, checked := ?_, loading := ?_, binding := ?_, keyed := ?_, halfway := ?_, released := ?_,
      cleaning := ?_, subkeys_input := ?_, no_stray_L := ?_ } <;>
    simp [hp, hcheck, hL]

/-- A SETKEY between DISCARD and LOADKEY: nothing is stored. -/
theorem contextInv_of_loadkey (hp : s.phase = .loadkey) (hd : decode s.lat.cmd = some .setkey)
    (hcheck : setkeyCheck s.lat = true) (hu : Unkeyed s.ctx) (hL : s.L = 0) : ContextInv s := by
  refine { hu.sound with
      steady := ?_, checked := ?_, loading := ?_, binding := ?_, keyed := ?_, halfway := ?_, released := ?_,
      cleaning := ?_, subkeys_input := ?_, no_stray_L := ?_ } <;>
    simp [hp, hd, rekeying, hcheck, hu, hL]

/-- A SETKEY between LOADKEY and BIND. -/
theorem contextInv_of_bind (hp : s.phase = .bind) (hd : decode s.lat.cmd = some .setkey) (hs : s.ctx.Sound)
    (hk : LoadedKey s) (hb : s.ctx.bound = false) (hL : s.L = 0) : ContextInv s := by
  obtain ⟨hcheck, hfamily, hbits, hready⟩ := hk
  refine { hs with
      steady := ?_, checked := ?_, loading := ?_, binding := ?_, keyed := ?_, halfway := ?_, released := ?_,
      cleaning := ?_, subkeys_input := ?_, no_stray_L := ?_ } <;>
    simp [hp, hd, rekeying, hcheck, hfamily, hbits, hready, hb, hL]

/-- A SETKEY between BIND and SUBKEYS: the key is bound and not ready. -/
theorem contextInv_of_bound (hp : s.phase ∈ [Phase.lock, .encL, .subkeys]) (hd : decode s.lat.cmd = some .setkey)
    (hs : s.ctx.Sound) (hk : LoadedKey s) (hb : s.ctx.bound = true) (hL : s.phase ≠ .subkeys → s.L = 0)
    (hsub : s.phase = .subkeys → s.L = encryptZero Config.encrypt s.ctx.family s.ctx.keyBits (keyBytes s.ctx)) :
    ContextInv s := by
  obtain ⟨hcheck, hfamily, hbits, hready⟩ := hk
  refine { hs with
      steady := ?_, checked := ?_, loading := ?_, binding := ?_, keyed := ?_, halfway := ?_, released := ?_,
      cleaning := ?_, subkeys_input := hsub, no_stray_L := hL } <;>
  · simp only [List.mem_cons, List.not_mem_nil, or_false] at hp
    rcases hp with hp | hp | hp <;> simp [hp, hd, rekeying, hcheck, hfamily, hbits, hready, hb]

/-- A SETKEY before RELEASE: ready exactly when nothing failed. -/
theorem contextInv_of_release (hp : s.phase = .release) (hd : decode s.lat.cmd = some .setkey) (hs : s.ctx.Sound)
    (hb : s.ctx.bound = true) (hr : s.ctx.ready = true ↔ s.pres = SUCCESS) (hL : s.L = 0) : ContextInv s := by
  refine { hs with
      steady := ?_, checked := ?_, loading := ?_, binding := ?_, keyed := ?_, halfway := ?_, released := ?_,
      cleaning := ?_, subkeys_input := ?_, no_stray_L := ?_ } <;>
    simp [hp, hd, rekeying, hb, hr, hL]

/-- A SETKEY before CLEANUP: not ready. -/
theorem contextInv_of_cleanup (hp : s.phase = .cleanup) (hd : decode s.lat.cmd = some .setkey) (hs : s.ctx.Sound)
    (hr : s.ctx.ready = false) (hL : s.L = 0) : ContextInv s := by
  refine { hs with
      steady := ?_, checked := ?_, loading := ?_, binding := ?_, keyed := ?_, halfway := ?_, released := ?_,
      cleaning := ?_, subkeys_input := ?_, no_stray_L := ?_ } <;>
    simp [hp, hd, rekeying, hr, hL]

end Sys2Proof.Machine
end

section
/-! SUPPORT. The working registers of the tag commands, and what lies outside the block: memory and the cipher device
(43_tag.md R201 to R209; 60_exceptions.md R291). -/

namespace Sys2Proof.Machine

variable {s t : State}

/-! ### The working registers -/

/-- What the clause `checked` of `TagInv` says of a tag command past its CHECK. -/
structure TagWork (s : State) : Prop where
  passed : tagCheck s = true
  nb : s.nb.toNat = dataLen s.lat
  n : s.n.toNat = nblocks (dataLen s.lat)
  tb : s.tb.toNat = tagLen s.lat
  i_pos : 1 ≤ s.i.toNat
  i_le : s.i.toNat ≤ nblocks (dataLen s.lat)
  j_le : s.j.toNat ≤ tagLen s.lat

theorem TagInv.work (h : TagInv s) (hc : tagCommand s) (hp : s.phase ∈ [Phase.lock, .block, .release, .out]) :
    TagWork s := by
  obtain ⟨h1, h2, h3, h4, h5, h6, h7⟩ := h.checked hc hp
  exact ⟨h1, h2, h3, h4, h5, h6, h7⟩

/-- Where the working registers are zero there is nothing else to keep, but for a tag command past its CHECK. -/
theorem tagInv_of_scratchZero (hz : ScratchZero s)
    (hn : tagCommand s → s.phase ∉ [Phase.lock, .block, .release, .out]) : TagInv s where
  scratch := fun _ => hz
  checked := fun hc hp => absurd hp (hn hc)
  before_out := fun _ => hz.j
  compared_only := fun _ => hz.acc

/-- A step of any command but the tag commands leaves the working registers alone. -/
theorem TagInv.untagged (h : TagInv s) (hc : ¬ tagCommand s) (hl : t.lat = s.lat)
    (hz : scratchPart t = scratchPart s) : TagInv t :=
  tagInv_of_scratchZero ((h.scratch fun hs => hc hs.1).congr hz)
    fun ht => absurd (by unfold tagCommand at *; rwa [hl] at ht) hc

/-- A tag command that has work left and has not compared a byte. -/
theorem tagInv_of_work (hw : TagWork s) (hc : tagCommand s) (hp : s.phase ∈ [Phase.lock, .block, .release, .out])
    (hj : s.phase ≠ .out → s.j = 0) (hacc : decode s.lat.cmd ≠ some .verifyTag ∨ s.phase ≠ .out → s.acc = 0) :
    TagInv s where
  scratch := fun hn => absurd ⟨hc, by simp only [List.mem_cons] at hp ⊢; tauto⟩ hn
  checked := fun _ _ => ⟨hw.passed, hw.nb, hw.n, hw.tb, hw.i_pos, hw.i_le, hw.j_le⟩
  before_out := fun hq => hj (by rcases hq with hq | hq | hq <;> simp [hq])
  compared_only := fun hq => hacc (hq.imp_right And.left)

/-- A tag command at DONE. -/
theorem tagInv_of_done (hc : tagCommand s) (hp : s.phase = .done)
    (hacc : decode s.lat.cmd ≠ some .verifyTag → s.acc = 0) : TagInv s where
  scratch := fun hn => absurd ⟨hc, by simp [hp]⟩ hn
  checked := fun _ hq => by simp [hp] at hq
  before_out := fun hq => by simp [hp] at hq
  compared_only := fun hq => hacc (hq.resolve_right fun hx => hx.2 hp)

/-! ### Memory and the device -/

/-- A binding is known as long as it stands. -/
theorem OutsideInv.unbind (h : OutsideInv s) {c : Context} (hc : c.bound = false) :
    OutsideInv { cipherUnbind s with ctx := c } where
  mem_canonical := h.mem_canonical
  one_owner := h.one_owner
  lock_known := h.lock_known
  binding_known := fun hb => by simp [hc] at hb

theorem OutsideInv.unlock (h : OutsideInv s) : OutsideInv (unlockStep s) where
  mem_canonical := h.mem_canonical
  one_owner := fun inst hi => h.one_owner inst (List.mem_of_mem_filter hi)
  lock_known := fun hl => by cases hl
  binding_known := h.binding_known

theorem OutsideInv.storeByte (h : OutsideInv s) (a : Word) (v : Byte) : OutsideInv (s.storeByte a v) :=
  { h with mem_canonical := Memory.store_wf a.isLt h.mem_canonical }

end Sys2Proof.Machine
end

section
/-! SUPPORT. The engine's steps keep the invariant: the steps that commands share, the lifecycle commands and SETKEY. -/

namespace Sys2Proof.Machine

variable {s t : State}

/-! ### Steps that commands share -/

theorem Inv.emit (h : Inv s) (rs : List Request) : Inv (s.emit rs) := h.congr rfl rfl rfl rfl

theorem Inv.L_eq_zero {p : Phase} (h : Inv s) (hp : s.phase = p) (hne : p ≠ .subkeys := by decide) : s.L = 0 :=
  h.context.no_stray_L (hp ▸ hne)

/-- Up to its CHECK no command has touched the working registers. -/
theorem Inv.scratchZero_of_check (h : Inv s) (hp : s.phase = .check) : ScratchZero s :=
  h.tag.scratch fun hs => absurd (hp ▸ hs.2) (by decide)

/-- A CHECK that fails (R126, R271). -/
theorem inv_badInput (h : Inv s) (hp : s.phase = .check) : Inv (s.finish BAD_INPUT) := by
  have hc : ControlInv (s.finish BAD_INPUT) := h.control.finished hp (by decide) (fun hx => absurd hx (by decide))
  exact
    { control := hc
      context := h.context.kept (fun _ => by simp [hp]) hc (fun _ => by simp) rfl (h.L_eq_zero hp)
      tag := tagInv_of_scratchZero ((h.scratchZero_of_check hp).congr rfl) (fun _ => by simp)
      outside := h.outside.congr rfl }

/-- DONE (R127). -/
theorem inv_complete (h : Inv s) (hp : s.phase = .done) : Inv s.complete := by
  have hc : ControlInv s.complete := h.control.completed hp
  exact
    { control := hc
      context := h.context.kept (fun _ => by simp [hp]) hc (fun _ => by simp) rfl rfl
      tag := tagInv_of_scratchZero ⟨rfl, rfl, rfl, rfl, rfl, rfl, rfl⟩ (fun _ => by simp)
      outside := h.outside.congr rfl }

/-- A request to the device that changes nothing it holds. -/
theorem Inv.request {d : Device} (h : Inv s) (hlocks : d.locks = s.dev.locks) (hbindings : d.bindings = s.dev.bindings)
    (hother : d.otherLocks = s.dev.otherLocks) (rs : List Request) : Inv { s with dev := d, trace := rs } :=
  h.congr rfl rfl rfl (by simp only [outsidePart, hlocks, hbindings, hother])

/-- A lock that nobody else holds is granted (R291). -/
theorem Inv.granted {d : Device} {inst : Word} (h : Inv s) (hfree : inst ∉ s.dev.otherLocks)
    (hlocks : d.locks = inst :: s.dev.locks) (hbindings : d.bindings = s.dev.bindings)
    (hother : d.otherLocks = s.dev.otherLocks) (rs : List Request) : Inv { s with dev := d, trace := rs } where
  control := h.control.congr rfl
  context := h.context.congr rfl
  tag := h.tag.congr rfl
  outside :=
    { mem_canonical := h.outside.mem_canonical
      one_owner := by
        simp only [hlocks, hother]
        exact List.forall_mem_cons.mpr ⟨hfree, h.outside.one_owner⟩
      lock_known := fun hl => by
        simp only [hlocks]
        exact List.mem_cons_of_mem _ (h.outside.lock_known hl)
      binding_known := fun hb => by
        simp only [hbindings]
        exact h.outside.binding_known hb }

theorem inv_cipherEncrypt (h : Inv s) (x : Block) : Inv (cipherEncrypt s x).2 :=
  h.request (drawEncrypt_locks _) (drawEncrypt_bindings _) (drawEncrypt_otherLocks _) _

/-- What LOCK makes of a legal state: a grant or a failure, in a legal state `u` that differs from it only in the device
and the requests. -/
theorem lockStep_of_inv (h : Inv s) (g f : Phase) :
    ∃ u, Inv u ∧ u.phase = s.phase ∧ u.lat = s.lat ∧
      (effInst u.ctx ∈ u.dev.locks ∧
          lockStep g f s = { u with lockHeld := true, lockInst := effInst u.ctx, phase := g } ∨
        ∃ r c, (r = DEVICE_TIMEOUT ∧ c = 0 ∨ r = DEVICE_FAULT) ∧ lockStep g f s = (u.fail r c).goto f) := by
  obtain ⟨d, hlocks, hbind, hother, hcases⟩ := lockStep_cases g f s
  rcases hcases with ⟨hfree, hgrant, he⟩ | ⟨htimeout, he⟩ | ⟨c, herr, he⟩
  · rw [if_pos hgrant] at hlocks
    exact ⟨_, h.granted hfree hlocks hbind hother _, rfl, rfl, .inl ⟨hlocks ▸ List.mem_cons_self, he⟩⟩
  · have hsame : d.locks = s.dev.locks := by simpa [htimeout] using hlocks
    exact ⟨_, h.request hsame hbind hother _, rfl, rfl, .inr ⟨DEVICE_TIMEOUT, 0, .inl ⟨rfl, rfl⟩, he⟩⟩
  · have hsame : d.locks = s.dev.locks := by simpa [herr] using hlocks
    exact ⟨_, h.request hsame hbind hother _, rfl, rfl, .inr ⟨DEVICE_FAULT, c, .inr rfl, he⟩⟩

/-! ### INIT, FREE, the setters and the reserved words -/

/-- The latched word is none of SETKEY, GENERATE_TAG and VERIFY_TAG. -/
def plainCommand (s : State) : Prop := decode s.lat.cmd ≠ some .setkey ∧ ¬ tagCommand s

/-- A step of a plain command that leaves the working registers and the key alone. -/
theorem inv_of_plain (h : Inv s) (hn : plainCommand s) (hc : ControlInv t) (hl : t.lat = s.lat)
    (hz : scratchPart t = scratchPart s) (hs : t.ctx.Sound) (hu : t.ctx.ready = false → Unkeyed t.ctx)
    (hL : t.L = s.L) (ho : OutsideInv t) : Inv t := by
  have hp : s.phase ≠ .subkeys := fun hp => hn.1 (h.control.setkey_of_phase (by simp [hp]))
  exact
    { control := hc
      context := contextInv_of_settled hc (settled_of_ne (hl ▸ hn.1)) hs hu (hL.trans (h.context.no_stray_L hp))
      tag := h.tag.untagged hn.2 hl hz
      outside := ho }

theorem Inv.unkeyed_of_plain (h : Inv s) (hn : plainCommand s) : s.ctx.ready = false → Unkeyed s.ctx :=
  h.context.steady fun hr => hn.1 hr.1

/-- A CHECK of a plain command that passes. -/
theorem inv_goto_plain {c : Option Instr} {q : Phase} (h : Inv s) (hn : plainCommand s) (hp : s.phase = .check)
    (hd : phasesOf (decode s.lat.cmd) = phasesOf c) (hq : q ∈ phasesOf c := by decide)
    (hc : q ≠ .cleanup := by decide) (hl : .check ∈ lockedPhases ↔ q ∈ lockedPhases := by decide) : Inv (s.goto q) :=
  inv_of_plain h hn (h.control.forward hp hd hq (by decide) hc hl) rfl rfl h.context.sound
    (h.unkeyed_of_plain hn) rfl (h.outside.congr rfl)

theorem inv_clearStep (h : Inv s) (hn : plainCommand s) (hp : s.phase = .clear)
    (hd : phasesOf (decode s.lat.cmd) = phasesOf (some .init)) : Inv (clearStep s) :=
  inv_of_plain h hn ((h.control.forward hp hd : ControlInv (s.goto .done)).congr rfl) rfl rfl unkeyed_zero.sound
    (fun _ => unkeyed_zero) rfl ((h.outside.unbind rfl).congr rfl)

/-- SETCFG (R245), for both setters: the device configuration is no part of what makes a context sound. -/
theorem inv_setcfg (h : Inv s) (hn : plainCommand s) (hp : s.phase = .setcfg)
    (hd : phasesOf (decode s.lat.cmd) = phasesOf (some .setDeviceInstance)) (a b : Bool) (v w : Word) :
    Inv { s with ctx := { s.ctx with instSet := a, inst := v, ticksSet := b, ticks := w }, phase := .done } := by
  refine inv_of_plain h hn ((h.control.forward hp hd : ControlInv (s.goto .done)).congr rfl) rfl rfl ?_ ?_ rfl
    (h.outside.congr rfl)
  · cases h.context.sound; constructor <;> assumption
  · intro hr
    cases h.unkeyed_of_plain hn hr; constructor <;> assumption

theorem execInit_inv (h : Inv s) (hn : plainCommand s) (hd : phasesOf (decode s.lat.cmd) = phasesOf (some .init))
    (hx : execInit s = .next t) : Inv t := by
  unfold execInit at hx
  split at hx <;> cases hx
  case h_1 hp => exact inv_goto_plain h hn hp hd
  case h_2 hp => exact inv_clearStep h hn hp hd
  case h_3 hp => exact inv_complete h hp

theorem execFree_eq_execInit : execFree = execInit := rfl

theorem execSetDeviceInstance_inv (h : Inv s) (hd : decode s.lat.cmd = some .setDeviceInstance)
    (hx : execSetDeviceInstance s = .next t) : Inv t := by
  have hn : plainCommand s := by simp [plainCommand, tagCommand, hd]
  unfold execSetDeviceInstance at hx
  split at hx <;> cases hx
  case h_1 hp =>
    unfold checkDeviceInstance
    split
    · exact inv_goto_plain h hn hp (congrArg phasesOf hd)
    · exact inv_badInput h hp
  case h_2 hp => exact inv_setcfg h hn hp (congrArg phasesOf hd) true s.ctx.ticksSet s.lat.instArg s.ctx.ticks
  case h_3 hp => exact inv_complete h hp

theorem execSetLockWaitTicks_inv (h : Inv s) (hd : decode s.lat.cmd = some .setLockWaitTicks)
    (hx : execSetLockWaitTicks s = .next t) : Inv t := by
  have hn : plainCommand s := by simp [plainCommand, tagCommand, hd]
  unfold execSetLockWaitTicks at hx
  split at hx <;> cases hx
  case h_1 hp =>
    unfold checkLockWaitTicks
    split
    · exact inv_goto_plain h hn hp (congrArg phasesOf hd)
    · exact inv_badInput h hp
  case h_2 hp => exact inv_setcfg h hn hp (by simp only [hd, phasesOf]) s.ctx.instSet true s.ctx.inst s.lat.ticksArg
  case h_3 hp => exact inv_complete h hp

theorem reservedStep_inv (h : Inv s) (hx : reservedStep s = .next t) : Inv t := by
  unfold reservedStep at hx
  split at hx <;> cases hx
  case h_1 hp => exact inv_badInput h hp
  case h_2 hp => exact inv_complete h hp

end Sys2Proof.Machine
end

section
/-! SUPPORT. SETKEY's steps keep the invariant (R181 to R189). -/

namespace Sys2Proof.Machine

variable {s t : State}

/-- An accepted key fits the key store: AES is the only family (R8), with keys of 16 or 32 bytes. -/
theorem keyLen_le_of_setkeyCheck {lat : Latch} (h : setkeyCheck lat = true) : keyLen lat ≤ 32 := by
  simp only [setkeyCheck, Bool.and_eq_true, decide_eq_true_eq] at h
  obtain ⟨⟨hfamily, hbits⟩, -⟩ := h
  obtain hfamily : lat.family = 1 := by simpa [Config.families] using hfamily
  obtain hbits | hbits : lat.keyBits = 128 ∨ lat.keyBits = 256 := by simpa [Config.keySizes, hfamily] using hbits
  all_goals simp [keyLen, hbits]

theorem not_tagCommand_of_setkey (hd : decode s.lat.cmd = some .setkey) : ¬ tagCommand s := by
  simp [tagCommand, hd]

/-- A step of SETKEY, which leaves the working registers of the tag commands alone. -/
theorem inv_of_setkey (h : Inv s) (hd : decode s.lat.cmd = some .setkey) (hc : ControlInv t) (hl : t.lat = s.lat)
    (hz : scratchPart t = scratchPart s) (hx : ContextInv t) (ho : OutsideInv t) : Inv t :=
  ⟨hc, hx, h.tag.untagged (not_tagCommand_of_setkey hd) hl hz, ho⟩

theorem inv_checkSetkey (h : Inv s) (hp : s.phase = .check) (hd : decode s.lat.cmd = some .setkey) :
    Inv (checkSetkey s) := by
  unfold checkSetkey
  split
  case isTrue hcheck =>
    have hu : s.ctx.ready = false → Unkeyed s.ctx := h.context.steady (by simp [rekeying, hp])
    refine inv_of_setkey h hd (h.control.forward hp (congrArg phasesOf hd)) rfl rfl ?_ (h.outside.congr rfl)
    exact contextInv_of_discard rfl h.context.sound hcheck hu (h.L_eq_zero hp)
  case isFalse => exact inv_badInput h hp

theorem inv_discardStep (h : Inv s) (hp : s.phase = .discard) (hd : decode s.lat.cmd = some .setkey) :
    Inv (discardStep s) :=
  inv_of_setkey h hd
    ((h.control.forward hp (congrArg phasesOf hd) : ControlInv (s.goto .loadkey)).congr rfl) rfl rfl
    (contextInv_of_loadkey rfl hd (h.context.checked hd (by simp [hp])) (unkeyed_zeroKeyMaterial _) (h.L_eq_zero hp))
    ((h.outside.unbind rfl).congr rfl)

/-- A key put at the front of an empty key store leaves a sound context. -/
theorem sound_of_loaded {c : Context} (hu : Unkeyed c) {key : List Byte} {family keyBits : Word}
    (hlen : key.length = keyBits.toNat / 8) (hle : key.length ≤ 32) :
    Context.Sound { c with key := key ++ c.key.drop key.length, family := family, keyBits := keyBits } where
  key_length := by simp [hu.key, zeroKey]; omega
  key_tail := by
    simp only [hu.key, zeroKey, ← hlen, List.drop_left, List.drop_replicate]
  unready_subkeys := fun _ => ⟨hu.k1, hu.k2⟩
  ready_bound := by simp [hu.ready]
  ready_derived := by simp [hu.ready]
  bound_legal := by simp [hu.bound]
  unbound_inst := fun _ => hu.boundInst

theorem inv_loadkeyStep (h : Inv s) (hp : s.phase = .loadkey) (hd : decode s.lat.cmd = some .setkey) {key : List Byte}
    (hlen : key.length = keyLen s.lat) : Inv (loadkeyStep key s) := by
  have hcheck : setkeyCheck s.lat = true := h.context.checked hd (by simp [hp])
  have hu : Unkeyed s.ctx := h.context.loading hp
  refine inv_of_setkey h hd
    ((h.control.forward hp (congrArg phasesOf hd) : ControlInv (s.goto .bind)).congr rfl) rfl rfl ?_
    (h.outside.congr rfl)
  exact contextInv_of_bind rfl hd (sound_of_loaded hu hlen (hlen ▸ keyLen_le_of_setkeyCheck hcheck))
    ⟨hcheck, rfl, rfl, hu.ready⟩ hu.bound (h.L_eq_zero hp)

/-- A failure of the device before the context is ready and with no lock held (R184, R185). -/
theorem inv_fail_cleanup {p : Phase} {r : BitVec 4} {code : Word} (h : Inv s) (hp : s.phase = p)
    (hd : decode s.lat.cmd = some .setkey) (hr : r = DEVICE_TIMEOUT ∧ code = 0 ∨ r = DEVICE_FAULT)
    (hready : s.ctx.ready = false) (hi : p ≠ .idle := by decide) (hL : p ≠ .subkeys := by decide)
    (hl : p ∈ lockedPhases ↔ .cleanup ∈ lockedPhases := by decide) : Inv ((s.fail r code).goto .cleanup) :=
  inv_of_setkey h hd (h.control.failed hp hr (.inl hd) (congrArg phasesOf hd) (by decide) hi (by decide) hl) rfl rfl
    (contextInv_of_cleanup rfl hd h.context.sound hready (h.L_eq_zero hp hL)) (h.outside.congr rfl)

theorem inv_bindStep (h : Inv s) (hp : s.phase = .bind) (hd : decode s.lat.cmd = some .setkey) : Inv (bindStep s) := by
  have hcheck : setkeyCheck s.lat = true := h.context.checked hd (by simp [hp])
  obtain ⟨hbound, hready⟩ := h.context.binding hp
  obtain ⟨hfamily, hbits⟩ := h.context.keyed hd (by simp [hp])
  obtain ⟨hlocks, hbindings, hother⟩ := drawBind_held s.dev
  simp only [bindStep]
  split
  case h_1 hok =>
    have hok : (drawBind s.dev).1 = .ok := hok
    refine inv_of_setkey h hd
      ((h.control.forward hp (congrArg phasesOf hd) : ControlInv (s.goto .lock)).congr rfl) rfl rfl ?_ ?_
    · have hs : Context.Sound { s.ctx with bound := true, boundInst := effInst s.ctx } :=
        { h.context.sound with
          ready_bound := fun _ => rfl
          bound_legal := fun _ => by
            simp only [setkeyCheck, Bool.and_eq_true, decide_eq_true_eq] at hcheck
            rw [hfamily, hbits]; exact hcheck.1
          unbound_inst := fun hb => by cases hb }
      exact contextInv_of_bound (by simp) hd hs ⟨hcheck, hfamily, hbits, hready⟩ rfl (fun _ => h.L_eq_zero hp)
        (fun hx => by cases hx)
    · exact
        { mem_canonical := h.outside.mem_canonical
          one_owner := by simpa [cipherBind, hok, Device.noteBind, hlocks, hother] using h.outside.one_owner
          lock_known := by simpa [cipherBind, hok, Device.noteBind, hlocks] using h.outside.lock_known
          binding_known := fun _ => by simp [cipherBind, hok, Device.noteBind] }
  case h_2 c herr =>
    have herr : (drawBind s.dev).1 = .err c := herr
    have hu : Inv (cipherBind s).2 := by
      simp only [cipherBind, herr, Device.noteBind]
      exact h.request hlocks hbindings hother _
    exact inv_fail_cleanup hu hp hd (.inr rfl) hready

theorem inv_lockStep_setkey (h : Inv s) (hp : s.phase = .lock) (hd : decode s.lat.cmd = some .setkey) :
    Inv (lockStep .encL .cleanup s) := by
  obtain ⟨u, hu, hpu, hlu, hcases⟩ := lockStep_of_inv h .encL .cleanup
  rw [hp] at hpu
  rw [← hlu] at hd
  obtain ⟨hk, hbound⟩ := hu.context.loadedKey hd (by simp [hpu])
  rcases hcases with ⟨hmem, he⟩ | ⟨r, c, hr, he⟩ <;> rw [he]
  · refine inv_of_setkey hu hd (hu.control.locked hpu (congrArg phasesOf hd)) rfl rfl ?_
      { hu.outside with lock_known := fun _ => hmem }
    exact contextInv_of_bound (by simp) hd hu.context.sound ⟨hk.checked, hk.family, hk.keyBits, hk.ready⟩ hbound
      (fun _ => hu.L_eq_zero hpu) (fun hx => by cases hx)
  · exact inv_fail_cleanup hu hpu hd hr hk.ready

theorem inv_encLStep (h : Inv s) (hp : s.phase = .encL) (hd : decode s.lat.cmd = some .setkey) : Inv (encLStep s) := by
  obtain ⟨hk, hbound⟩ := h.context.loadedKey hd (by simp [hp])
  have hu : Inv (cipherEncrypt s 0).2 := inv_cipherEncrypt h 0
  simp only [encLStep]
  split
  case h_1 =>
    refine inv_of_setkey hu hd
      ((h.control.forward hp (congrArg phasesOf hd) : ControlInv (s.goto .subkeys)).congr rfl) rfl rfl ?_
      (hu.outside.congr rfl)
    exact contextInv_of_bound (by simp) hd h.context.sound ⟨hk.checked, hk.family, hk.keyBits, hk.ready⟩ hbound
      (fun hx => absurd rfl hx) (fun _ => rfl)
  case h_2 c _ =>
    refine inv_of_setkey hu hd (hu.control.failed hp (.inr rfl) (.inl hd) (congrArg phasesOf hd)) rfl rfl ?_
      (hu.outside.congr rfl)
    exact contextInv_of_release rfl hd h.context.sound hbound
      ⟨fun hr => absurd (hk.ready.symm.trans hr) (by decide), fun hx => absurd hx (by simp [DEVICE_FAULT, SUCCESS])⟩
      (h.L_eq_zero hp)

theorem inv_subkeysStep (h : Inv s) (hp : s.phase = .subkeys) (hd : decode s.lat.cmd = some .setkey) :
    Inv (subkeysStep s) := by
  have hs : s.pres = SUCCESS := h.control.unfailed (hp ▸ by decide)
  obtain ⟨hk, hbound⟩ := h.context.loadedKey hd (by simp [hp])
  refine inv_of_setkey h hd
    ((h.control.forward hp (congrArg phasesOf hd) : ControlInv (s.goto .release)).congr rfl) rfl rfl ?_
    (h.outside.congr rfl)
  have hsound : Context.Sound { s.ctx with k1 := dbl s.L, k2 := dbl (dbl s.L), ready := true } :=
    { h.context.sound with
      unready_subkeys := fun hr => by cases hr
      ready_bound := fun _ => hbound
      ready_derived := fun _ => by rw [h.context.subkeys_input hp]; rfl }
  exact contextInv_of_release rfl hd hsound hbound ⟨fun _ => hs, fun _ => rfl⟩ rfl

theorem inv_releaseSetkey (h : Inv s) (hp : s.phase = .release) (hd : decode s.lat.cmd = some .setkey) :
    Inv (releaseSetkey s) := by
  obtain ⟨hbound, hready⟩ := h.context.released hd hp
  unfold releaseSetkey
  split
  case isTrue hs =>
    have hc : ControlInv ((unlockStep s).goto .done) :=
      h.control.unlocked hp (congrArg phasesOf hd) (fun _ => hs) (fun hx => by cases hx)
    refine inv_of_setkey h hd hc rfl rfl ?_ (h.outside.unlock.congr rfl)
    exact contextInv_of_settled hc (fun _ => by simp) h.context.sound
      (fun hr => absurd (hr.symm.trans (hready.mpr hs)) (by decide)) (h.L_eq_zero hp)
  case isFalse hs =>
    have hr : s.ctx.ready = false := by rw [← Bool.not_eq_true, hready]; exact hs
    exact inv_of_setkey h hd
      (h.control.unlocked hp (congrArg phasesOf hd) (fun hx => absurd hx (by decide)) (fun _ => hs)) rfl rfl
      (contextInv_of_cleanup rfl hd h.context.sound hr (h.L_eq_zero hp)) (h.outside.unlock.congr rfl)

theorem inv_cleanupStep (h : Inv s) (hp : s.phase = .cleanup) (hd : decode s.lat.cmd = some .setkey) :
    Inv (cleanupStep s) := by
  have hc : ControlInv (cleanupStep s) := (h.control.cleaned hp).congr rfl
  have hu : Unkeyed (cleanupStep s).ctx := unkeyed_zeroKeyMaterial s.ctx
  exact inv_of_setkey h hd hc rfl rfl
    (contextInv_of_settled hc (fun _ => by simp [cleanupStep]) hu.sound (fun _ => hu) rfl)
    ((h.outside.unbind rfl).congr rfl)

theorem execSetkey_inv (h : Inv s) (hd : decode s.lat.cmd = some .setkey) (hx : execSetkey s = .next t) : Inv t := by
  unfold execSetkey at hx
  split at hx
  case h_1 hp => cases hx; exact inv_checkSetkey h hp hd
  case h_2 hp => cases hx; exact inv_discardStep h hp hd
  case h_3 hp =>
    obtain ⟨-, rfl⟩ := reading_eq_next_iff.mp hx
    exact inv_loadkeyStep (h.emit _) hp hd (by simp)
  case h_4 hp => cases hx; exact inv_bindStep h hp hd
  case h_5 hp => cases hx; exact inv_lockStep_setkey h hp hd
  case h_6 hp => cases hx; exact inv_encLStep h hp hd
  case h_7 hp => cases hx; exact inv_subkeysStep h hp hd
  case h_8 hp => cases hx; exact inv_releaseSetkey h hp hd
  case h_9 hp => cases hx; exact inv_cleanupStep h hp hd
  case h_10 hp => cases hx; exact inv_complete h hp
  case h_11 => cases hx

end Sys2Proof.Machine
end

section
/-! SUPPORT. The steps of GENERATE_TAG and VERIFY_TAG keep the invariant (R200 to R210). -/

namespace Sys2Proof.Machine

variable {s t : State}

/-! ### Single-byte requests -/

theorem readingByte_eq_next_iff {a : Word} {k : Byte → State → State} :
    readingByte s a k = .next t ↔ admitsRead s a = true ∧ k (byteAt s a) (s.emit [.memRead a]) = t := by
  by_cases ha : admitsRead s a <;> simp [readingByte, ha]

theorem writing_eq_next_iff {a : Word} {v : Byte} {k : State → State} :
    writing s a v k = .next t ↔ admitsWrite s a = true ∧ k ((s.storeByte a v).emit [.memWrite a v]) = t := by
  by_cases ha : admitsWrite s a <;> simp [writing, ha]

/-- A counter below a bound does not wrap. -/
theorem toNat_add_one_of_lt {w : Nat} {x y : BitVec w} (h : x < y) : (x + 1).toNat = x.toNat + 1 := by
  have hx : x.toNat + 1 < 2 ^ w := Nat.lt_of_le_of_lt (BitVec.lt_def.mp h) y.isLt
  simp [BitVec.toNat_add, Nat.mod_eq_of_lt hx]

/-! ### The steps -/

theorem ne_setkey_of_tagCommand (hc : tagCommand s) : decode s.lat.cmd ≠ some .setkey := by
  rcases hc with hc | hc <;> simp [hc]

/-- A step of a tag command, which reads the context and leaves it alone. -/
theorem inv_of_tagCommand (h : Inv s) (hc : tagCommand s) (hl : t.lat = s.lat) (hx : t.ctx = s.ctx) (hL : t.L = s.L)
    (hctl : ControlInv t) (htag : TagInv t) (ho : OutsideInv t) : Inv t := by
  have hne := ne_setkey_of_tagCommand hc
  have hp : s.phase ≠ .subkeys := fun hp => hne (h.control.setkey_of_phase (by simp [hp]))
  exact
    { control := hctl
      context := h.context.kept (settled_of_ne hne) hctl (settled_of_ne (hl ▸ hne)) hx
        (hL.trans (h.context.no_stray_L hp))
      tag := htag
      outside := ho }

/-- No byte is compared before OUT. -/
theorem Inv.acc_eq_zero {p : Phase} (h : Inv s) (hp : s.phase = p) (ho : p ≠ .out := by decide)
    (hd : p ≠ .done := by decide) : s.acc = 0 :=
  h.tag.compared_only (.inr ⟨hp ▸ ho, hp ▸ hd⟩)

theorem tagWork_tagInit (hcheck : tagCheck s = true) : TagWork (tagInit s) := by
  have ht : s.lat.tagLenBits.toNat < 128 := by
    simp only [tagCheck, Bool.and_eq_true, decide_eq_true_eq] at hcheck
    exact hcheck.1.1.2
  have hlen : tagLen s.lat ≤ 16 := tagLen_le ht
  have hdata : dataLen s.lat < 2 ^ 32 := (Nat.div_le_self ..).trans_lt s.lat.dataLenBits.isLt
  have hblocks : nblocks (dataLen s.lat) < 2 ^ 32 := nblocks_lt.trans_lt (by decide)
  exact
    { passed := hcheck
      nb := (BitVec.toNat_ofNat ..).trans (Nat.mod_eq_of_lt hdata)
      n := (BitVec.toNat_ofNat ..).trans (Nat.mod_eq_of_lt hblocks)
      tb := (BitVec.toNat_ofNat ..).trans (Nat.mod_eq_of_lt (by omega))
      i_pos := le_rfl
      i_le := nblocks_pos _
      j_le := Nat.zero_le _ }

theorem inv_checkTag (h : Inv s) (hp : s.phase = .check) (hc : tagCommand s) : Inv (checkTag s) := by
  unfold checkTag
  split
  case isTrue hcheck =>
    exact inv_of_tagCommand h hc rfl rfl rfl
      ((h.control.forward hp (phasesOf_of_tagCommand hc) : ControlInv (s.goto .lock)).congr rfl)
      (tagInv_of_work (tagWork_tagInit hcheck) hc (by simp [tagInit]) (fun _ => rfl) (fun _ => rfl))
      (h.outside.congr rfl)
  case isFalse => exact inv_badInput h hp

theorem inv_lockStep_tag (h : Inv s) (hp : s.phase = .lock) (hc : tagCommand s) : Inv (lockStep .block .done s) := by
  obtain ⟨u, hu, hpu, hlu, hcases⟩ := lockStep_of_inv h .block .done
  rw [hp] at hpu
  have hcu : tagCommand u := by unfold tagCommand at *; rwa [hlu]
  have hpath := phasesOf_of_tagCommand hcu
  have hacc : u.acc = 0 := hu.acc_eq_zero hpu
  rcases hcases with ⟨hmem, he⟩ | ⟨r, c, hr, he⟩ <;> rw [he]
  · have hw : TagWork u := hu.tag.work hcu (by simp [hpu])
    exact inv_of_tagCommand hu hcu rfl rfl rfl (hu.control.locked hpu hpath)
      (tagInv_of_work { hw with } hcu (by simp) (fun _ => hu.tag.before_out (.inl hpu)) (fun _ => hacc))
      { hu.outside with lock_known := fun _ => hmem }
  · exact inv_of_tagCommand hu hcu rfl rfl rfl (hu.control.failed hpu hr (.inr hcu) hpath)
      (tagInv_of_done hcu rfl (fun _ => hacc)) (hu.outside.congr rfl)

/-- A failing encryption in BLOCK (R203, R204). -/
theorem inv_fail_block {code : Word} (h : Inv s) (hp : s.phase = .block) (hc : tagCommand s) :
    Inv ((s.fail DEVICE_FAULT code).goto .release) := by
  have hw : TagWork s := h.tag.work hc (by simp [hp])
  exact inv_of_tagCommand h hc rfl rfl rfl (h.control.failed hp (.inr rfl) (.inr hc) (phasesOf_of_tagCommand hc))
    (tagInv_of_work { hw with } hc (by simp) (fun _ => h.tag.before_out (.inr (.inl hp))) (fun _ => h.acc_eq_zero hp))
    (h.outside.congr rfl)

theorem inv_blockStep (h : Inv s) (hp : s.phase = .block) (hc : tagCommand s) (hlt : s.i < s.n) (b : List Byte) :
    Inv (blockStep b s) := by
  have hu : Inv (cipherEncrypt s (s.st ^^^ be128 b)).2 := inv_cipherEncrypt h _
  have hw : TagWork s := h.tag.work hc (by simp [hp])
  have hi : (s.i + 1).toNat = s.i.toNat + 1 := toNat_add_one_of_lt hlt
  simp only [blockStep]
  split
  case h_1 =>
    have hw' : TagWork { s with i := s.i + 1 } :=
      { hw with
        i_pos := by simp only [hi]; omega
        i_le := by have := BitVec.lt_def.mp hlt; rw [hw.n] at this; simp only [hi]; omega }
    exact inv_of_tagCommand hu hc rfl rfl rfl (hu.control.congr rfl)
      (tagInv_of_work { hw' with } hc (by simp [hp, cipherEncrypt]) (fun _ => h.tag.before_out (.inr (.inl hp)))
        (fun _ => h.acc_eq_zero hp))
      (hu.outside.congr rfl)
  case h_2 => exact inv_fail_block hu hp hc

theorem inv_lastBlockStep (h : Inv s) (hp : s.phase = .block) (hc : tagCommand s) (b : List Byte) :
    Inv (lastBlockStep b s) := by
  have hu := inv_cipherEncrypt h (s.st ^^^ lastBlock s.ctx.k1 s.ctx.k2 b s.nb.toNat)
  have hw : TagWork s := h.tag.work hc (by simp [hp])
  simp only [lastBlockStep]
  split
  case h_1 =>
    exact inv_of_tagCommand hu hc rfl rfl rfl
      ((h.control.forward hp (phasesOf_of_tagCommand hc) : ControlInv (s.goto .release)).congr rfl)
      (tagInv_of_work { hw with } hc (by simp) (fun _ => h.tag.before_out (.inr (.inl hp))) (fun _ => h.acc_eq_zero hp))
      (hu.outside.congr rfl)
  case h_2 => exact inv_fail_block hu hp hc

theorem execBlock_inv (h : Inv s) (hp : s.phase = .block) (hc : tagCommand s) (hx : execBlock s = .next t) : Inv t := by
  unfold execBlock at hx
  split at hx
  case isTrue hlt =>
    obtain ⟨-, rfl⟩ := reading_eq_next_iff.mp hx
    exact inv_blockStep (h.emit _) hp hc hlt _
  case isFalse =>
    split at hx
    case isTrue =>
      obtain ⟨-, rfl⟩ := reading_eq_next_iff.mp hx
      exact inv_lastBlockStep (h.emit _) hp hc _
    case isFalse => cases hx

theorem inv_releaseTag (h : Inv s) (hp : s.phase = .release) (hc : tagCommand s) : Inv (releaseTag s) := by
  have hpath := phasesOf_of_tagCommand hc
  have hacc : s.acc = 0 := h.acc_eq_zero hp
  unfold releaseTag
  split
  case isTrue hs =>
    have hw : TagWork s := h.tag.work hc (by simp [hp])
    have hctl : ControlInv ((unlockStep s).goto .out) :=
      h.control.unlocked hp hpath (fun _ => hs) (fun hx => by cases hx)
    exact inv_of_tagCommand h hc rfl rfl rfl (hctl.congr rfl)
      (tagInv_of_work { hw with j_le := Nat.zero_le _ } hc (by simp) (fun _ => rfl) (fun _ => hacc))
      (h.outside.unlock.congr rfl)
  case isFalse hs =>
    exact inv_of_tagCommand h hc rfl rfl rfl
      (h.control.unlocked hp hpath (fun hx => absurd hx (by decide)) (fun hx => by cases hx))
      (tagInv_of_done hc rfl (fun _ => hacc)) (h.outside.unlock.congr rfl)

/-- The work left after one more tag byte (R207, R208). -/
theorem TagWork.next_byte (hw : TagWork s) (hlt : s.j < s.tb) : TagWork { s with j := s.j + 1 } := by
  have hj : s.j.toNat < s.tb.toNat := BitVec.lt_def.mp hlt
  exact { hw with j_le := by rw [← hw.tb, toNat_add_one_of_lt hlt]; exact hj }

theorem generateOut_inv (h : Inv s) (hp : s.phase = .out) (hd : decode s.lat.cmd = some .generateTag)
    (hx : generateOut s = .next t) : Inv t := by
  have hc : tagCommand s := .inl hd
  have hacc : s.acc = 0 := h.tag.compared_only (.inl (by simp [hd]))
  unfold generateOut at hx
  split at hx
  case isTrue hlt =>
    obtain ⟨-, rfl⟩ := writing_eq_next_iff.mp hx
    have hw : TagWork { s with j := s.j + 1 } := (h.tag.work hc (by simp [hp])).next_byte hlt
    exact inv_of_tagCommand h hc rfl rfl rfl (h.control.congr rfl)
      (tagInv_of_work { hw with } hc (by simp [hp]) (fun hn => absurd hp hn) (fun _ => hacc))
      ((h.outside.storeByte _ _).congr rfl)
  case isFalse =>
    cases hx
    exact inv_of_tagCommand h hc rfl rfl rfl (h.control.forward hp (phasesOf_of_tagCommand hc))
      (tagInv_of_done hc rfl (fun _ => hacc)) (h.outside.congr rfl)

theorem verifyOut_inv (h : Inv s) (hp : s.phase = .out) (hd : decode s.lat.cmd = some .verifyTag)
    (hx : verifyOut s = .next t) : Inv t := by
  have hc : tagCommand s := .inr hd
  unfold verifyOut at hx
  split at hx
  case isTrue hlt =>
    obtain ⟨-, rfl⟩ := readingByte_eq_next_iff.mp hx
    have hw : TagWork { s with j := s.j + 1 } := (h.tag.work hc (by simp [hp])).next_byte hlt
    exact inv_of_tagCommand h hc rfl rfl rfl (h.control.congr rfl)
      (tagInv_of_work { hw with } hc (by simp [hp, compareStep]) (fun hn => absurd hp hn)
        (fun hn => absurd hn (by simp [hp, hd, compareStep])))
      (h.outside.congr rfl)
  case isFalse =>
    cases hx
    have hr : (verdict s.acc).toNat ≤ 2 := by unfold verdict; split <;> decide
    exact inv_of_tagCommand h hc rfl rfl rfl (h.control.finished hp hr (fun _ => hd))
      (tagInv_of_done hc rfl (fun hn => absurd hd hn)) (h.outside.congr rfl)

theorem execGenerateTag_inv (h : Inv s) (hd : decode s.lat.cmd = some .generateTag) (hx : execGenerateTag s = .next t) :
    Inv t := by
  have hc : tagCommand s := .inl hd
  unfold execGenerateTag at hx
  split at hx
  case h_1 hp => cases hx; exact inv_checkTag h hp hc
  case h_2 hp => cases hx; exact inv_lockStep_tag h hp hc
  case h_3 hp => exact execBlock_inv h hp hc hx
  case h_4 hp => cases hx; exact inv_releaseTag h hp hc
  case h_5 hp => exact generateOut_inv h hp hd hx
  case h_6 hp => cases hx; exact inv_complete h hp
  case h_7 => cases hx

theorem execVerifyTag_inv (h : Inv s) (hd : decode s.lat.cmd = some .verifyTag) (hx : execVerifyTag s = .next t) :
    Inv t := by
  have hc : tagCommand s := .inr hd
  unfold execVerifyTag at hx
  split at hx
  case h_1 hp => cases hx; exact inv_checkTag h hp hc
  case h_2 hp => cases hx; exact inv_lockStep_tag h hp hc
  case h_3 hp => exact execBlock_inv h hp hc hx
  case h_4 hp => cases hx; exact inv_releaseTag h hp hc
  case h_5 hp => exact verifyOut_inv h hp hd hx
  case h_6 hp => cases hx; exact inv_complete h hp
  case h_7 => cases hx

end Sys2Proof.Machine
end

section
/-! SUPPORT. Every turn keeps the invariant: the engine's, the host's, the platform's reset, other users of the
device. -/

namespace Sys2Proof.Machine

variable {s t : State}

/-! ### The engine's turn -/

theorem exec_inv {i : Instr} (h : Inv s) (hd : decode s.lat.cmd = some i) (hx : exec i s = .next t) : Inv t := by
  have hplain (hi : i ∈ [Instr.init, .free]) : plainCommand s := by
    rw [plainCommand, tagCommand, hd]; revert hi; cases i <;> decide
  cases i with
  | init => exact execInit_inv h (hplain (by simp)) (congrArg phasesOf hd) hx
  | setDeviceInstance => exact execSetDeviceInstance_inv h hd hx
  | setLockWaitTicks => exact execSetLockWaitTicks_inv h hd hx
  | setkey => exact execSetkey_inv h hd hx
  | generateTag => exact execGenerateTag_inv h hd hx
  | verifyTag => exact execVerifyTag_inv h hd hx
  | free => exact execInit_inv h (hplain (by simp)) (by rw [hd]; rfl) (execFree_eq_execInit ▸ hx)

theorem commandStep_inv (h : Inv s) (hx : commandStep s = .next t) : Inv t := by
  unfold commandStep at hx
  split at hx
  case h_1 hd => exact exec_inv h hd hx
  case h_2 => exact reservedStep_inv h hx

theorem engineTurn_inv (h : Inv s) (hx : engineTurn s = .next t) : Inv t := by
  unfold engineTurn at hx
  split at hx
  case isTrue => cases hx; exact h
  case isFalse =>
    split at hx
    case h_1 hstep => cases hx; exact commandStep_inv h hstep
    case h_2 => cases hx; exact h
    case h_3 => cases hx
    case h_4 => cases hx

/-! ### The host's turn -/

/-- Acceptance (R120) by an idle engine, whose working registers and context DONE left settled. -/
theorem inv_accept (h : Inv s) (hb : s.busy = false) (w : Word) : Inv (accept s w) := by
  have hp : s.phase = .idle := by
    by_contra hne
    exact absurd (hb.symm.trans (h.control.busy_of_phase hne)) (by decide)
  have hc : ControlInv (accept s w) := h.control.accepted hb w
  have hz : ScratchZero s := h.tag.scratch (by simp [hp])
  exact
    { control := hc
      context := h.context.kept (fun _ => by simp [hp]) hc (fun _ => by simp [accept]) rfl (h.L_eq_zero hp)
      tag := tagInv_of_scratchZero (hz.congr rfl) (fun _ => by simp [accept])
      outside := h.outside.congr rfl }

theorem inv_offer (h : Inv s) (w : Word) : Inv (offer s w) := by
  unfold offer
  split
  case isTrue => exact h.congr rfl rfl rfl rfl
  case isFalse hb => exact inv_accept h (Bool.eq_false_of_not_eq_true hb) w

theorem inv_writeReg (h : Inv s) (off : BitVec 6) (v : Word) : Inv (writeReg s off v) := by
  unfold writeReg
  split
  · exact inv_offer h v
  · exact h.congr rfl rfl rfl rfl

theorem byteAccess_eq_next_iff {a : Word} {u : State} : byteAccess a u = .next t ↔ windowOffset a = none ∧ u = t := by
  unfold byteAccess
  split <;> simp [*]

/-- A host access that has no meaning (R70) answers no next state. -/
theorem ite_eq_next_iff {c : Prop} [Decidable c] {u : State} {r : Refusal} :
    (if c then (.next u : Stepped) else .refused r) = .next t ↔ c ∧ u = t := by
  split <;> simp [*]

theorem hostStep_inv {op : HostOp} (h : Inv s) (hx : hostStep op s = .next t) : Inv t := by
  cases op with
  | write off w v =>
    obtain ⟨-, rfl⟩ := ite_eq_next_iff.mp hx
    exact inv_writeReg h off v
  | read off w =>
    obtain ⟨-, rfl⟩ := ite_eq_next_iff.mp hx
    exact h.congr rfl rfl rfl rfl
  | store a v =>
    obtain ⟨-, rfl⟩ := byteAccess_eq_next_iff.mp hx
    exact ⟨h.control.congr rfl, h.context.congr rfl, h.tag.congr rfl, h.outside.storeByte a v⟩
  | load a =>
    obtain ⟨-, rfl⟩ := byteAccess_eq_next_iff.mp hx
    exact h.congr rfl rfl rfl rfl
  | wait =>
    cases hx
    exact h.congr rfl rfl rfl rfl

/-! ### Reset -/

theorem controlInv_reset : ControlInv State.reset := by
  have hpend : PendingInv State.reset := .of_success rfl rfl (by decide)
  exact
    { hpend with
      busy_iff := by decide
      on_path := fun hp => absurd rfl hp
      hidden_while_busy := fun _ => ⟨rfl, rfl⟩
      shown_when_idle := fun _ => ⟨rfl, rfl⟩
      lock_held := by decide
      lock_inst := fun _ => rfl }

theorem inv_reset : Inv State.reset where
  control := controlInv_reset
  context :=
    contextInv_of_settled controlInv_reset (fun _ => by decide) unkeyed_zero.sound (fun _ => unkeyed_zero) rfl
  tag := tagInv_of_scratchZero ⟨rfl, rfl, rfl, rfl, rfl, rfl, rfl⟩ (fun _ => by decide)
  outside :=
    { mem_canonical := rfl
      one_owner := fun _ hi => absurd hi List.not_mem_nil
      lock_known := fun hl => by cases hl
      binding_known := fun hb => by cases hb }

/-- Whatever the device keeps of the block at reset (R311), a lock it keeps still has one owner. -/
theorem inv_resetEvent (h : Inv s) : Inv (resetEvent s) where
  control := inv_reset.control.congr rfl
  context := inv_reset.context.congr rfl
  tag := inv_reset.tag.congr rfl
  outside :=
    { mem_canonical := h.outside.mem_canonical
      one_owner := fun inst hi => by
        have hlocks : inst ∈ if Config.resetReleasesLock then [] else s.dev.locks := hi
        split at hlocks
        · exact absurd hlocks List.not_mem_nil
        · exact h.outside.one_owner inst hlocks
      lock_known := fun hl => by cases hl
      binding_known := fun hb => by cases hb }

/-! ### Other users of the device -/

theorem inv_otherAcquire (h : Inv s) (inst : Word) : Inv (otherAcquire inst s) := by
  unfold otherAcquire
  split
  case isTrue => exact h
  case isFalse hfree =>
    have hone : ∀ i ∈ s.dev.locks, i ∉ inst :: s.dev.otherLocks := fun i hi => by
      rw [List.mem_cons, not_or]
      exact ⟨fun he => hfree (he ▸ hi), h.outside.one_owner i hi⟩
    exact ⟨h.control.congr rfl, h.context.congr rfl, h.tag.congr rfl, { h.outside with one_owner := hone }⟩

theorem inv_otherRelease (h : Inv s) (inst : Word) : Inv (otherRelease inst s) :=
  have hone : ∀ i ∈ s.dev.locks, i ∉ s.dev.otherLocks.filter (· != inst) := fun i hi hf =>
    h.outside.one_owner i hi (List.mem_of_mem_filter hf)
  ⟨h.control.congr rfl, h.context.congr rfl, h.tag.congr rfl, { h.outside with one_owner := hone }⟩

/-! ### Every turn -/

theorem takeTurn_inv {u : Turn} (h : Inv s) (hx : takeTurn u s = .next t) : Inv t := by
  cases u with
  | engine => exact engineTurn_inv h hx
  | host op => exact hostStep_inv h hx
  | reset => cases hx; exact inv_resetEvent h
  | otherAcquire inst => cases hx; exact inv_otherAcquire h inst
  | otherRelease inst => cases hx; exact inv_otherRelease h inst

/-- Settles O55: every turn that the schedule can name keeps each of the four parts of the invariant. -/
theorem everyStepKeepsTheStateLegal : Obligations.EveryStepKeepsTheStateLegal := by
  unfold Obligations.EveryStepKeepsTheStateLegal
  intro s t h hx
  unfold step nextTurn at hx
  split at hx
  case h_1 => exact engineTurn_inv h hx
  case h_2 turn rest _ => exact takeTurn_inv (h.around s.refuses rest s.readData) hx

/-- Settles O54. -/
theorem resetStateIsLegal : Obligations.ResetStateIsLegal := inv_reset

/-- Settles O56: an idle engine runs no SETKEY, so its context is settled, and no command, so the rest is zero. -/
theorem idleContextIsKeyedOrCleared : Obligations.IdleContextIsKeyedOrCleared := by
  unfold Obligations.IdleContextIsKeyedOrCleared
  intro s h hp
  have hz : ScratchZero s := h.tag.scratch (by simp [hp])
  have hbusy : s.busy = false := by rw [← Bool.not_eq_true, h.control.busy_iff, hp]; simp
  refine ⟨fun hr => ?_, fun hr => ?_, hz.st, h.L_eq_zero hp, hz.acc, h.control.not_held (hp ▸ by decide), hbusy⟩
  · have hb : s.ctx.bound = true := h.context.ready_bound hr
    exact ⟨hb, h.context.bound_legal hb⟩
  · have hu : Unkeyed s.ctx := h.context.steady (by simp [rekeying, hp]) hr
    exact ⟨hu.k1, hu.k2, hu.bound, hu.key, hu.keyBits, hu.family⟩

/-- Settles O57: a shown result other than SUCCESS is the pending one of an idle engine, with its code. -/
theorem resultsAreLegalAndComeFromTheirCommands : Obligations.ResultsAreLegalAndComeFromTheirCommands := by
  unfold Obligations.ResultsAreLegalAndComeFromTheirCommands
  intro s h
  have hc := h.control
  refine ⟨?_, hc.hidden_while_busy, ?_⟩ <;> cases hb : s.busy
  case refine_1.true => rw [(hc.hidden_while_busy hb).1]; decide
  case refine_1.false => rw [(hc.shown_when_idle hb).1]; exact hc.pres_legal
  case refine_2.true =>
    obtain ⟨hr, he⟩ := hc.hidden_while_busy hb
    rw [hr, he]
    exact ⟨fun _ => rfl, fun hx => absurd hx (by decide), fun hx => absurd hx (by decide)⟩
  case refine_2.false =>
    obtain ⟨hr, he⟩ := hc.shown_when_idle hb
    rw [hr, he]
    exact ⟨fun hx => if_neg hx, hc.auth_from_verify, hc.device_failure⟩

end Sys2Proof.Machine
end

section
/-! SUPPORT. The register window: what a host read returns and what a host write reaches (R20 to R37), and the reset
values (R56). -/

namespace Sys2Proof.Machine

variable {s : State} {off : BitVec 6}

/-- A 32-bit read at a multiple of 4 has a meaning (R70). -/
theorem hostStep_read (h : off.toNat % 4 = 0) (s : State) :
    hostStep (.read off .word) s = .next { s with readData := readReg s off } := by
  simp [hostStep, definedAccess, h]

/-- A 32-bit write at a multiple of 4 has a meaning (R70). -/
theorem hostStep_write (h : off.toNat % 4 = 0) (s : State) (v : Word) :
    hostStep (.write off .word v) s = .next (writeReg s off v) := by
  simp [hostStep, definedAccess, h]

/-- Settles O7: each offset is a multiple of 4, and `readReg` gives its register. -/
theorem hostReadsFollowTheRegisterMap : Obligations.HostReadsFollowTheRegisterMap := by
  unfold Obligations.HostReadsFollowTheRegisterMap
  intro s
  refine ⟨hostStep_read rfl s, hostStep_read rfl s, hostStep_read rfl s, hostStep_read rfl s, hostStep_read rfl s,
    hostStep_read rfl s, hostStep_read rfl s, hostStep_read rfl s, hostStep_read rfl s, hostStep_read rfl s,
    hostStep_read rfl s, hostStep_read rfl s, fun off hoff => ?_⟩
  simp only [List.mem_cons, List.not_mem_nil, or_false] at hoff
  rcases hoff with rfl | rfl | rfl | rfl <;> exact hostStep_read rfl s

/-! ### Writes -/

/-- The offsets of the operand registers (R28 to R36). -/
def operandOffsets : List (BitVec 6) := [0x0C, 0x10, 0x14, 0x18, 0x1C, 0x20, 0x24, 0x28, 0x2C]

/-- A write of any register but CMD changes at most the operand registers. -/
theorem hostStep_write_regs (h : off.toNat % 4 = 0) (h0 : off ≠ 0) (s : State) (v : Word) :
    hostStep (.write off .word v) s = .next { s with regs := s.regs.write off v } := by
  rw [hostStep_write h, writeReg, if_neg h0]

theorem readReg_write_same (h : off ∈ operandOffsets) (s : State) (v : Word) :
    readReg { s with regs := s.regs.write off v } off = v := by
  simp only [operandOffsets, List.mem_cons, List.not_mem_nil, or_false] at h
  rcases h with rfl | rfl | rfl | rfl | rfl | rfl | rfl | rfl | rfl <;> rfl

theorem readReg_write_other {off' : BitVec 6} (h : off' ≠ off) (s : State) (v : Word) :
    readReg { s with regs := s.regs.write off v } off' = readReg s off' := by
  have hne : off'.toNat ≠ off.toNat := fun he => h (BitVec.eq_of_toNat_eq he)
  unfold Regs.write
  split
  case h_10 => rfl
  all_goals
    unfold readReg
    split
    any_goals rfl
    omega

/-- STATUS, DEV_ERROR and the reserved words ignore a write (R22, R27, R37). -/
theorem hostStep_write_ignored (h : off ∈ [(0x04 : BitVec 6), 0x08, 0x30, 0x34, 0x38, 0x3C]) (s : State) (v : Word) :
    hostStep (.write off .word v) s = .next s := by
  simp only [List.mem_cons, List.not_mem_nil, or_false] at h
  rcases h with rfl | rfl | rfl | rfl | rfl | rfl <;> rfl

/-- Settles O8: a write of an operand register is an update of that register alone. -/
theorem hostWritesReachOnlyTheirRegister : Obligations.HostWritesReachOnlyTheirRegister := by
  unfold Obligations.HostWritesReachOnlyTheirRegister
  refine fun s v => ⟨fun off hoff => ?_, fun off hoff => hostStep_write_ignored hoff s v⟩
  have hoff : off ∈ operandOffsets := hoff
  have hdefined : off.toNat % 4 = 0 ∧ off ≠ 0 := by revert off; decide
  exact ⟨_, hostStep_write_regs hdefined.1 hdefined.2 s v, readReg_write_same hoff s v,
    fun off' hne => readReg_write_other hne s v, rfl⟩

/-! ### STATUS -/

theorem getLsbD_flag (b : Bool) (i : Nat) : (flag b).getLsbD i = (decide (i = 0) && b) := by
  cases b <;> simp [flag]

/-- The low bits of the STATUS word (R22 to R25). -/
theorem getLsbD_statusWord_flags (s : State) :
    (statusWord s).getLsbD 0 = s.busy ∧ (statusWord s).getLsbD 1 = s.ctx.ready ∧ (statusWord s).getLsbD 2 = s.ovr ∧
      (statusWord s).getLsbD 3 = false := by
  simp only [statusWord, BitVec.getLsbD_or, BitVec.getLsbD_shiftLeft, getLsbD_flag]
  simp

/-- Above its flags the STATUS word shows the result, in four bits (R26). -/
theorem getLsbD_statusWord_result (s : State) {k : Nat} (hk : k < 28) :
    (statusWord s).getLsbD (4 + k) = s.result.getLsbD k := by
  simp only [statusWord, BitVec.getLsbD_or, BitVec.getLsbD_shiftLeft, getLsbD_flag, BitVec.getLsbD_setWidth]
  have h32 : 4 + k < 32 ∧ k < 32 := by omega
  have hflag : 4 + k - 2 ≠ 0 ∧ 4 + k - 1 ≠ 0 ∧ 4 + k ≠ 0 := by omega
  simp [h32, hflag]

/-- Settles O9: the fields of STATUS are read off its bits. -/
theorem statusShowsItsFields : Obligations.StatusShowsItsFields := by
  unfold Obligations.StatusShowsItsFields
  refine ⟨fun s => ?_, by decide⟩
  obtain ⟨hbusy, hready, hovr, hreserved⟩ := getLsbD_statusWord_flags s
  refine ⟨hostStep_read rfl s, rfl, hbusy, hready, hovr, hreserved, ?_, ?_, hostStep_write_ignored (by decide) s⟩
  · apply BitVec.eq_of_getLsbD_eq
    intro k hk
    simp [hk, getLsbD_statusWord_result s (k := k) (by omega)]
  · apply BitVec.eq_of_getLsbD_eq
    intro k hk
    have hhigh : 8 + k = 4 + (4 + k) := by omega
    rw [BitVec.getLsbD_extractLsb', hhigh, getLsbD_statusWord_result s (by omega), BitVec.getLsbD_of_ge _ _ (by omega)]
    simp

/-- Settles O16: the table of R56 is what the reset state is defined by. -/
theorem resetValuesAreThoseOfTheTable : Obligations.ResetValuesAreThoseOfTheTable := by
  unfold Obligations.ResetValuesAreThoseOfTheTable
  exact ⟨by decide, by decide, by decide⟩

end Sys2Proof.Machine
end

section
/-! SUPPORT. The host's port: which accesses have a meaning (R70), host memory as the host meets it (R75), and one poll
of WAIT (R98). -/

namespace Sys2Proof.Machine

variable {s : State} {op : HostOp} {a : Word}

/-! ### Accesses with and without a meaning -/

theorem definedAccess_iff {off : BitVec 6} {w : Width} :
    definedAccess off w = true ↔ w = .word ∧ off.toNat % 4 = 0 := by
  simp [definedAccess]

/-- A host access that has no meaning is refused (R70). -/
theorem hostStep_of_undefinedAccess (h : UndefinedAccess op) (s : State) :
    hostStep op s = .refused .undefinedAccess := by
  cases op with
  | write off w v => exact if_neg (mt definedAccess_iff.mp h)
  | read off w => exact if_neg (mt definedAccess_iff.mp h)
  | store a v => exact byteAccess_window h _
  | load a => exact byteAccess_window h _
  | wait => exact h.elim

/-- Every other host step is taken. -/
theorem exists_hostStep_next (h : ¬ UndefinedAccess op) (s : State) : ∃ t, hostStep op s = .next t := by
  cases op with
  | write off w v => exact ⟨_, if_pos (definedAccess_iff.mpr (not_not.mp h))⟩
  | read off w => exact ⟨_, if_pos (definedAccess_iff.mpr (not_not.mp h))⟩
  | store a v => exact ⟨_, byteAccess_outside (not_not.mp h) _⟩
  | load a => exact ⟨_, byteAccess_outside (not_not.mp h) _⟩
  | wait => exact ⟨_, rfl⟩

/-- Settles O10: the accesses it names are the undefined ones, and the others. -/
theorem onlyAlignedWordAccessesAreDefined : Obligations.OnlyAlignedWordAccessesAreDefined := by
  unfold Obligations.OnlyAlignedWordAccessesAreDefined
  intro s off w v
  refine ⟨fun h => ?_, fun h => ?_, fun a b h => ?_⟩
  · exact ⟨hostStep_of_undefinedAccess (op := .write off w v) h s, hostStep_of_undefinedAccess (op := .read off w) h s⟩
  · obtain ⟨t, ht⟩ := exists_hostStep_next (op := .write off w v) (not_not.mpr h) s
    obtain ⟨u, hu⟩ := exists_hostStep_next (op := .read off w) (not_not.mpr h) s
    exact ⟨t, u, ht, hu⟩
  · exact ⟨hostStep_of_undefinedAccess (op := .store a b) h s, hostStep_of_undefinedAccess (op := .load a) h s⟩

/-! ### Memory accesses and WAIT -/

/-- A host store of a byte outside the window (R75). -/
theorem hostStep_store (h : windowOffset a = none) (v : Byte) (s : State) :
    hostStep (.store a v) s = .next (s.storeByte a v) :=
  byteAccess_outside h _

/-- A host load of a byte outside the window (R75). -/
theorem hostStep_load (h : windowOffset a = none) (s : State) :
    hostStep (.load a) s = .next { s with readData := (byteAt s a).setWidth 32 } :=
  byteAccess_outside h _

/-- A buffer after a store: the bytes at other addresses are as they were. -/
theorem readBuffer_storeByte (h : Memory.wf s.mem = true) (a : Word) (v : Byte) (base : Word) (len : Nat) :
    readBuffer (s.storeByte a v) base len = (bufferAddrs base len).map fun b => if b = a then v else byteAt s b :=
  List.map_congr_left fun b _ => byteAt_storeByte h a b v

theorem hostStep_wait_busy (h : s.busy = true) :
    hostStep .wait s = .next { s with readData := statusWord s, sched := .engine :: .host .wait :: s.sched } := by
  simp [hostStep, waitPoll, h]

theorem hostStep_wait_idle (h : s.busy = false) : hostStep .wait s = .next { s with readData := statusWord s } := by
  simp [hostStep, waitPoll, h]

/-- Settles O60: outside the window a store and a load reach one byte of canonical memory, and a poll asks for another
only while busy. -/
theorem hostReachesMemoryAndPollsStatus : Obligations.HostReachesMemoryAndPollsStatus := by
  unfold Obligations.HostReachesMemoryAndPollsStatus
  refine fun s => ⟨fun a v ha hwf => ?_, fun a ha => hostStep_load ha s, hostStep_wait_busy, hostStep_wait_idle⟩
  have hbyte (b : Word) : byteAt (s.storeByte a v) b = if b = a then v else byteAt s b := byteAt_storeByte hwf a b v
  refine ⟨s.storeByte a v, hostStep_store ha v s, rfl, Memory.store_wf a.isLt hwf, hbyte, ?_,
    readBuffer_storeByte hwf a v⟩
  rw [hostStep_load ha, hbyte, if_pos rfl]

end Sys2Proof.Machine
end

section
/-! SUPPORT. Steps that are taken and steps that the memory refuses: a step of a legal state is one or the other (R65,
R122, R125), and a refused one leaves the engine where it is (R327). -/

namespace Sys2Proof.Machine

variable {s t : State}

/-! ### The engine's turn -/

theorem commandStep_of_decode {i : Instr} (h : decode s.lat.cmd = some i) : commandStep s = exec i s := by
  simp only [commandStep, h]

theorem engineTurn_of_commandStep (hp : s.phase ≠ .idle) (h : commandStep s = .next t) : engineTurn s = .next t := by
  simp only [engineTurn, if_neg hp, h]

/-- An engine turn whose step the memory refuses changes nothing (R65; log 8). -/
theorem engineTurn_of_memoryRefused {a : Word} (h : commandStep s = .fault (.memoryRefused a)) :
    engineTurn s = .next s := by
  simp only [engineTurn, h, ite_self]

/-- A turn of the engine that answers a next state leaves the state alone, or takes the command's step. -/
theorem eq_or_commandStep_of_engineTurn (h : engineTurn s = .next t) : t = s ∨ commandStep s = .next t := by
  unfold engineTurn at h
  split at h
  case isTrue => cases h; exact .inl rfl
  case isFalse =>
    split at h
    case h_1 hstep => cases h; exact .inr hstep
    case h_2 => cases h; exact .inl rfl
    case h_3 => cases h
    case h_4 => cases h

/-- A state that an engine turn leaves as it is stays so however many follow. -/
theorem engineTurns_of_fixed (h : engineTurn s = .next s) (k : Nat) : engineTurns k s = .next s := by
  induction k with
  | zero => rfl
  | succ k ih => rw [engineTurns_succ h, ih]

/-! ### A refused request -/

/-- A reading step with a byte that is not admitted is not taken. -/
theorem reading_of_refused {a : Word} {len : Nat} (k : List Byte → State → State)
    (h : ∃ m < len, admitsRead s (byteAddr a m) = false) : ∃ x, reading s a len k = .fault (.memoryRefused x) := by
  obtain ⟨m, hm, hrefused⟩ := h
  rcases reading_cases s a len k with ⟨t, ht⟩ | ⟨m', -, -, hfault⟩
  · have hadmitted := (reading_eq_next_iff.mp ht).1 m hm
    rw [hrefused] at hadmitted
    cases hadmitted
  · exact ⟨_, hfault⟩

theorem readingByte_of_refused {a : Word} (k : Byte → State → State) (h : admitsRead s a = false) :
    readingByte s a k = .fault (.memoryRefused a) := by
  simp [readingByte, h]

theorem writing_of_refused {a : Word} {v : Byte} (k : State → State) (h : admitsWrite s a = false) :
    writing s a v k = .fault (.memoryRefused a) := by
  simp [writing, h]

/-- The pending step of a command accesses a byte that the memory refuses: a key byte in LOADKEY, a message byte in
BLOCK, a tag byte in OUT. -/
def requestRefused (s : State) : Prop :=
  (decode s.lat.cmd = some .setkey ∧ s.phase = .loadkey ∧
      ∃ m < keyLen s.lat, admitsRead s (byteAddr s.lat.keyAddr m) = false) ∨
    (tagCommand s ∧ s.phase = .block ∧ s.i < s.n ∧ ∃ m < 16, admitsRead s (byteAddr (blockAddr s) m) = false) ∨
    (tagCommand s ∧ s.phase = .block ∧ s.i = s.n ∧
      ∃ m < lastLen s, admitsRead s (byteAddr (blockAddr s) m) = false) ∨
    (decode s.lat.cmd = some .generateTag ∧ s.phase = .out ∧ s.j < s.tb ∧ admitsWrite s (tagByteAddr s) = false) ∨
    (decode s.lat.cmd = some .verifyTag ∧ s.phase = .out ∧ s.j < s.tb ∧ admitsRead s (tagByteAddr s) = false)

/-- BLOCK is one step for both tag commands. -/
theorem commandStep_of_block (hc : tagCommand s) (hp : s.phase = .block) : commandStep s = execBlock s := by
  rcases hc with hd | hd <;> simp only [commandStep_of_decode hd, exec, execGenerateTag, execVerifyTag, hp]

theorem commandStep_of_requestRefused (h : requestRefused s) : ∃ x, commandStep s = .fault (.memoryRefused x) := by
  rcases h with ⟨hd, hp, hr⟩ | ⟨hc, hp, hlt, hr⟩ | ⟨hc, hp, he, hr⟩ | ⟨hd, hp, hlt, hr⟩ | ⟨hd, hp, hlt, hr⟩
  · simp only [commandStep_of_decode hd, exec, execSetkey, hp, reading_of_refused _ hr]
  · simp only [commandStep_of_block hc hp, execBlock, if_pos hlt, reading_of_refused _ hr]
  · have hlt : ¬ s.i < s.n := he ▸ BitVec.lt_irrefl _
    simp only [commandStep_of_block hc hp, execBlock, if_neg hlt, if_pos he, reading_of_refused _ hr]
  · refine ⟨tagByteAddr s, ?_⟩
    simp only [commandStep_of_decode hd, exec, execGenerateTag, hp, generateOut, if_pos hlt, writing_of_refused _ hr]
  · refine ⟨tagByteAddr s, ?_⟩
    simp only [commandStep_of_decode hd, exec, execVerifyTag, hp, verifyOut, if_pos hlt, readingByte_of_refused _ hr]

theorem engineTurn_of_requestRefused (h : requestRefused s) : engineTurn s = .next s := by
  obtain ⟨x, hx⟩ := commandStep_of_requestRefused h
  exact engineTurn_of_memoryRefused hx

/-- Settles O6: the refused request stands in every state that differs in the schedule alone, so no engine turn ends
it. -/
theorem refusedRequestLeavesTheEngineStuck : Obligations.RefusedRequestLeavesTheEngineStuck := by
  unfold Obligations.RefusedRequestLeavesTheEngineStuck
  intro s _ h
  have hrefused : requestRefused s := h
  have hsched (rest : List Turn) : requestRefused { s with sched := rest } := hrefused
  exact ⟨engineTurns_of_fixed (engineTurn_of_requestRefused hrefused),
    fun rest => engineTurn_of_requestRefused (hsched rest), resetEvent s, rfl, rfl, rfl⟩

/-! ### A legal state has a step -/

/-- The step is taken, or the memory refuses one of its requests. -/
inductive TakenOrRefused : Stepped → Prop
  | next (t : State) : TakenOrRefused (.next t)
  | memoryRefused (a : Word) : TakenOrRefused (.fault (.memoryRefused a))

theorem takenOrRefused_reading (s : State) (a : Word) (len : Nat) (k : List Byte → State → State) :
    TakenOrRefused (reading s a len k) := by
  rcases reading_cases s a len k with ⟨t, ht⟩ | ⟨m, -, -, hfault⟩
  · exact ht ▸ .next t
  · exact hfault ▸ .memoryRefused _

theorem takenOrRefused_readingByte (s : State) (a : Word) (k : Byte → State → State) :
    TakenOrRefused (readingByte s a k) := by
  unfold readingByte
  split
  · exact .next _
  · exact .memoryRefused a

theorem takenOrRefused_writing (s : State) (a : Word) (v : Byte) (k : State → State) :
    TakenOrRefused (writing s a v k) := by
  unfold writing
  split
  · exact .next _
  · exact .memoryRefused a

/-- BLOCK has a step up to the last block (R203, R204). -/
theorem takenOrRefused_execBlock (h : s.i ≤ s.n) : TakenOrRefused (execBlock s) := by
  unfold execBlock
  split
  case isTrue => exact takenOrRefused_reading ..
  case isFalse hlt =>
    rw [if_pos (BitVec.le_antisymm h (BitVec.not_lt.mp hlt))]
    exact takenOrRefused_reading ..

theorem takenOrRefused_generateOut (s : State) : TakenOrRefused (generateOut s) := by
  unfold generateOut
  split
  · exact takenOrRefused_writing ..
  · exact .next _

theorem takenOrRefused_verifyOut (s : State) : TakenOrRefused (verifyOut s) := by
  unfold verifyOut
  split
  · exact takenOrRefused_readingByte ..
  · exact .next _

/-- INIT, FREE and the setters have a step in each phase of their path, and it makes no memory request. -/
theorem exists_exec_next_of_plain {i : Instr} (hi : i ∈ [Instr.init, .free, .setDeviceInstance, .setLockWaitTicks])
    (hp : s.phase ∈ phasesOf (some i)) : ∃ t, exec i s = .next t := by
  simp only [List.mem_cons, List.not_mem_nil, or_false] at hi
  rcases hi with rfl | rfl | rfl | rfl <;>
  · simp only [phasesOf, List.mem_cons, List.not_mem_nil, or_false] at hp
    rcases hp with hp | hp | hp <;>
      simp [exec, execInit, execFree, execSetDeviceInstance, execSetLockWaitTicks, hp]

/-- SETKEY; the last branch of its meaning is off the path. -/
theorem takenOrRefused_execSetkey (hp : s.phase ∈ phasesOf (some .setkey)) : TakenOrRefused (execSetkey s) := by
  unfold execSetkey
  split
  case h_3 => exact takenOrRefused_reading ..
  case h_11 => simp_all [phasesOf]
  all_goals exact .next _

/-- GENERATE_TAG; the last branch of its meaning is off the path. -/
theorem takenOrRefused_execGenerateTag (hp : s.phase ∈ phasesOf (some .generateTag))
    (hblock : s.phase = .block → s.i ≤ s.n) : TakenOrRefused (execGenerateTag s) := by
  unfold execGenerateTag
  split
  case h_3 hb => exact takenOrRefused_execBlock (hblock hb)
  case h_5 => exact takenOrRefused_generateOut s
  case h_7 => simp_all [phasesOf]
  all_goals exact .next _

/-- VERIFY_TAG; the last branch of its meaning is off the path. -/
theorem takenOrRefused_execVerifyTag (hp : s.phase ∈ phasesOf (some .verifyTag))
    (hblock : s.phase = .block → s.i ≤ s.n) : TakenOrRefused (execVerifyTag s) := by
  unfold execVerifyTag
  split
  case h_3 hb => exact takenOrRefused_execBlock (hblock hb)
  case h_5 => exact takenOrRefused_verifyOut s
  case h_7 => simp_all [phasesOf]
  all_goals exact .next _

/-- On its path a command has a step in every phase (R122, R125): taken, or refused by the memory. -/
theorem takenOrRefused_exec {i : Instr} (hp : s.phase ∈ phasesOf (some i))
    (hblock : s.phase = .block → s.i ≤ s.n) : TakenOrRefused (exec i s) := by
  have hplain (hi : i ∈ [Instr.init, .free, .setDeviceInstance, .setLockWaitTicks]) : TakenOrRefused (exec i s) := by
    obtain ⟨t, ht⟩ := exists_exec_next_of_plain hi hp
    exact ht ▸ .next t
  cases i with
  | init => exact hplain (by simp)
  | free => exact hplain (by simp)
  | setDeviceInstance => exact hplain (by simp)
  | setLockWaitTicks => exact hplain (by simp)
  | setkey => exact takenOrRefused_execSetkey hp
  | generateTag => exact takenOrRefused_execGenerateTag hp hblock
  | verifyTag => exact takenOrRefused_execVerifyTag hp hblock

theorem takenOrRefused_reservedStep (hp : s.phase ∈ phasesOf none) : TakenOrRefused (reservedStep s) := by
  unfold reservedStep
  split
  case h_3 => simp_all [phasesOf]
  all_goals exact .next _

/-- Only a tag command has a phase BLOCK (R125). -/
theorem ControlInv.tagCommand_of_block (h : ControlInv s) (hp : s.phase = .block) : tagCommand s := by
  have hmem : Phase.block ∈ phasesOf (decode s.lat.cmd) := hp ▸ h.on_path (by simp [hp])
  unfold tagCommand
  revert hmem
  rcases decode s.lat.cmd with _ | i
  · decide
  · cases i <;> decide

/-- In a legal state the block number is never above the last (R203, R204). -/
theorem Inv.block_le (h : Inv s) (hp : s.phase = .block) : s.i ≤ s.n := by
  have hw : TagWork s := h.tag.work (h.control.tagCommand_of_block hp) (by simp [hp])
  rw [BitVec.le_def, hw.n]
  exact hw.i_le

theorem Inv.takenOrRefused_commandStep (h : Inv s) (hp : s.phase ≠ .idle) : TakenOrRefused (commandStep s) := by
  have hpath := h.control.on_path hp
  unfold commandStep
  split
  case h_1 i hd => exact takenOrRefused_exec (hd ▸ hpath) h.block_le
  case h_2 hd => exact takenOrRefused_reservedStep (hd ▸ hpath)

/-- The engine's turn in a legal state answers a next state (R122). -/
theorem Inv.exists_engineTurn_next (h : Inv s) : ∃ t, engineTurn s = .next t := by
  by_cases hp : s.phase = .idle
  · exact ⟨s, engineTurn_of_idle hp⟩
  · have hstep : TakenOrRefused (commandStep s) := h.takenOrRefused_commandStep hp
    generalize hc : commandStep s = o at hstep
    cases hstep with
    | next t => exact ⟨t, engineTurn_of_commandStep hp hc⟩
    | memoryRefused a => exact ⟨s, engineTurn_of_memoryRefused hc⟩

/-- Settles O58: a host access is refused exactly when it is undefined, an engine turn never is, and no other turn
can be. -/
theorem legalStatesStepUnlessTheAccessIsUndefined : Obligations.LegalStatesStepUnlessTheAccessIsUndefined := by
  unfold Obligations.LegalStatesStepUnlessTheAccessIsUndefined
  refine fun s h => ⟨?_, fun hdefined => ?_⟩
  · rintro ⟨op, rest, hsched, hop⟩
    simp only [step, nextTurn, hsched]
    exact hostStep_of_undefinedAccess hop _
  · cases hsched : s.sched with
    | nil =>
      simp only [step, nextTurn, hsched]
      exact h.exists_engineTurn_next
    | cons turn rest =>
      simp only [step, nextTurn, hsched]
      cases turn with
      | engine => exact (h.around s.refuses rest s.readData).exists_engineTurn_next
      | host op => exact exists_hostStep_next (hdefined op rest hsched) _
      | reset => exact ⟨_, rfl⟩
      | otherAcquire inst => exact ⟨_, rfl⟩
      | otherRelease inst => exact ⟨_, rfl⟩

end Sys2Proof.Machine
end

section
/-! SUPPORT. What the engine writes to host memory (R74). -/

namespace Sys2Proof.Machine

variable {s t u : State}

/-- From `s` to `t` memory is as it was, and no write of it is requested. -/
structure WritesNoMemory (s t : State) : Prop where
  mem : t.mem = s.mem
  trace : ∃ new, t.trace = s.trace ++ new ∧ ∀ a x, Request.memWrite a x ∉ new

/-- An update that makes no request. -/
theorem WritesNoMemory.of_eq (hm : t.mem = s.mem) (ht : t.trace = s.trace) : WritesNoMemory s t :=
  ⟨hm, [], by simp [ht], fun _ _ => List.not_mem_nil⟩

theorem WritesNoMemory.trans (h : WritesNoMemory s t) (h' : WritesNoMemory t u) : WritesNoMemory s u := by
  obtain ⟨new, ht, hn⟩ := h.trace
  obtain ⟨new', ht', hn'⟩ := h'.trace
  exact ⟨h'.mem.trans h.mem, new ++ new', by rw [ht', ht, List.append_assoc], fun a x hx =>
    (List.mem_append.mp hx).elim (hn a x) (hn' a x)⟩

/-- An update after a step, of other fields. -/
theorem WritesNoMemory.congr (h : WritesNoMemory s t) (hm : u.mem = t.mem) (ht : u.trace = t.trace) :
    WritesNoMemory s u :=
  h.trans (.of_eq hm ht)

/-! ### Requests -/

theorem writesNoMemory_emit_memRead (s : State) (as : List Word) : WritesNoMemory s (s.emit (as.map .memRead)) :=
  ⟨rfl, as.map .memRead, rfl, by simp⟩

theorem writesNoMemory_cipherBind (s : State) : WritesNoMemory s (cipherBind s).2 := ⟨rfl, _, rfl, by simp⟩

theorem writesNoMemory_cipherAcquire (s : State) : WritesNoMemory s (cipherAcquire s).2 := ⟨rfl, _, rfl, by simp⟩

theorem writesNoMemory_cipherEncrypt (s : State) (x : Block) : WritesNoMemory s (cipherEncrypt s x).2 :=
  ⟨rfl, _, rfl, by simp⟩

theorem writesNoMemory_unlockStep (s : State) : WritesNoMemory s (unlockStep s) := ⟨rfl, _, rfl, by simp⟩

theorem writesNoMemory_cipherUnbind (s : State) : WritesNoMemory s (cipherUnbind s) :=
  ⟨rfl, _, rfl, fun a x => by split <;> simp⟩

/-- A reading step writes nothing when what it goes on with writes nothing. -/
theorem writesNoMemory_reading {a : Word} {len : Nat} {k : List Byte → State → State}
    (hk : ∀ b v, WritesNoMemory v (k b v)) (h : reading s a len k = .next t) : WritesNoMemory s t := by
  obtain ⟨-, rfl⟩ := reading_eq_next_iff.mp h
  exact (writesNoMemory_emit_memRead s _).trans (hk _ _)

/-! ### Steps -/

theorem writesNoMemory_complete (s : State) : WritesNoMemory s s.complete := .of_eq rfl rfl

theorem writesNoMemory_clearStep (s : State) : WritesNoMemory s (clearStep s) :=
  (writesNoMemory_cipherUnbind s).congr rfl rfl

theorem writesNoMemory_lockStep (g f : Phase) (s : State) : WritesNoMemory s (lockStep g f s) := by
  simp only [lockStep]
  split <;> exact (writesNoMemory_cipherAcquire s).congr rfl rfl

theorem writesNoMemory_loadkeyStep (key : List Byte) (s : State) : WritesNoMemory s (loadkeyStep key s) :=
  .of_eq rfl rfl

theorem writesNoMemory_bindStep (s : State) : WritesNoMemory s (bindStep s) := by
  simp only [bindStep]
  split <;> exact (writesNoMemory_cipherBind s).congr rfl rfl

theorem writesNoMemory_encLStep (s : State) : WritesNoMemory s (encLStep s) := by
  simp only [encLStep]
  split <;> exact (writesNoMemory_cipherEncrypt s 0).congr rfl rfl

theorem writesNoMemory_blockStep (b : List Byte) (s : State) : WritesNoMemory s (blockStep b s) := by
  simp only [blockStep]
  split <;> exact (writesNoMemory_cipherEncrypt s _).congr rfl rfl

theorem writesNoMemory_lastBlockStep (b : List Byte) (s : State) : WritesNoMemory s (lastBlockStep b s) := by
  simp only [lastBlockStep]
  split <;> exact (writesNoMemory_cipherEncrypt s _).congr rfl rfl

theorem writesNoMemory_checkTag (s : State) : WritesNoMemory s (checkTag s) := by
  unfold checkTag
  split <;> exact .of_eq rfl rfl

theorem writesNoMemory_releaseTag (s : State) : WritesNoMemory s (releaseTag s) := by
  unfold releaseTag
  split <;> exact (writesNoMemory_unlockStep s).congr rfl rfl

theorem writesNoMemory_execBlock (h : execBlock s = .next t) : WritesNoMemory s t := by
  unfold execBlock at h
  split at h
  case isTrue => exact writesNoMemory_reading writesNoMemory_blockStep h
  case isFalse =>
    split at h
    case isTrue => exact writesNoMemory_reading writesNoMemory_lastBlockStep h
    case isFalse => cases h

theorem writesNoMemory_verifyOut (h : verifyOut s = .next t) : WritesNoMemory s t := by
  unfold verifyOut at h
  split at h
  case isTrue =>
    obtain ⟨-, rfl⟩ := readingByte_eq_next_iff.mp h
    exact (writesNoMemory_emit_memRead s [tagByteAddr s]).congr rfl rfl
  case isFalse => cases h; exact .of_eq rfl rfl

/-! ### Commands -/

theorem writesNoMemory_execInit (h : execInit s = .next t) : WritesNoMemory s t := by
  unfold execInit at h
  split at h <;> cases h
  case h_1 => exact .of_eq rfl rfl
  case h_2 => exact writesNoMemory_clearStep s
  case h_3 => exact writesNoMemory_complete s

theorem writesNoMemory_execSetDeviceInstance (h : execSetDeviceInstance s = .next t) : WritesNoMemory s t := by
  unfold execSetDeviceInstance at h
  split at h <;> cases h
  case h_1 => unfold checkDeviceInstance; split <;> exact .of_eq rfl rfl
  case h_2 => exact .of_eq rfl rfl
  case h_3 => exact writesNoMemory_complete s

theorem writesNoMemory_execSetLockWaitTicks (h : execSetLockWaitTicks s = .next t) : WritesNoMemory s t := by
  unfold execSetLockWaitTicks at h
  split at h <;> cases h
  case h_1 => unfold checkLockWaitTicks; split <;> exact .of_eq rfl rfl
  case h_2 => exact .of_eq rfl rfl
  case h_3 => exact writesNoMemory_complete s

theorem writesNoMemory_reservedStep (h : reservedStep s = .next t) : WritesNoMemory s t := by
  unfold reservedStep at h
  split at h <;> cases h
  case h_1 => exact .of_eq rfl rfl
  case h_2 => exact writesNoMemory_complete s

theorem writesNoMemory_execSetkey (h : execSetkey s = .next t) : WritesNoMemory s t := by
  unfold execSetkey at h
  split at h
  case h_3 => exact writesNoMemory_reading writesNoMemory_loadkeyStep h
  all_goals cases h
  case h_1 => unfold checkSetkey; split <;> exact .of_eq rfl rfl
  case h_2 => exact (writesNoMemory_cipherUnbind s).congr rfl rfl
  case h_4 => exact writesNoMemory_bindStep s
  case h_5 => exact writesNoMemory_lockStep .encL .cleanup s
  case h_6 => exact writesNoMemory_encLStep s
  case h_7 => exact .of_eq rfl rfl
  case h_8 => exact (writesNoMemory_unlockStep s).congr rfl rfl
  case h_9 => exact (writesNoMemory_cipherUnbind s).congr rfl rfl
  case h_10 => exact writesNoMemory_complete s

theorem writesNoMemory_execVerifyTag (h : execVerifyTag s = .next t) : WritesNoMemory s t := by
  unfold execVerifyTag at h
  split at h
  case h_3 => exact writesNoMemory_execBlock h
  case h_5 => exact writesNoMemory_verifyOut h
  all_goals cases h
  case h_1 => exact writesNoMemory_checkTag s
  case h_2 => exact writesNoMemory_lockStep .block .done s
  case h_4 => exact writesNoMemory_releaseTag s
  case h_6 => exact writesNoMemory_complete s

/-- From `s` to `t` one tag byte is left to write, and it is written at its address, in one request (R207). -/
structure WritesTagByte (s t : State) : Prop where
  phase : s.phase = .out
  left : s.j < s.tb
  mem : t.mem = Memory.store s.mem (tagByteAddr s).toNat (tagByte s.st s.lat.tagLenBits.toNat s.j.toNat)
  trace : t.trace = s.trace ++ [.memWrite (tagByteAddr s) (tagByte s.st s.lat.tagLenBits.toNat s.j.toNat)]

theorem generateOut_writes (hp : s.phase = .out) (h : generateOut s = .next t) :
    WritesNoMemory s t ∨ WritesTagByte s t := by
  unfold generateOut at h
  split at h
  case isTrue hlt =>
    obtain ⟨-, rfl⟩ := writing_eq_next_iff.mp h
    exact .inr ⟨hp, hlt, rfl, rfl⟩
  case isFalse => cases h; exact .inl (.of_eq rfl rfl)

theorem execGenerateTag_writes (h : execGenerateTag s = .next t) : WritesNoMemory s t ∨ WritesTagByte s t := by
  unfold execGenerateTag at h
  split at h
  case h_3 => exact .inl (writesNoMemory_execBlock h)
  case h_5 hp => exact generateOut_writes hp h
  all_goals cases h
  case h_1 => exact .inl (writesNoMemory_checkTag s)
  case h_2 => exact .inl (writesNoMemory_lockStep .block .done s)
  case h_4 => exact .inl (writesNoMemory_releaseTag s)
  case h_6 => exact .inl (writesNoMemory_complete s)

/-- What a step of any command writes to memory: nothing, or the tag byte of a GENERATE_TAG (R74). -/
theorem exec_writes {i : Instr} (h : exec i s = .next t) :
    WritesNoMemory s t ∨ i = .generateTag ∧ WritesTagByte s t := by
  cases i with
  | init => exact .inl (writesNoMemory_execInit h)
  | setDeviceInstance => exact .inl (writesNoMemory_execSetDeviceInstance h)
  | setLockWaitTicks => exact .inl (writesNoMemory_execSetLockWaitTicks h)
  | setkey => exact .inl (writesNoMemory_execSetkey h)
  | generateTag => exact (execGenerateTag_writes h).imp_right fun hw => ⟨rfl, hw⟩
  | verifyTag => exact .inl (writesNoMemory_execVerifyTag h)
  | free => exact .inl (writesNoMemory_execInit (execFree_eq_execInit ▸ h))

theorem commandStep_writes (h : commandStep s = .next t) :
    WritesNoMemory s t ∨ decode s.lat.cmd = some .generateTag ∧ WritesTagByte s t := by
  unfold commandStep at h
  split at h
  case h_1 i hd => exact (exec_writes h).imp_right fun ⟨hi, hw⟩ => ⟨hi ▸ hd, hw⟩
  case h_2 => exact .inl (writesNoMemory_reservedStep h)

theorem engineTurn_writes (h : engineTurn s = .next t) :
    WritesNoMemory s t ∨ decode s.lat.cmd = some .generateTag ∧ WritesTagByte s t := by
  rcases eq_or_commandStep_of_engineTurn h with rfl | hstep
  · exact .inl (.of_eq rfl rfl)
  · exact commandStep_writes hstep

/-- Settles O42: an engine turn writes nothing, or the one tag byte. -/
theorem onlyTagBytesAreWrittenToMemory : Obligations.OnlyTagBytesAreWrittenToMemory := by
  unfold Obligations.OnlyTagBytesAreWrittenToMemory
  intro s t h v tagStep
  rcases engineTurn_writes h with ⟨hmem, new, htrace, hnew⟩ | ⟨hd, hphase, hleft, hmem, htrace⟩
  · exact ⟨fun hne => absurd hmem hne, new, htrace, fun a x hx => absurd hx (hnew a x)⟩
  · have htag : tagStep := ⟨hd, hphase, hleft⟩
    refine ⟨fun _ => ⟨htag, hmem, htrace⟩, _, htrace, fun a x hx => ?_⟩
    have hwrite : a = tagByteAddr s ∧ x = v := by simpa using hx
    exact ⟨htag, hwrite⟩

end Sys2Proof.Machine
end

section
/-! SUPPORT. The opcode map: a command word and its two fields, and which words decode (spec/30_encoding.md R90, R94 to
R96). -/

namespace Sys2Proof

variable {w : Word} {o : BitVec 8} {i : Instr}

/-! ### The two fields of a command word -/

@[simp] theorem rsvOf_encode (i : Instr) : rsvOf (encode i) = 0 := BitVec.extractLsb'_append_eq_left

@[simp] theorem opcodeOf_encode (i : Instr) : opcodeOf (encode i) = opcode i := BitVec.extractLsb'_append_eq_right

/-- A word is its RSV field followed by its OPCODE field (R90). -/
theorem rsvOf_append_opcodeOf (w : Word) : rsvOf w ++ opcodeOf w = w :=
  (BitVec.extractLsb'_append_extractLsb'_eq_extractLsb' rfl).trans BitVec.extractLsb'_eq_self

/-- The full word of a command is known by its fields. -/
theorem eq_encode_iff : w = encode i ↔ rsvOf w = 0 ∧ opcodeOf w = opcode i := by
  refine ⟨?_, fun ⟨hrsv, hop⟩ => ?_⟩
  · rintro rfl
    exact ⟨rsvOf_encode i, opcodeOf_encode i⟩
  · rw [← rsvOf_append_opcodeOf w, hrsv, hop]
    rfl

/-! ### Decoding -/

theorem decodeOpcode_eq_some_iff : decodeOpcode o = some i ↔ o = opcode i := by
  refine ⟨fun h => ?_, ?_⟩
  · unfold decodeOpcode at h
    split_ifs at h <;> cases h <;> assumption
  · rintro rfl
    cases i <;> rfl

/-- The OPCODE values that select no command (R95). -/
theorem decodeOpcode_eq_none_iff : decodeOpcode o = none ↔ o = 0x00 ∨ 0x08 ≤ o := by
  unfold decodeOpcode
  split_ifs
  case neg => simp only [true_iff]; bv_omega
  all_goals subst o; decide

theorem decode_eq_some_iff : decode w = some i ↔ w = encode i := by
  rw [eq_encode_iff, ← decodeOpcode_eq_some_iff, decode]
  split
  case isTrue hrsv => simp only [hrsv, true_and]
  case isFalse hrsv => simp only [hrsv, false_and, reduceCtorEq]

@[simp] theorem decode_encode (i : Instr) : decode (encode i) = some i := decode_eq_some_iff.mpr rfl

/-- The reserved words are those that R95 lists. -/
theorem decode_eq_none_iff : decode w = none ↔ rsvOf w ≠ 0 ∨ opcodeOf w = 0x00 ∨ 0x08 ≤ opcodeOf w := by
  rw [← decodeOpcode_eq_none_iff, decode]
  split
  case isTrue hrsv => simp only [hrsv, ne_eq, not_true, false_or]
  case isFalse hrsv => simp only [hrsv, ne_eq, not_false_iff, true_or]

/-! ### Well-formed words -/

theorem opcodeIsAssigned_iff : opcodeIsAssigned w = true ↔ ¬ (opcodeOf w = 0x00 ∨ 0x08 ≤ opcodeOf w) := by
  simp only [opcodeIsAssigned, Bool.and_eq_true, decide_eq_true_eq]
  bv_omega

/-- The check of R90 refuses exactly the reserved words. -/
theorem wellFormedWord_iff : wellFormedWord w = true ↔ ∃ i, decode w = some i := by
  rw [← Option.ne_none_iff_exists', ne_eq, decode_eq_none_iff, not_or, not_not, ← opcodeIsAssigned_iff]
  simp [wellFormedWord, rsvIsZero]

/-- Settles O1: a word is its two fields, and the table of R94 is followed row by row. -/
theorem decodingAnswersExactlyTheOpcodeMap : Obligations.DecodingAnswersExactlyTheOpcodeMap := by
  unfold Obligations.DecodingAnswersExactlyTheOpcodeMap
  refine ⟨by decide, fun w => ⟨fun i => ?_, decode_eq_none_iff, wellFormedWord_iff⟩⟩
  have hmask : w &&& 0xFFFFFFFF = w := BitVec.and_allOnes
  rw [hmask, decode_eq_some_iff]

/-- Settles O2: seven full words, and six words that R95 reserves. -/
theorem specCommandWordsDecode : Obligations.SpecCommandWordsDecode := by
  unfold Obligations.SpecCommandWordsDecode
  have hrsv {w : Word} (h : rsvOf w ≠ 0) : decode w = none := decode_eq_none_iff.mpr (.inl h)
  have hzero {w : Word} (h : opcodeOf w = 0x00) : decode w = none := decode_eq_none_iff.mpr (.inr (.inl h))
  have hhigh {w : Word} (h : 0x08 ≤ opcodeOf w) : decode w = none := decode_eq_none_iff.mpr (.inr (.inr h))
  exact ⟨decode_encode .init, decode_encode .setDeviceInstance, decode_encode .setLockWaitTicks,
    decode_encode .setkey, decode_encode .generateTag, decode_encode .verifyTag, decode_encode .free,
    hzero rfl, hhigh (by decide), hhigh (by decide), hrsv (by decide), hrsv (by decide), hrsv (by decide)⟩

end Sys2Proof
end

section
/-! SUPPORT. A reserved word from acceptance to idle (spec/30_encoding.md R95; spec/40_engine.md R120, R124, R127). -/

namespace Sys2Proof.Machine

variable {s : State}

/-! ### Acceptance -/

theorem ControlInv.not_busy_of_idle (h : ControlInv s) (hp : s.phase = .idle) : s.busy = false := by
  rw [← Bool.not_eq_true, h.busy_iff, not_not, hp]

/-- A host write of CMD while no command is in flight is an acceptance (R120). -/
theorem hostStep_write_cmd_of_not_busy (hb : s.busy = false) (w : Word) :
    hostStep (.write 0x00 .word w) s = .next (accept s w) := by
  rw [hostStep_write rfl, writeReg, if_pos rfl, offer, hb, if_neg Bool.false_ne_true]

/-! ### CHECK and DONE -/

theorem commandStep_of_reserved (h : decode s.lat.cmd = none) : commandStep s = reservedStep s := by
  simp only [commandStep, h]

/-- CHECK of a reserved word (R124). -/
theorem engineTurn_of_reserved_check (h : decode s.lat.cmd = none) (hp : s.phase = .check) :
    engineTurn s = .next (s.finish BAD_INPUT) := by
  refine engineTurn_of_commandStep (by simp [hp]) ?_
  rw [commandStep_of_reserved h, reservedStep, hp]

/-- DONE of a reserved word (R127). -/
theorem engineTurn_of_reserved_done (h : decode s.lat.cmd = none) (hp : s.phase = .done) :
    engineTurn s = .next s.complete := by
  refine engineTurn_of_commandStep (by simp [hp]) ?_
  rw [commandStep_of_reserved h, reservedStep, hp]

/-- DONE of a command that has no working register in use: it shows the pending result and ends the command. -/
theorem ScratchZero.complete_eq (hz : ScratchZero s) (hL : s.L = 0) :
    s.complete =
      { s with result := s.pres, devError := shownError s.pres s.pcode, busy := false, phase := .idle } := by
  simp only [State.complete, hz.n, hz.i, hz.nb, hz.tb, hz.j, hz.st, hz.acc, hL]

/-- Settles O5: CHECK finishes the word with BAD_INPUT, and DONE finds the working registers as idle left them, zero. -/
theorem reservedWordCompletesWithBadInput : Obligations.ReservedWordCompletesWithBadInput := by
  unfold Obligations.ReservedWordCompletesWithBadInput
  intro s w h hp hw
  have hb : s.busy = false := h.control.not_busy_of_idle hp
  have hd : decode (accept s w).lat.cmd = none := decode_eq_none_iff.mpr hw
  have hcheck : engineTurn (accept s w) = .next ((accept s w).finish BAD_INPUT) :=
    engineTurn_of_reserved_check hd rfl
  have hdone : engineTurn ((accept s w).finish BAD_INPUT) = .next ((accept s w).finish BAD_INPUT).complete :=
    engineTurn_of_reserved_done hd rfl
  have hz : ScratchZero s := h.tag.scratch (by simp [hp])
  have hcomplete := (hz.congr (t := (accept s w).finish BAD_INPUT) rfl).complete_eq (h.L_eq_zero hp)
  refine ⟨hostStep_write_cmd_of_not_busy hb w, hcheck, ?_⟩
  rw [engineTurns_succ hcheck, engineTurns_succ hdone, engineTurns_zero, hcomplete, ← hp]
  rfl

end Sys2Proof.Machine
end

section
/-! SUPPORT. One engine step on the schedule: acceptance, the step of the latched command, CHECK and DONE
(spec/40_engine.md R120, R122, R123, R127). -/

namespace Sys2Proof.Machine

variable {s t : State}

/-! ### The engine's turn on the schedule -/

/-- The next turn is the engine's, and leads on from `u`: the schedule is empty, or an engine turn is taken off it
(log 2). -/
def engineIsNext (s u : State) : Prop :=
  (s.sched = [] ∧ u = s) ∨ ∃ rest, s.sched = .engine :: rest ∧ u = { s with sched := rest }

theorem step_of_engineIsNext {u : State} (h : engineIsNext s u) : step s = engineTurn u := by
  rcases h with ⟨hs, rfl⟩ | ⟨rest, hs, rfl⟩ <;> simp only [step, nextTurn, hs, takeTurn]

theorem engineIsNext.phase_eq {u : State} (h : engineIsNext s u) : u.phase = s.phase := by
  rcases h with ⟨-, rfl⟩ | ⟨_, -, rfl⟩ <;> rfl

theorem engineIsNext.lat_eq {u : State} (h : engineIsNext s u) : u.lat = s.lat := by
  rcases h with ⟨-, rfl⟩ | ⟨_, -, rfl⟩ <;> rfl

/-- A command in a phase off its path stops the machine (log 9). -/
theorem engineTurn_of_noStep (hp : s.phase ≠ .idle) (h : commandStep s = .fault .noStep) :
    engineTurn s = .fault .noStep := by
  simp only [engineTurn, if_neg hp, h]

/-- Settles O3: the three answers a step can give are those of the engine's turn. -/
theorem stepRunsTheDecodedCommand : Obligations.StepRunsTheDecodedCommand := by
  unfold Obligations.StepRunsTheDecodedCommand
  intro s u i hp hd hnext
  have hnext : engineIsNext s u := hnext
  rw [← hnext.phase_eq] at hp
  rw [← hnext.lat_eq] at hd
  rw [step_of_engineIsNext hnext, ← commandStep_of_decode hd]
  exact ⟨fun t => engineTurn_of_commandStep hp, fun a => engineTurn_of_memoryRefused, engineTurn_of_noStep hp⟩

/-! ### Acceptance and CHECK -/

/-- Settles O12: a write of CMD that is not dropped is `accept`. -/
theorem acceptanceLatchesTheCommand : Obligations.AcceptanceLatchesTheCommand := by
  unfold Obligations.AcceptanceLatchesTheCommand
  exact fun s w hb => hostStep_write_cmd_of_not_busy hb w

/-- Every command has a CHECK, and it makes no request (R125). -/
theorem exists_exec_next_of_check (hp : s.phase = .check) (i : Instr) : ∃ t, exec i s = .next t := by
  cases i <;>
    simp [exec, execInit, execFree, execSetDeviceInstance, execSetLockWaitTicks, execSetkey, execGenerateTag,
      execVerifyTag, hp]

/-- Settles O4: the placed command is in CHECK, with the engine's turn next. -/
theorem placedCommandIsRunByTheNextStep : Obligations.PlacedCommandIsRunByTheNextStep := by
  unfold Obligations.PlacedCommandIsRunByTheNextStep
  intro s i
  obtain ⟨t, ht⟩ := exists_exec_next_of_check (s := accept s (encode i)) rfl i
  have hturn : engineTurn (accept s (encode i)) = .next t :=
    engineTurn_of_exec (by simp [accept]) (decode_encode i) ht
  have hword : BitVec.ofNat 32 ((encode i).toNat % 2 ^ 32) = encode i := by
    rw [Nat.mod_eq_of_lt (encode i).isLt, BitVec.ofNat_toNat, BitVec.setWidth_eq]
  refine ⟨⟨t, ht⟩, ?_⟩
  rw [State.withFetchWord, hword, ht, ← hturn]
  exact step_of_engineIsNext (.inr ⟨s.sched, rfl, rfl⟩)

/-! ### DONE -/

/-- DONE is one step for all commands (R127). -/
theorem exec_of_done (hp : s.phase = .done) (i : Instr) : exec i s = .next s.complete := by
  cases i <;>
    simp only [exec, execInit, execFree, execSetDeviceInstance, execSetLockWaitTicks, execSetkey, execGenerateTag,
      execVerifyTag, hp]

/-- What a command leaves behind for the host: the latch, the pending result and the shown one (R127). -/
def resultPart (s : State) := (s.lat, s.pres, s.pcode, s.result, s.devError)

/-- A host access other than a CMD write leaves latch and results alone. -/
theorem resultPart_hostStep {op : HostOp} (hcmd : ∀ w, op ≠ .write 0x00 .word w) (h : hostStep op s = .next t) :
    resultPart t = resultPart s := by
  cases op with
  | write off w v =>
    obtain ⟨hdefined, rfl⟩ := ite_eq_next_iff.mp h
    have hword : w = .word := (definedAccess_iff.mp hdefined).1
    have hoff : off ≠ 0 := fun h0 => hcmd v (by rw [h0, hword])
    rw [writeReg, if_neg hoff]
    rfl
  | read off w => obtain ⟨-, rfl⟩ := ite_eq_next_iff.mp h; rfl
  | store a v => obtain ⟨-, rfl⟩ := byteAccess_eq_next_iff.mp h; rfl
  | load a => obtain ⟨-, rfl⟩ := byteAccess_eq_next_iff.mp h; rfl
  | wait => cases h; rfl

/-- While the engine is idle only a reset and a CMD write reach latch and results. -/
theorem resultPart_takeTurn {u : Turn} (hp : s.phase = .idle) (hr : u ≠ .reset)
    (hcmd : ∀ w, u ≠ .host (.write 0x00 .word w)) (h : takeTurn u s = .next t) : resultPart t = resultPart s := by
  cases u with
  | engine => cases (engineTurn_of_idle hp).symm.trans h; rfl
  | host op => exact resultPart_hostStep (fun w he => hcmd w (congrArg Turn.host he)) h
  | reset => exact absurd rfl hr
  | otherAcquire inst =>
    cases h
    unfold otherAcquire
    split <;> rfl
  | otherRelease inst => cases h; rfl

/-- Settles O17: DONE is `State.complete` for each command, and its outcome stands until the next acceptance. -/
theorem doneCompletesEveryCommand : Obligations.DoneCompletesEveryCommand := by
  unfold Obligations.DoneCompletesEveryCommand
  refine ⟨fun u s t hp hr hcmd h => ?_, fun i s hp => exec_of_done hp i⟩
  simpa only [resultPart, Prod.mk.injEq] using resultPart_takeTurn hp hr hcmd h

end Sys2Proof.Machine
end

section
/-! SUPPORT. The fields that the host writes during a command: no step of a command reads or changes them (R121,
R324). -/

namespace Sys2Proof.Machine

/-- The fields that the host's register writes reach while a command is in flight, changed: the operand registers and
OVR. -/
def State.mapHost (g : Regs → Regs) (o : Bool → Bool) (s : State) : State :=
  { s with regs := g s.regs, ovr := o s.ovr }

variable (g : Regs → Regs) (o : Bool → Bool) (s : State)

/-! ### What steps read -/

@[simp] theorem mapHost_phase : (s.mapHost g o).phase = s.phase := rfl
@[simp] theorem mapHost_lat : (s.mapHost g o).lat = s.lat := rfl
@[simp] theorem mapHost_ctx : (s.mapHost g o).ctx = s.ctx := rfl
@[simp] theorem mapHost_n : (s.mapHost g o).n = s.n := rfl
@[simp] theorem mapHost_i : (s.mapHost g o).i = s.i := rfl
@[simp] theorem mapHost_nb : (s.mapHost g o).nb = s.nb := rfl
@[simp] theorem mapHost_tb : (s.mapHost g o).tb = s.tb := rfl
@[simp] theorem mapHost_j : (s.mapHost g o).j = s.j := rfl
@[simp] theorem mapHost_st : (s.mapHost g o).st = s.st := rfl
@[simp] theorem mapHost_acc : (s.mapHost g o).acc = s.acc := rfl
@[simp] theorem mapHost_pres : (s.mapHost g o).pres = s.pres := rfl
@[simp] theorem admitsRead_mapHost (a : Word) : admitsRead (s.mapHost g o) a = admitsRead s a := rfl
@[simp] theorem admitsWrite_mapHost (a : Word) : admitsWrite (s.mapHost g o) a = admitsWrite s a := rfl
@[simp] theorem byteAt_mapHost (a : Word) : byteAt (s.mapHost g o) a = byteAt s a := rfl
@[simp] theorem readBuffer_mapHost (a : Word) (len : Nat) : readBuffer (s.mapHost g o) a len = readBuffer s a len := rfl
@[simp] theorem blockAddr_mapHost : blockAddr (s.mapHost g o) = blockAddr s := rfl
@[simp] theorem lastLen_mapHost : lastLen (s.mapHost g o) = lastLen s := rfl
@[simp] theorem tagByteAddr_mapHost : tagByteAddr (s.mapHost g o) = tagByteAddr s := rfl
@[simp] theorem tagCheck_mapHost : tagCheck (s.mapHost g o) = tagCheck s := rfl

/-! ### Requests -/

@[simp] theorem emit_mapHost (rs : List Request) : (s.mapHost g o).emit rs = (s.emit rs).mapHost g o := rfl

@[simp] theorem storeByte_mapHost (a : Word) (v : Byte) :
    (s.mapHost g o).storeByte a v = (s.storeByte a v).mapHost g o := rfl

@[simp] theorem cipherBind_mapHost :
    cipherBind (s.mapHost g o) = ((cipherBind s).1, (cipherBind s).2.mapHost g o) := rfl

@[simp] theorem cipherAcquire_mapHost :
    cipherAcquire (s.mapHost g o) = ((cipherAcquire s).1, (cipherAcquire s).2.mapHost g o) := rfl

@[simp] theorem cipherEncrypt_mapHost (x : Block) :
    cipherEncrypt (s.mapHost g o) x = ((cipherEncrypt s x).1, (cipherEncrypt s x).2.mapHost g o) := rfl

theorem reading_mapHost {a : Word} {len : Nat} {k : List Byte → State → State}
    (hk : ∀ b u, k b (u.mapHost g o) = (k b u).mapHost g o) :
    reading (s.mapHost g o) a len k = onNext (State.mapHost g o) (reading s a len k) := by
  simp only [reading, admitsRead_mapHost, readBuffer_mapHost, emit_mapHost, hk]
  split <;> rfl

theorem readingByte_mapHost {a : Word} {k : Byte → State → State}
    (hk : ∀ b u, k b (u.mapHost g o) = (k b u).mapHost g o) :
    readingByte (s.mapHost g o) a k = onNext (State.mapHost g o) (readingByte s a k) := by
  simp only [readingByte, admitsRead_mapHost, byteAt_mapHost, emit_mapHost, hk]
  split <;> rfl

theorem writing_mapHost {a : Word} {v : Byte} {k : State → State}
    (hk : ∀ u, k (u.mapHost g o) = (k u).mapHost g o) :
    writing (s.mapHost g o) a v k = onNext (State.mapHost g o) (writing s a v k) := by
  simp only [writing, admitsWrite_mapHost, storeByte_mapHost, emit_mapHost, hk]
  split <;> rfl

/-! ### Steps -/

theorem lockStep_mapHost (p q : Phase) : lockStep p q (s.mapHost g o) = (lockStep p q s).mapHost g o := by
  simp only [lockStep, cipherAcquire_mapHost]
  split <;> rfl

theorem bindStep_mapHost : bindStep (s.mapHost g o) = (bindStep s).mapHost g o := by
  simp only [bindStep, cipherBind_mapHost]
  split <;> rfl

theorem encLStep_mapHost : encLStep (s.mapHost g o) = (encLStep s).mapHost g o := by
  simp only [encLStep, cipherEncrypt_mapHost]
  split <;> rfl

theorem blockStep_mapHost (b : List Byte) : blockStep b (s.mapHost g o) = (blockStep b s).mapHost g o := by
  simp only [blockStep, mapHost_st, cipherEncrypt_mapHost]
  split <;> rfl

theorem lastBlockStep_mapHost (b : List Byte) : lastBlockStep b (s.mapHost g o) = (lastBlockStep b s).mapHost g o := by
  simp only [lastBlockStep, mapHost_st, mapHost_ctx, mapHost_nb, cipherEncrypt_mapHost]
  split <;> rfl

theorem checkDeviceInstance_mapHost : checkDeviceInstance (s.mapHost g o) = (checkDeviceInstance s).mapHost g o := by
  simp only [checkDeviceInstance, mapHost_lat, apply_ite (State.mapHost g o)]
  rfl

theorem checkLockWaitTicks_mapHost : checkLockWaitTicks (s.mapHost g o) = (checkLockWaitTicks s).mapHost g o := by
  simp only [checkLockWaitTicks, mapHost_lat, apply_ite (State.mapHost g o)]
  rfl

theorem checkSetkey_mapHost : checkSetkey (s.mapHost g o) = (checkSetkey s).mapHost g o := by
  simp only [checkSetkey, mapHost_lat, apply_ite (State.mapHost g o)]
  rfl

theorem checkTag_mapHost : checkTag (s.mapHost g o) = (checkTag s).mapHost g o := by
  simp only [checkTag, tagCheck_mapHost, apply_ite (State.mapHost g o)]
  rfl

theorem releaseTag_mapHost : releaseTag (s.mapHost g o) = (releaseTag s).mapHost g o := by
  simp only [releaseTag, mapHost_pres, apply_ite (State.mapHost g o)]
  rfl

theorem execBlock_mapHost : execBlock (s.mapHost g o) = onNext (State.mapHost g o) (execBlock s) := by
  simp only [execBlock, mapHost_i, mapHost_n, blockAddr_mapHost, lastLen_mapHost,
    reading_mapHost g o s fun b u => blockStep_mapHost g o u b,
    reading_mapHost g o s fun b u => lastBlockStep_mapHost g o u b]
  split
  · rfl
  · split <;> rfl

theorem generateOut_mapHost : generateOut (s.mapHost g o) = onNext (State.mapHost g o) (generateOut s) := by
  simp only [generateOut, mapHost_j, mapHost_tb, mapHost_st, mapHost_lat, tagByteAddr_mapHost,
    writing_mapHost g o s (k := fun t => { t with j := s.j + 1 }) fun _ => rfl]
  split <;> rfl

theorem verifyOut_mapHost : verifyOut (s.mapHost g o) = onNext (State.mapHost g o) (verifyOut s) := by
  simp only [verifyOut, mapHost_j, mapHost_tb, mapHost_acc, tagByteAddr_mapHost,
    readingByte_mapHost g o s (k := compareStep) fun _ _ => rfl]
  split <;> rfl

/-! ### Commands -/

theorem execInit_mapHost : execInit (s.mapHost g o) = onNext (State.mapHost g o) (execInit s) := by
  simp only [execInit, mapHost_phase]
  split <;> rfl

theorem execSetDeviceInstance_mapHost :
    execSetDeviceInstance (s.mapHost g o) = onNext (State.mapHost g o) (execSetDeviceInstance s) := by
  simp only [execSetDeviceInstance, mapHost_phase, checkDeviceInstance_mapHost]
  split <;> rfl

theorem execSetLockWaitTicks_mapHost :
    execSetLockWaitTicks (s.mapHost g o) = onNext (State.mapHost g o) (execSetLockWaitTicks s) := by
  simp only [execSetLockWaitTicks, mapHost_phase, checkLockWaitTicks_mapHost]
  split <;> rfl

theorem reservedStep_mapHost : reservedStep (s.mapHost g o) = onNext (State.mapHost g o) (reservedStep s) := by
  simp only [reservedStep, mapHost_phase]
  split <;> rfl

theorem execSetkey_mapHost : execSetkey (s.mapHost g o) = onNext (State.mapHost g o) (execSetkey s) := by
  simp only [execSetkey, mapHost_phase, mapHost_lat, checkSetkey_mapHost, bindStep_mapHost, lockStep_mapHost,
    encLStep_mapHost, reading_mapHost g o s (k := loadkeyStep) fun _ _ => rfl]
  split <;> rfl

theorem execGenerateTag_mapHost : execGenerateTag (s.mapHost g o) = onNext (State.mapHost g o) (execGenerateTag s) := by
  simp only [execGenerateTag, mapHost_phase, checkTag_mapHost, lockStep_mapHost, execBlock_mapHost, releaseTag_mapHost,
    generateOut_mapHost]
  split <;> rfl

theorem execVerifyTag_mapHost : execVerifyTag (s.mapHost g o) = onNext (State.mapHost g o) (execVerifyTag s) := by
  simp only [execVerifyTag, mapHost_phase, checkTag_mapHost, lockStep_mapHost, execBlock_mapHost, releaseTag_mapHost,
    verifyOut_mapHost]
  split <;> rfl

/-- A step of any command is the same whatever operand registers and OVR hold, and leaves them alone. -/
theorem exec_mapHost (i : Instr) : exec i (s.mapHost g o) = onNext (State.mapHost g o) (exec i s) := by
  cases i with
  | init => exact execInit_mapHost g o s
  | setDeviceInstance => exact execSetDeviceInstance_mapHost g o s
  | setLockWaitTicks => exact execSetLockWaitTicks_mapHost g o s
  | setkey => exact execSetkey_mapHost g o s
  | generateTag => exact execGenerateTag_mapHost g o s
  | verifyTag => exact execVerifyTag_mapHost g o s
  | free => exact execInit_mapHost g o s

theorem commandStep_mapHost : commandStep (s.mapHost g o) = onNext (State.mapHost g o) (commandStep s) := by
  simp only [commandStep, mapHost_lat, exec_mapHost, reservedStep_mapHost]
  split <;> rfl

theorem engineTurn_mapHost : engineTurn (s.mapHost g o) = onNext (State.mapHost g o) (engineTurn s) := by
  simp only [engineTurn, mapHost_phase, commandStep_mapHost]
  split
  · rfl
  · rcases commandStep s with t | r | r
    · rfl
    · cases r <;> rfl
    · rfl

/-! ### A dropped command -/

theorem hostStep_write_cmd_of_busy {s : State} (hb : s.busy = true) (w : Word) :
    hostStep (.write 0x00 .word w) s = .next { s with ovr := true } := by
  rw [hostStep_write rfl, writeReg, if_pos rfl, offer, if_pos hb]

/-- Settles O13: OVR is one of the fields that no step reads. -/
theorem droppedCommandOnlySetsOvr : Obligations.DroppedCommandOnlySetsOvr := by
  unfold Obligations.DroppedCommandOnlySetsOvr
  exact ⟨fun s w hb => hostStep_write_cmd_of_busy hb w, fun s i => exec_mapHost id (fun _ => true) s i,
    engineTurn_mapHost id fun _ => true⟩

end Sys2Proof.Machine
end

section
/-! SUPPORT. The device's lock: LOCK and RELEASE of every command that has them (R131, R132), and the phases in which
each kind of request is issued (R135). -/

namespace Sys2Proof.Machine

variable {s t u : State}

/-! ### LOCK -/

theorem exec_setkey_of_lock (hp : s.phase = .lock) : exec .setkey s = .next (lockStep .encL .cleanup s) := by
  simp only [exec, execSetkey, hp]

/-- LOCK is one step for both tag commands. -/
theorem exec_tag_of_lock {i : Instr} (hi : i = .generateTag ∨ i = .verifyTag) (hp : s.phase = .lock) :
    exec i s = .next (lockStep .block .done s) := by
  rcases hi with rfl | rfl <;> simp only [exec, execGenerateTag, execVerifyTag, hp]

theorem exec_of_lock {i : Instr} (hi : i = .setkey ∨ i = .generateTag ∨ i = .verifyTag) (hp : s.phase = .lock) :
    exec i s =
      .next (lockStep (if i = .setkey then .encL else .block) (if i = .setkey then .cleanup else .done) s) := by
  rcases hi with rfl | hi
  · exact exec_setkey_of_lock hp
  · have hne : i ≠ .setkey := by rcases hi with rfl | rfl <;> decide
    rw [exec_tag_of_lock hi hp, if_neg hne, if_neg hne]

/-- Settles O18: the device's answer decides LOCK, and it is never a grant while another user holds the lock. -/
theorem lockFollowsTheDevicesAnswer : Obligations.LockFollowsTheDevicesAnswer := by
  unfold Obligations.LockFollowsTheDevicesAnswer
  intro s i hp hi
  obtain ⟨d, hlocks, -, -, hcases⟩ :=
    lockStep_cases (if i = .setkey then .encL else .block) (if i = .setkey then .cleanup else .done) s
  refine ⟨(answerAcquire s.dev (effInst s.ctx)).1, d, fun x rest hlaid hfree => ?_, fun hother hgranted => ?_, hlocks,
    ?_⟩
  · rw [answerAcquire_of_laid hlaid hfree]
  · exact answerAcquire_granted hgranted hother
  · rw [exec_of_lock hi hp]
    rcases hcases with ⟨-, ha, he⟩ | ⟨ha, he⟩ | ⟨c, ha, he⟩ <;> rw [ha, he]

/-! ### RELEASE -/

theorem exec_setkey_of_release (hp : s.phase = .release) : exec .setkey s = .next (releaseSetkey s) := by
  simp only [exec, execSetkey, hp]

/-- RELEASE is one step for both tag commands. -/
theorem exec_tag_of_release {i : Instr} (hi : i = .generateTag ∨ i = .verifyTag) (hp : s.phase = .release) :
    exec i s = .next (releaseTag s) := by
  rcases hi with rfl | rfl <;> simp only [exec, execGenerateTag, execVerifyTag, hp]

theorem lockInst_notMem_cipherRelease_locks (s : State) : s.lockInst ∉ (cipherRelease s).dev.locks := by
  simp [cipherRelease]

/-- Settles O19: RELEASE is one of the phases in which a legal state holds the lock, and DONE is none. -/
theorem releaseGivesTheLockBack : Obligations.ReleaseGivesTheLockBack := by
  unfold Obligations.ReleaseGivesTheLockBack
  refine ⟨fun s h => ⟨fun hp => ?_, fun hp => ?_⟩, fun s hp => ?_⟩
  · exact h.control.lock_held.mpr (hp ▸ by decide)
  · exact h.control.not_held (hp ▸ by decide)
  · exact ⟨(cipherRelease s).dev, lockInst_notMem_cipherRelease_locks s, exec_setkey_of_release hp,
      fun i hi => exec_tag_of_release hi hp⟩

/-! ### Which phases issue which requests -/

/-- The phases in which the engine issues a request: of the memory port those of R183, R203, R204, R207 and R208, of the
cipher port those of R130's rules. -/
def phasesOfRequest : Request → List Phase
  | .memRead _ => [.loadkey, .block, .out]
  | .memWrite _ _ => [.out]
  | .cipherBind _ _ _ _ => [.bind]
  | .cipherAcquire _ _ => [.lock]
  | .cipherEncrypt _ _ _ _ _ => [.encL, .block]
  | .cipherRelease _ => [.release]
  | .cipherUnbind _ => [.discard, .cleanup, .clear]

/-- From `s` to `t` requests are only appended, each one that the phase of `s` issues. -/
def IssuesInPhase (s t : State) : Prop :=
  ∃ new, t.trace = s.trace ++ new ∧ ∀ r ∈ new, s.phase ∈ phasesOfRequest r

theorem issuesInPhase_of_trace_eq (h : t.trace = s.trace) : IssuesInPhase s t :=
  ⟨[], by simp [h], fun _ hr => absurd hr List.not_mem_nil⟩

/-- A step that issues one request. -/
theorem issuesInPhase_of_request {r : Request} (h : t.trace = s.trace ++ [r]) (hp : s.phase ∈ phasesOfRequest r) :
    IssuesInPhase s t :=
  ⟨[r], h, fun _ hx => List.mem_singleton.mp hx ▸ hp⟩

theorem IssuesInPhase.trans (h : IssuesInPhase s t) (hp : t.phase = s.phase) (h' : IssuesInPhase t u) :
    IssuesInPhase s u := by
  obtain ⟨new, ht, hnew⟩ := h
  obtain ⟨new', hu, hnew'⟩ := h'
  refine ⟨new ++ new', by rw [hu, ht, List.append_assoc], fun r hr => ?_⟩
  exact (List.mem_append.mp hr).elim (hnew r) (fun hr => hp ▸ hnew' r hr)

theorem issuesInPhase_reading {a : Word} {len : Nat} {k : List Byte → State → State}
    (hp : s.phase ∈ [Phase.loadkey, .block, .out])
    (hk : ∀ b v, v.phase = s.phase → IssuesInPhase v (k b v)) (h : reading s a len k = .next t) :
    IssuesInPhase s t := by
  obtain ⟨-, rfl⟩ := reading_eq_next_iff.mp h
  have hreads : IssuesInPhase s (s.emit ((bufferAddrs a len).map .memRead)) := by
    refine ⟨_, rfl, fun r hr => ?_⟩
    obtain ⟨x, -, rfl⟩ := List.mem_map.mp hr
    exact hp
  exact hreads.trans rfl (hk _ _ rfl)

/-- A step that unbinds what is bound (R182). -/
theorem issuesInPhase_of_cipherUnbind (hp : s.phase ∈ [Phase.discard, .cleanup, .clear])
    (h : t.trace = (cipherUnbind s).trace) : IssuesInPhase s t := by
  refine ⟨_, h, fun r hr => ?_⟩
  split at hr
  · exact List.mem_singleton.mp hr ▸ hp
  · exact absurd hr List.not_mem_nil

theorem issuesInPhase_lockStep (g f : Phase) (hp : s.phase = .lock) : IssuesInPhase s (lockStep g f s) := by
  have hlock : s.phase ∈ [Phase.lock] := by simp [hp]
  simp only [lockStep]
  split <;> exact issuesInPhase_of_request rfl hlock

theorem issuesInPhase_bindStep (hp : s.phase = .bind) : IssuesInPhase s (bindStep s) := by
  have hbind : s.phase ∈ [Phase.bind] := by simp [hp]
  simp only [bindStep]
  split <;> exact issuesInPhase_of_request rfl hbind

theorem issuesInPhase_encLStep (hp : s.phase = .encL) : IssuesInPhase s (encLStep s) := by
  have hencrypt : s.phase ∈ [Phase.encL, .block] := by simp [hp]
  simp only [encLStep]
  split <;> exact issuesInPhase_of_request rfl hencrypt

theorem issuesInPhase_blockStep (hp : s.phase = .block) (b : List Byte) : IssuesInPhase s (blockStep b s) := by
  have hencrypt : s.phase ∈ [Phase.encL, .block] := by simp [hp]
  simp only [blockStep]
  split <;> exact issuesInPhase_of_request rfl hencrypt

theorem issuesInPhase_lastBlockStep (hp : s.phase = .block) (b : List Byte) :
    IssuesInPhase s (lastBlockStep b s) := by
  have hencrypt : s.phase ∈ [Phase.encL, .block] := by simp [hp]
  simp only [lastBlockStep]
  split <;> exact issuesInPhase_of_request rfl hencrypt

theorem issuesInPhase_unlockStep (hp : s.phase = .release) (h : t.trace = (unlockStep s).trace) : IssuesInPhase s t :=
  issuesInPhase_of_request h (show s.phase ∈ [Phase.release] by simp [hp])

theorem issuesInPhase_checkTag (s : State) : IssuesInPhase s (checkTag s) := by
  unfold checkTag
  split <;> exact issuesInPhase_of_trace_eq rfl

theorem issuesInPhase_releaseTag (hp : s.phase = .release) : IssuesInPhase s (releaseTag s) := by
  unfold releaseTag
  split <;> exact issuesInPhase_unlockStep hp rfl

theorem issuesInPhase_execBlock (hp : s.phase = .block) (h : execBlock s = .next t) : IssuesInPhase s t := by
  have hreads : s.phase ∈ [Phase.loadkey, .block, .out] := by simp [hp]
  unfold execBlock at h
  split at h
  case isTrue => exact issuesInPhase_reading hreads (fun b v hv => issuesInPhase_blockStep (hv.trans hp) b) h
  case isFalse =>
    split at h
    case isTrue => exact issuesInPhase_reading hreads (fun b v hv => issuesInPhase_lastBlockStep (hv.trans hp) b) h
    case isFalse => cases h

theorem issuesInPhase_generateOut (hp : s.phase = .out) (h : generateOut s = .next t) : IssuesInPhase s t := by
  unfold generateOut at h
  split at h
  case isTrue =>
    obtain ⟨-, rfl⟩ := writing_eq_next_iff.mp h
    exact issuesInPhase_of_request rfl (show s.phase ∈ [Phase.out] by simp [hp])
  case isFalse => cases h; exact issuesInPhase_of_trace_eq rfl

theorem issuesInPhase_verifyOut (hp : s.phase = .out) (h : verifyOut s = .next t) : IssuesInPhase s t := by
  unfold verifyOut at h
  split at h
  case isTrue =>
    obtain ⟨-, rfl⟩ := readingByte_eq_next_iff.mp h
    exact issuesInPhase_of_request rfl (show s.phase ∈ [Phase.loadkey, .block, .out] by simp [hp])
  case isFalse => cases h; exact issuesInPhase_of_trace_eq rfl

theorem issuesInPhase_execInit (h : execInit s = .next t) : IssuesInPhase s t := by
  unfold execInit at h
  split at h <;> cases h
  case h_1 => exact issuesInPhase_of_trace_eq rfl
  case h_2 hp => exact issuesInPhase_of_cipherUnbind (by simp [hp]) rfl
  case h_3 => exact issuesInPhase_of_trace_eq rfl

theorem issuesInPhase_execSetDeviceInstance (h : execSetDeviceInstance s = .next t) : IssuesInPhase s t := by
  unfold execSetDeviceInstance at h
  split at h <;> cases h
  case h_1 => unfold checkDeviceInstance; split <;> exact issuesInPhase_of_trace_eq rfl
  case h_2 => exact issuesInPhase_of_trace_eq rfl
  case h_3 => exact issuesInPhase_of_trace_eq rfl

theorem issuesInPhase_execSetLockWaitTicks (h : execSetLockWaitTicks s = .next t) : IssuesInPhase s t := by
  unfold execSetLockWaitTicks at h
  split at h <;> cases h
  case h_1 => unfold checkLockWaitTicks; split <;> exact issuesInPhase_of_trace_eq rfl
  case h_2 => exact issuesInPhase_of_trace_eq rfl
  case h_3 => exact issuesInPhase_of_trace_eq rfl

theorem issuesInPhase_reservedStep (h : reservedStep s = .next t) : IssuesInPhase s t := by
  unfold reservedStep at h
  split at h <;> cases h <;> exact issuesInPhase_of_trace_eq rfl

theorem issuesInPhase_execSetkey (h : execSetkey s = .next t) : IssuesInPhase s t := by
  unfold execSetkey at h
  split at h
  case h_3 hp =>
    exact issuesInPhase_reading (k := loadkeyStep) (by simp [hp]) (fun _ _ _ => issuesInPhase_of_trace_eq rfl) h
  all_goals cases h
  case h_1 => unfold checkSetkey; split <;> exact issuesInPhase_of_trace_eq rfl
  case h_2 hp => exact issuesInPhase_of_cipherUnbind (by simp [hp]) rfl
  case h_4 hp => exact issuesInPhase_bindStep hp
  case h_5 hp => exact issuesInPhase_lockStep .encL .cleanup hp
  case h_6 hp => exact issuesInPhase_encLStep hp
  case h_7 => exact issuesInPhase_of_trace_eq rfl
  case h_8 hp => exact issuesInPhase_unlockStep hp rfl
  case h_9 hp => exact issuesInPhase_of_cipherUnbind (by simp [hp]) rfl
  case h_10 => exact issuesInPhase_of_trace_eq rfl

theorem issuesInPhase_execGenerateTag (h : execGenerateTag s = .next t) : IssuesInPhase s t := by
  unfold execGenerateTag at h
  split at h
  case h_3 hp => exact issuesInPhase_execBlock hp h
  case h_5 hp => exact issuesInPhase_generateOut hp h
  all_goals cases h
  case h_1 => exact issuesInPhase_checkTag s
  case h_2 hp => exact issuesInPhase_lockStep .block .done hp
  case h_4 hp => exact issuesInPhase_releaseTag hp
  case h_6 => exact issuesInPhase_of_trace_eq rfl

theorem issuesInPhase_execVerifyTag (h : execVerifyTag s = .next t) : IssuesInPhase s t := by
  unfold execVerifyTag at h
  split at h
  case h_3 hp => exact issuesInPhase_execBlock hp h
  case h_5 hp => exact issuesInPhase_verifyOut hp h
  all_goals cases h
  case h_1 => exact issuesInPhase_checkTag s
  case h_2 hp => exact issuesInPhase_lockStep .block .done hp
  case h_4 hp => exact issuesInPhase_releaseTag hp
  case h_6 => exact issuesInPhase_of_trace_eq rfl

theorem issuesInPhase_exec {i : Instr} (h : exec i s = .next t) : IssuesInPhase s t := by
  cases i with
  | init => exact issuesInPhase_execInit h
  | setDeviceInstance => exact issuesInPhase_execSetDeviceInstance h
  | setLockWaitTicks => exact issuesInPhase_execSetLockWaitTicks h
  | setkey => exact issuesInPhase_execSetkey h
  | generateTag => exact issuesInPhase_execGenerateTag h
  | verifyTag => exact issuesInPhase_execVerifyTag h
  | free => exact issuesInPhase_execInit (execFree_eq_execInit ▸ h)

theorem issuesInPhase_engineTurn (h : engineTurn s = .next t) : IssuesInPhase s t := by
  rcases eq_or_commandStep_of_engineTurn h with rfl | hstep
  · exact issuesInPhase_of_trace_eq rfl
  · unfold commandStep at hstep
    split at hstep
    · exact issuesInPhase_exec hstep
    · exact issuesInPhase_reservedStep hstep

/-- In ENC_L and BLOCK of a legal state a cipher is bound (R55, R184, R200). -/
theorem Inv.bound_of_encrypting (h : Inv s) (hp : s.phase ∈ [Phase.encL, .block]) : s.ctx.bound = true := by
  simp only [List.mem_cons, List.not_mem_nil, or_false] at hp
  rcases hp with hp | hp
  · exact (h.context.halfway (h.control.setkey_of_phase (by simp [hp])) (by simp [hp])).1
  · have hw : TagWork s := h.tag.work (h.control.tagCommand_of_block hp) (by simp [hp])
    have hready : s.ctx.ready = true := by
      have hpassed := hw.passed
      simp only [tagCheck, Bool.and_eq_true] at hpassed
      exact hpassed.1.1.1.1
    exact h.context.ready_bound hready

/-- Settles O20: the phases that encrypt hold the lock and have a cipher bound, those that bind and unbind do not hold
it. -/
theorem encryptOnlyUnderTheLock : Obligations.EncryptOnlyUnderTheLock := by
  unfold Obligations.EncryptOnlyUnderTheLock
  intro s t h hturn
  obtain ⟨new, htrace, hnew⟩ := issuesInPhase_engineTurn hturn
  refine ⟨new, htrace, fun inst f kb key x hr => ?_, fun inst f kb key hr => ?_, fun inst hr => ?_⟩
  · have hp : s.phase ∈ [Phase.encL, .block] := hnew _ hr
    have hlocked : ∀ p ∈ [Phase.encL, .block], p ∈ lockedPhases := by decide
    exact ⟨h.control.lock_held.mpr (hlocked _ hp), h.bound_of_encrypting hp, by simpa using hp⟩
  · have hp : s.phase ∈ [Phase.bind] := hnew _ hr
    have hunlocked : ∀ p ∈ [Phase.bind], p ∉ lockedPhases := by decide
    exact h.control.not_held (hunlocked _ hp)
  · have hp : s.phase ∈ [Phase.discard, .cleanup, .clear] := hnew _ hr
    have hunlocked : ∀ p ∈ [Phase.discard, .cleanup, .clear], p ∉ lockedPhases := by decide
    exact h.control.not_held (hunlocked _ hp)

end Sys2Proof.Machine
end

section
/-! SUPPORT. What a step of each command leaves unchanged (R68, R127, R181 to R190, R211, R240 to R245). -/

namespace Sys2Proof.Machine

variable {s t : State}

theorem WritesNoMemory.byteAt_eq (h : WritesNoMemory s t) (a : Word) : byteAt t a = byteAt s a := by
  rw [byteAt, byteAt, h.mem]

/-- DONE (R127) leaves the context, the operands, the lock bits and everything outside the block alone. -/
theorem complete_frame (s : State) :
    s.complete.ctx = s.ctx ∧ s.complete.trace = s.trace ∧ s.complete.regs = s.regs ∧ s.complete.lat = s.lat ∧
      s.complete.ovr = s.ovr ∧ s.complete.lockHeld = s.lockHeld ∧ s.complete.lockInst = s.lockInst ∧
      s.complete.dev = s.dev ∧ s.complete.mem = s.mem :=
  ⟨rfl, rfl, rfl, rfl, rfl, rfl, rfl, rfl, rfl⟩

/-! ### INIT, FREE and the setters -/

/-- From `s` to `t` only context, phase, pending result, bindings and requests change. -/
def LifecycleFrame (s t : State) : Prop :=
  t = { s with
    ctx := t.ctx, phase := t.phase, pres := t.pres, dev := { s.dev with bindings := t.dev.bindings }, trace := t.trace }

theorem execInit_frame (hp : s.phase ≠ .done) (h : execInit s = .next t) : LifecycleFrame s t := by
  unfold execInit at h
  split at h <;> cases h
  case h_1 => rfl
  case h_2 => rfl
  case h_3 hdone => exact absurd hdone hp

theorem execSetDeviceInstance_frame (hp : s.phase ≠ .done) (h : execSetDeviceInstance s = .next t) :
    LifecycleFrame s t := by
  unfold execSetDeviceInstance at h
  split at h <;> cases h
  case h_1 => unfold checkDeviceInstance; split <;> rfl
  case h_2 => rfl
  case h_3 hdone => exact absurd hdone hp

theorem execSetLockWaitTicks_frame (hp : s.phase ≠ .done) (h : execSetLockWaitTicks s = .next t) :
    LifecycleFrame s t := by
  unfold execSetLockWaitTicks at h
  split at h <;> cases h
  case h_1 => unfold checkLockWaitTicks; split <;> rfl
  case h_2 => rfl
  case h_3 hdone => exact absurd hdone hp

/-- The commands of spec/44_lifecycle.md. -/
def lifecycle (i : Instr) : Prop := i = .init ∨ i = .free ∨ i = .setDeviceInstance ∨ i = .setLockWaitTicks

theorem exec_lifecycle_frame {i : Instr} (hi : lifecycle i) (hp : s.phase ≠ .done) (h : exec i s = .next t) :
    LifecycleFrame s t := by
  rcases hi with rfl | rfl | rfl | rfl
  · exact execInit_frame hp h
  · exact execInit_frame hp (execFree_eq_execInit ▸ h)
  · exact execSetDeviceInstance_frame hp h
  · exact execSetLockWaitTicks_frame hp h

/-- SET_DEVICE_INSTANCE reaches its own pair of the context, and issues no request (R241, R245). -/
theorem execSetDeviceInstance_ctx (h : execSetDeviceInstance s = .next t) :
    t.ctx = { s.ctx with inst := t.ctx.inst, instSet := t.ctx.instSet } ∧ t.dev = s.dev ∧ t.trace = s.trace := by
  unfold execSetDeviceInstance at h
  split at h <;> cases h
  case h_1 => unfold checkDeviceInstance; split <;> exact ⟨rfl, rfl, rfl⟩
  case h_2 => exact ⟨rfl, rfl, rfl⟩
  case h_3 => exact ⟨rfl, rfl, rfl⟩

/-- SET_LOCK_WAIT_TICKS reaches its own pair of the context, and issues no request (R242, R245). -/
theorem execSetLockWaitTicks_ctx (h : execSetLockWaitTicks s = .next t) :
    t.ctx = { s.ctx with ticks := t.ctx.ticks, ticksSet := t.ctx.ticksSet } ∧ t.dev = s.dev ∧
      t.trace = s.trace := by
  unfold execSetLockWaitTicks at h
  split at h <;> cases h
  case h_1 => unfold checkLockWaitTicks; split <;> exact ⟨rfl, rfl, rfl⟩
  case h_2 => exact ⟨rfl, rfl, rfl⟩
  case h_3 => exact ⟨rfl, rfl, rfl⟩

/-- Settles O39: the frame of each step before DONE, that of DONE, and that of the setters in every phase. -/
theorem lifecycleCommandsLeaveTheRestAlone : Obligations.LifecycleCommandsLeaveTheRestAlone := by
  unfold Obligations.LifecycleCommandsLeaveTheRestAlone
  intro s t i hi h
  refine ⟨fun a => ?_, fun hp => exec_lifecycle_frame hi hp h, fun hp => ?_, ?_, ?_⟩
  · rcases exec_writes h with hw | ⟨rfl, -⟩
    · exact hw.byteAt_eq a
    · simp at hi
  · cases (exec_of_done hp i).symm.trans h
    exact complete_frame s
  · rintro rfl; exact execSetDeviceInstance_ctx h
  · rintro rfl; exact execSetLockWaitTicks_ctx h

/-! ### SETKEY -/

/-- The device configuration of a context (10_state.md R43). -/
def deviceConfig (c : Context) := (c.instSet, c.inst, c.ticksSet, c.ticks)

/-- From `s` to `t` only what SETKEY works on changes: the context but for its device configuration, phase, pending
result, L, lock bits, device and requests. -/
structure SetkeyFrame (s t : State) : Prop where
  config : deviceConfig t.ctx = deviceConfig s.ctx
  rest : t = { s with
    ctx := t.ctx, phase := t.phase, pres := t.pres, pcode := t.pcode, L := t.L, lockHeld := t.lockHeld,
    lockInst := t.lockInst, dev := t.dev, trace := t.trace }

theorem checkSetkey_frame (s : State) : SetkeyFrame s (checkSetkey s) := by
  unfold checkSetkey
  split <;> exact ⟨rfl, rfl⟩

theorem bindStep_frame (s : State) : SetkeyFrame s (bindStep s) := by
  simp only [bindStep]
  split <;> exact ⟨rfl, rfl⟩

theorem lockStep_frame (g f : Phase) (s : State) : SetkeyFrame s (lockStep g f s) := by
  simp only [lockStep]
  split <;> exact ⟨rfl, rfl⟩

theorem encLStep_frame (s : State) : SetkeyFrame s (encLStep s) := by
  simp only [encLStep]
  split <;> exact ⟨rfl, rfl⟩

theorem execSetkey_frame (hp : s.phase ≠ .done) (h : execSetkey s = .next t) : SetkeyFrame s t := by
  unfold execSetkey at h
  split at h
  case h_3 =>
    obtain ⟨-, rfl⟩ := reading_eq_next_iff.mp h
    exact ⟨rfl, rfl⟩
  all_goals cases h
  case h_1 => exact checkSetkey_frame s
  case h_2 => exact ⟨rfl, rfl⟩
  case h_4 => exact bindStep_frame s
  case h_5 => exact lockStep_frame .encL .cleanup s
  case h_6 => exact encLStep_frame s
  case h_7 => exact ⟨rfl, rfl⟩
  case h_8 => exact ⟨rfl, rfl⟩
  case h_9 => exact ⟨rfl, rfl⟩
  case h_10 hdone => exact absurd hdone hp

theorem execSetkey_deviceConfig (h : execSetkey s = .next t) : deviceConfig t.ctx = deviceConfig s.ctx := by
  by_cases hp : s.phase = .done
  · cases (exec_of_done hp .setkey).symm.trans h
    rfl
  · exact (execSetkey_frame hp h).config

/-- Settles O40: the frame of each step before DONE, and that of DONE. -/
theorem setkeyLeavesTheRestAlone : Obligations.SetkeyLeavesTheRestAlone := by
  unfold Obligations.SetkeyLeavesTheRestAlone
  intro s t h
  have hconfig := execSetkey_deviceConfig h
  simp only [deviceConfig, Prod.mk.injEq] at hconfig
  obtain ⟨hinstSet, hinst, hticksSet, hticks⟩ := hconfig
  refine ⟨(writesNoMemory_execSetkey h).byteAt_eq, hinstSet, hinst, hticksSet, hticks,
    fun hp => (execSetkey_frame hp h).rest, fun hp => ?_⟩
  cases (exec_of_done hp .setkey).symm.trans h
  exact complete_frame s

/-! ### The tag commands -/

/-- From `s` to `t` only what a tag command works on changes: phase, pending result, working registers, lock bits,
memory, device and requests. -/
def TagFrame (s t : State) : Prop :=
  t = { s with
    phase := t.phase, pres := t.pres, pcode := t.pcode, n := t.n, i := t.i, nb := t.nb, tb := t.tb, j := t.j,
    st := t.st, acc := t.acc, lockHeld := t.lockHeld, lockInst := t.lockInst, mem := t.mem, dev := t.dev,
    trace := t.trace }

theorem checkTag_frame (s : State) : TagFrame s (checkTag s) := by
  unfold checkTag
  split <;> rfl

theorem lockStep_tagFrame (g f : Phase) (s : State) : TagFrame s (lockStep g f s) := by
  simp only [lockStep]
  split <;> rfl

theorem execBlock_frame (h : execBlock s = .next t) : TagFrame s t := by
  unfold execBlock at h
  split at h
  case isTrue =>
    obtain ⟨-, rfl⟩ := reading_eq_next_iff.mp h
    simp only [blockStep]
    split <;> rfl
  case isFalse =>
    split at h
    case isTrue =>
      obtain ⟨-, rfl⟩ := reading_eq_next_iff.mp h
      simp only [lastBlockStep]
      split <;> rfl
    case isFalse => cases h

theorem releaseTag_frame (s : State) : TagFrame s (releaseTag s) := by
  unfold releaseTag
  split <;> rfl

theorem generateOut_frame (h : generateOut s = .next t) : TagFrame s t := by
  unfold generateOut at h
  split at h
  case isTrue => obtain ⟨-, rfl⟩ := writing_eq_next_iff.mp h; rfl
  case isFalse => cases h; rfl

theorem verifyOut_frame (h : verifyOut s = .next t) : TagFrame s t := by
  unfold verifyOut at h
  split at h
  case isTrue => obtain ⟨-, rfl⟩ := readingByte_eq_next_iff.mp h; rfl
  case isFalse => cases h; rfl

theorem execGenerateTag_frame (hp : s.phase ≠ .done) (h : execGenerateTag s = .next t) : TagFrame s t := by
  unfold execGenerateTag at h
  split at h
  case h_3 => exact execBlock_frame h
  case h_5 => exact generateOut_frame h
  all_goals cases h
  case h_1 => exact checkTag_frame s
  case h_2 => exact lockStep_tagFrame .block .done s
  case h_4 => exact releaseTag_frame s
  case h_6 hdone => exact absurd hdone hp

theorem execVerifyTag_frame (hp : s.phase ≠ .done) (h : execVerifyTag s = .next t) : TagFrame s t := by
  unfold execVerifyTag at h
  split at h
  case h_3 => exact execBlock_frame h
  case h_5 => exact verifyOut_frame h
  all_goals cases h
  case h_1 => exact checkTag_frame s
  case h_2 => exact lockStep_tagFrame .block .done s
  case h_4 => exact releaseTag_frame s
  case h_6 hdone => exact absurd hdone hp

/-! ### What requests are computed from -/

/-- Latch and memory map: no step of a command changes them. -/
def requestPart (s : State) := (s.lat, s.refuses)

theorem LifecycleFrame.requestPart_eq (h : LifecycleFrame s t) : requestPart t = requestPart s :=
  (congrArg requestPart h).trans rfl

theorem SetkeyFrame.requestPart_eq (h : SetkeyFrame s t) : requestPart t = requestPart s :=
  (congrArg requestPart h.rest).trans rfl

theorem TagFrame.requestPart_eq (h : TagFrame s t) : requestPart t = requestPart s :=
  (congrArg requestPart h).trans rfl

theorem TagFrame.ctx_eq (h : TagFrame s t) : t.ctx = s.ctx :=
  (congrArg State.ctx h).trans rfl

theorem requestPart_exec {i : Instr} (h : exec i s = .next t) : requestPart t = requestPart s := by
  by_cases hp : s.phase = .done
  · cases (exec_of_done hp i).symm.trans h
    rfl
  · have hlifecycle (hi : lifecycle i) : requestPart t = requestPart s := (exec_lifecycle_frame hi hp h).requestPart_eq
    cases i with
    | init => exact hlifecycle (by simp [lifecycle])
    | free => exact hlifecycle (by simp [lifecycle])
    | setDeviceInstance => exact hlifecycle (by simp [lifecycle])
    | setLockWaitTicks => exact hlifecycle (by simp [lifecycle])
    | setkey => exact (execSetkey_frame hp h).requestPart_eq
    | generateTag => exact (execGenerateTag_frame hp h).requestPart_eq
    | verifyTag => exact (execVerifyTag_frame hp h).requestPart_eq

theorem requestPart_reservedStep (h : reservedStep s = .next t) : requestPart t = requestPart s := by
  unfold reservedStep at h
  split at h <;> cases h <;> rfl

theorem requestPart_commandStep (h : commandStep s = .next t) : requestPart t = requestPart s := by
  unfold commandStep at h
  split at h
  · exact requestPart_exec h
  · exact requestPart_reservedStep h

/-- A tag command reads the context and leaves it alone (R211). -/
theorem ctx_exec_tag {i : Instr} (hi : i = .generateTag ∨ i = .verifyTag) (h : exec i s = .next t) :
    t.ctx = s.ctx := by
  by_cases hp : s.phase = .done
  · cases (exec_of_done hp i).symm.trans h
    rfl
  · rcases hi with rfl | rfl
    · exact (execGenerateTag_frame hp h).ctx_eq
    · exact (execVerifyTag_frame hp h).ctx_eq

theorem ctx_commandStep_of_tagCommand (hc : tagCommand s) (h : commandStep s = .next t) : t.ctx = s.ctx := by
  rcases hc with hd | hd
  · exact ctx_exec_tag (.inl rfl) (commandStep_of_decode hd ▸ h)
  · exact ctx_exec_tag (.inr rfl) (commandStep_of_decode hd ▸ h)

end Sys2Proof.Machine
end

section
/-! SUPPORT. Every command completes: which phase follows which (R125), how many engine turns are left at most, and that
an admitted step is taken (R122, R292, R330). -/

namespace Sys2Proof.Machine

variable {s t : State}

/-! ### Which phase follows which -/

/-- The phases a phase can lead to, in any command (R125). -/
def followers : Phase → List Phase
  | .idle => []
  | .check => [.discard, .lock, .setcfg, .clear, .done]
  | .discard => [.loadkey]
  | .loadkey => [.bind]
  | .bind => [.lock, .cleanup]
  | .lock => [.encL, .block, .cleanup, .done]
  | .encL => [.subkeys, .release]
  | .subkeys => [.release]
  | .block => [.release]
  | .release => [.out, .cleanup, .done]
  | .out => [.done]
  | .cleanup => [.done]
  | .setcfg => [.done]
  | .clear => [.done]
  | .done => [.idle]

/-- How a step gets on: it enters a further phase, or stays in BLOCK for the next block (R203), or in OUT for the next
tag byte (R207, R208). -/
inductive Progress (s t : State) : Prop
  | phase (h : t.phase ∈ followers s.phase)
  | block (hp : s.phase = .block) (hq : t.phase = .block) (hlt : s.i < s.n) (hi : t.i = s.i + 1)
  | byte (hp : s.phase = .out) (hq : t.phase = .out) (hlt : s.j < s.tb) (hj : t.j = s.j + 1)

variable {p : Phase}

theorem progress_to (q : Phase) (hp : s.phase = p) (hq : t.phase = q := by rfl) (h : q ∈ followers p := by decide) :
    Progress s t :=
  .phase (by rwa [hp, hq])

/-! ### Steps -/

theorem progress_complete (hp : s.phase = .done) : Progress s s.complete := progress_to .idle hp

theorem progress_badInput (hp : s.phase = .check) : Progress s (s.finish BAD_INPUT) := progress_to .done hp

theorem progress_lockStep {g f : Phase} (hp : s.phase = .lock) (hg : g ∈ followers .lock := by decide)
    (hf : f ∈ followers .lock := by decide) : Progress s (lockStep g f s) := by
  simp only [lockStep]
  split
  · exact progress_to g hp rfl hg
  · exact progress_to f hp rfl hf
  · exact progress_to f hp rfl hf

theorem progress_checkDeviceInstance (hp : s.phase = .check) : Progress s (checkDeviceInstance s) := by
  unfold checkDeviceInstance
  split
  · exact progress_to .setcfg hp
  · exact progress_badInput hp

theorem progress_checkLockWaitTicks (hp : s.phase = .check) : Progress s (checkLockWaitTicks s) := by
  unfold checkLockWaitTicks
  split
  · exact progress_to .setcfg hp
  · exact progress_badInput hp

theorem progress_checkSetkey (hp : s.phase = .check) : Progress s (checkSetkey s) := by
  unfold checkSetkey
  split
  · exact progress_to .discard hp
  · exact progress_badInput hp

theorem progress_bindStep (hp : s.phase = .bind) : Progress s (bindStep s) := by
  simp only [bindStep]
  split
  · exact progress_to .lock hp
  · exact progress_to .cleanup hp

theorem progress_encLStep (hp : s.phase = .encL) : Progress s (encLStep s) := by
  simp only [encLStep]
  split
  · exact progress_to .subkeys hp
  · exact progress_to .release hp

theorem progress_releaseSetkey (hp : s.phase = .release) : Progress s (releaseSetkey s) := by
  unfold releaseSetkey
  split
  · exact progress_to .done hp
  · exact progress_to .cleanup hp

theorem progress_checkTag (hp : s.phase = .check) : Progress s (checkTag s) := by
  unfold checkTag
  split
  · exact progress_to .lock hp
  · exact progress_badInput hp

theorem progress_blockStep (hp : s.phase = .block) (hlt : s.i < s.n) (b : List Byte) : Progress s (blockStep b s) := by
  simp only [blockStep]
  split
  · exact .block hp hp hlt rfl
  · exact progress_to .release hp

theorem progress_lastBlockStep (hp : s.phase = .block) (b : List Byte) : Progress s (lastBlockStep b s) := by
  simp only [lastBlockStep]
  split
  · exact progress_to .release hp
  · exact progress_to .release hp

/-- What a step gets on to does not depend on the requests issued before. -/
theorem Progress.of_emit {rs : List Request} (h : Progress (s.emit rs) t) : Progress s t := by
  cases h with
  | phase hq => exact .phase hq
  | block hp hq hlt hi => exact .block hp hq hlt hi
  | byte hp hq hlt hj => exact .byte hp hq hlt hj

theorem progress_execBlock (hp : s.phase = .block) (h : execBlock s = .next t) : Progress s t := by
  unfold execBlock at h
  split at h
  case isTrue hlt =>
    obtain ⟨-, rfl⟩ := reading_eq_next_iff.mp h
    exact (progress_blockStep (s := s.emit _) hp hlt _).of_emit
  case isFalse =>
    split at h
    case isTrue =>
      obtain ⟨-, rfl⟩ := reading_eq_next_iff.mp h
      exact (progress_lastBlockStep (s := s.emit _) hp _).of_emit
    case isFalse => cases h

theorem progress_releaseTag (hp : s.phase = .release) : Progress s (releaseTag s) := by
  unfold releaseTag
  split
  · exact progress_to .out hp
  · exact progress_to .done hp

theorem progress_generateOut (hp : s.phase = .out) (h : generateOut s = .next t) : Progress s t := by
  unfold generateOut at h
  split at h
  case isTrue hlt =>
    obtain ⟨-, rfl⟩ := writing_eq_next_iff.mp h
    exact .byte hp hp hlt rfl
  case isFalse => cases h; exact progress_to .done hp

theorem progress_verifyOut (hp : s.phase = .out) (h : verifyOut s = .next t) : Progress s t := by
  unfold verifyOut at h
  split at h
  case isTrue hlt =>
    obtain ⟨-, rfl⟩ := readingByte_eq_next_iff.mp h
    exact .byte hp hp hlt rfl
  case isFalse => cases h; exact progress_to .done hp

/-! ### Commands -/

theorem progress_execInit (h : execInit s = .next t) : Progress s t := by
  unfold execInit at h
  split at h <;> cases h
  case h_1 hp => exact progress_to .clear hp
  case h_2 hp => exact progress_to .done hp
  case h_3 hp => exact progress_complete hp

theorem progress_execSetDeviceInstance (h : execSetDeviceInstance s = .next t) : Progress s t := by
  unfold execSetDeviceInstance at h
  split at h <;> cases h
  case h_1 hp => exact progress_checkDeviceInstance hp
  case h_2 hp => exact progress_to .done hp
  case h_3 hp => exact progress_complete hp

theorem progress_execSetLockWaitTicks (h : execSetLockWaitTicks s = .next t) : Progress s t := by
  unfold execSetLockWaitTicks at h
  split at h <;> cases h
  case h_1 hp => exact progress_checkLockWaitTicks hp
  case h_2 hp => exact progress_to .done hp
  case h_3 hp => exact progress_complete hp

theorem progress_reservedStep (h : reservedStep s = .next t) : Progress s t := by
  unfold reservedStep at h
  split at h <;> cases h
  case h_1 hp => exact progress_badInput hp
  case h_2 hp => exact progress_complete hp

theorem progress_execSetkey (h : execSetkey s = .next t) : Progress s t := by
  unfold execSetkey at h
  split at h
  case h_3 hp =>
    obtain ⟨-, rfl⟩ := reading_eq_next_iff.mp h
    exact progress_to .bind hp
  all_goals cases h
  case h_1 hp => exact progress_checkSetkey hp
  case h_2 hp => exact progress_to .loadkey hp
  case h_4 hp => exact progress_bindStep hp
  case h_5 hp => exact progress_lockStep hp
  case h_6 hp => exact progress_encLStep hp
  case h_7 hp => exact progress_to .release hp
  case h_8 hp => exact progress_releaseSetkey hp
  case h_9 hp => exact progress_to .done hp
  case h_10 hp => exact progress_complete hp

theorem progress_execGenerateTag (h : execGenerateTag s = .next t) : Progress s t := by
  unfold execGenerateTag at h
  split at h
  case h_3 hp => exact progress_execBlock hp h
  case h_5 hp => exact progress_generateOut hp h
  all_goals cases h
  case h_1 hp => exact progress_checkTag hp
  case h_2 hp => exact progress_lockStep hp
  case h_4 hp => exact progress_releaseTag hp
  case h_6 hp => exact progress_complete hp

theorem progress_execVerifyTag (h : execVerifyTag s = .next t) : Progress s t := by
  unfold execVerifyTag at h
  split at h
  case h_3 hp => exact progress_execBlock hp h
  case h_5 hp => exact progress_verifyOut hp h
  all_goals cases h
  case h_1 hp => exact progress_checkTag hp
  case h_2 hp => exact progress_lockStep hp
  case h_4 hp => exact progress_releaseTag hp
  case h_6 hp => exact progress_complete hp

theorem progress_exec {i : Instr} (h : exec i s = .next t) : Progress s t := by
  cases i with
  | init => exact progress_execInit h
  | setDeviceInstance => exact progress_execSetDeviceInstance h
  | setLockWaitTicks => exact progress_execSetLockWaitTicks h
  | setkey => exact progress_execSetkey h
  | generateTag => exact progress_execGenerateTag h
  | verifyTag => exact progress_execVerifyTag h
  | free => exact progress_execInit (execFree_eq_execInit ▸ h)

theorem progress_commandStep (h : commandStep s = .next t) : Progress s t := by
  unfold commandStep at h
  split at h
  · exact progress_exec h
  · exact progress_reservedStep h

/-! ### Engine turns left -/

/-- An upper bound on the engine turns to idle from a phase of a command on `blocks` blocks and `bytes` tag bytes, with
block `i` the next in BLOCK and byte `j` in OUT. -/
def turnsFrom (blocks bytes i j : Nat) : Phase → Nat
  | .idle => 0
  | .done => 1
  | .cleanup => 2
  | .setcfg => 2
  | .clear => 2
  | .out => bytes - j + 2
  | .release => bytes + 3
  | .block => blocks - i + bytes + 4
  | .subkeys => bytes + 4
  | .encL => bytes + 5
  | .lock => blocks + bytes + 5
  | .bind => blocks + bytes + 6
  | .loadkey => blocks + bytes + 7
  | .discard => blocks + bytes + 8
  | .check => blocks + bytes + 9

/-- An upper bound on the engine turns that the command in flight has left. -/
def turnsLeft (s : State) : Nat := turnsFrom (blockCount s) (tagLen s.lat) s.i.toNat s.j.toNat s.phase

theorem turnsFrom_lt_of_mem_followers {blocks bytes i j i' j' : Nat} (hb : 1 ≤ blocks) :
    ∀ q ∈ followers p, turnsFrom blocks bytes i' j' q < turnsFrom blocks bytes i j p := by
  cases p <;>
    simp only [followers, turnsFrom, List.forall_mem_cons, List.not_mem_nil, false_implies, implies_true, and_true] <;>
    omega

theorem turnsFrom_le (blocks bytes i j : Nat) (p : Phase) : turnsFrom blocks bytes i j p ≤ blocks + bytes + 9 := by
  cases p <;> simp only [turnsFrom] <;> omega

/-- Only a tag command has a phase OUT (R125). -/
theorem ControlInv.tagCommand_of_out (h : ControlInv s) (hp : s.phase = .out) : tagCommand s := by
  have hmem : Phase.out ∈ phasesOf (decode s.lat.cmd) := hp ▸ h.on_path (by simp [hp])
  unfold tagCommand
  revert hmem
  rcases decode s.lat.cmd with _ | i
  · decide
  · cases i <;> decide

theorem Inv.work_of_block (h : Inv s) (hp : s.phase = .block) : TagWork s :=
  h.tag.work (h.control.tagCommand_of_block hp) (by simp [hp])

theorem Inv.work_of_out (h : Inv s) (hp : s.phase = .out) : TagWork s :=
  h.tag.work (h.control.tagCommand_of_out hp) (by simp [hp])

theorem TagWork.i_lt (hw : TagWork s) (hlt : s.i < s.n) : s.i.toNat < nblocks (dataLen s.lat) := by
  rw [← hw.n]; exact hlt

theorem TagWork.j_lt (hw : TagWork s) (hlt : s.j < s.tb) : s.j.toNat < tagLen s.lat := by
  rw [← hw.tb]; exact hlt

/-- Every step of a legal state brings its command closer to idle. -/
theorem turnsLeft_lt_of_progress (h : Inv s) (hl : t.lat = s.lat) (hprogress : Progress s t) :
    turnsLeft t < turnsLeft s := by
  unfold turnsLeft blockCount
  rw [hl]
  cases hprogress with
  | phase hq => exact turnsFrom_lt_of_mem_followers (nblocks_pos _) _ hq
  | block hp hq hlt hi =>
    have hleft : s.i.toNat < nblocks (dataLen s.lat) := (h.work_of_block hp).i_lt hlt
    rw [hp, hq, hi, toNat_add_one_of_lt hlt]
    simp only [turnsFrom]
    omega
  | byte hp hq hlt hj =>
    have hleft : s.j.toNat < tagLen s.lat := (h.work_of_out hp).j_lt hlt
    rw [hp, hq, hj, toNat_add_one_of_lt hlt]
    simp only [turnsFrom]
    omega

/-! ### Admitted steps are taken -/

theorem RequestsAdmitted.key (h : RequestsAdmitted s) (hd : decode s.lat.cmd = some .setkey)
    (hcheck : setkeyCheck s.lat = true) : AdmitsReads s s.lat.keyAddr (keyLen s.lat) := by
  simp only [RequestsAdmitted, hd] at h
  exact h hcheck

theorem RequestsAdmitted.message (h : RequestsAdmitted s) (hc : tagCommand s) (hcheck : tagCheck s = true) :
    AdmitsReads s s.lat.dataAddr (dataLen s.lat) := by
  rcases hc with hd | hd <;> simp only [RequestsAdmitted, hd] at h <;> exact (h hcheck).1

theorem RequestsAdmitted.tagWrites (h : RequestsAdmitted s) (hd : decode s.lat.cmd = some .generateTag)
    (hcheck : tagCheck s = true) : AdmitsWrites s s.lat.tagAddr (tagLen s.lat) := by
  simp only [RequestsAdmitted, hd] at h
  exact (h hcheck).2

theorem RequestsAdmitted.tagReads (h : RequestsAdmitted s) (hd : decode s.lat.cmd = some .verifyTag)
    (hcheck : tagCheck s = true) : AdmitsReads s s.lat.tagAddr (tagLen s.lat) := by
  simp only [RequestsAdmitted, hd] at h
  exact (h hcheck).2

/-- What a command's requests are computed from keeps them admitted. -/
theorem RequestsAdmitted.congr (h : RequestsAdmitted s) (hpart : requestPart t = requestPart s)
    (hctx : tagCommand s → t.ctx = s.ctx) : RequestsAdmitted t := by
  simp only [requestPart, Prod.mk.injEq] at hpart
  obtain ⟨hl, hr⟩ := hpart
  have hreads : AdmitsReads t = AdmitsReads s := by unfold AdmitsReads admitsRead; rw [hr]
  have hwrites : AdmitsWrites t = AdmitsWrites s := by unfold AdmitsWrites admitsWrite; rw [hr]
  have hcheck (hc : tagCommand s) : tagCheck t = tagCheck s := tagCheck_congr (by rw [hctx hc]) hl
  unfold RequestsAdmitted at *
  rw [hl, hreads, hwrites]
  split at h
  case h_1 hd => simpa only [hd] using h
  case h_2 hd => simpa only [hd, hcheck (.inl hd)] using h
  case h_3 hd => simpa only [hd, hcheck (.inr hd)] using h
  all_goals simp only [*]

/-- BLOCK reads inside the message (R203, R204). -/
theorem exists_execBlock_next (hw : TagWork s) (hr : AdmitsReads s s.lat.dataAddr (dataLen s.lat)) :
    ∃ t, execBlock s = .next t := by
  have hpos : 1 ≤ s.i.toNat := hw.i_pos
  unfold execBlock
  split
  case isTrue hlt =>
    have hleft : s.i.toNat < nblocks (dataLen s.lat) := hw.i_lt hlt
    have hwhole : 16 * (s.i.toNat - 1) + 16 ≤ dataLen s.lat := whole_block (by omega)
    exact ⟨_, reading_of_admits _ (hr.part hwhole)⟩
  case isFalse hlt =>
    have hle : s.i ≤ s.n := by rw [BitVec.le_def, hw.n]; exact hw.i_le
    have he : s.i = s.n := BitVec.le_antisymm hle (BitVec.not_lt.mp hlt)
    have hin : 16 * (s.i.toNat - 1) + lastLen s ≤ dataLen s.lat := by
      have hlast := last_block (dataLen s.lat)
      rw [lastLen, he, hw.n, hw.nb]
      omega
    rw [if_pos he]
    exact ⟨_, reading_of_admits _ (hr.part hin)⟩

theorem exists_generateOut_next (hw : TagWork s) (hr : AdmitsWrites s s.lat.tagAddr (tagLen s.lat)) :
    ∃ t, generateOut s = .next t := by
  unfold generateOut
  split
  case isTrue hlt => exact ⟨_, writing_of_admits _ (hr _ (hw.j_lt hlt))⟩
  case isFalse => exact ⟨_, rfl⟩

theorem exists_verifyOut_next (hw : TagWork s) (hr : AdmitsReads s s.lat.tagAddr (tagLen s.lat)) :
    ∃ t, verifyOut s = .next t := by
  unfold verifyOut
  split
  case isTrue hlt => exact ⟨_, readingByte_of_admits _ (hr _ (hw.j_lt hlt))⟩
  case isFalse => exact ⟨_, rfl⟩

theorem exists_execSetkey_next (h : Inv s) (hr : RequestsAdmitted s) (hd : decode s.lat.cmd = some .setkey)
    (hp : s.phase ∈ phasesOf (some .setkey)) : ∃ t, execSetkey s = .next t := by
  unfold execSetkey
  split
  case h_3 hload =>
    have hcheck : setkeyCheck s.lat = true := h.context.checked hd (by simp [hload])
    exact ⟨_, reading_of_admits _ (hr.key hd hcheck)⟩
  case h_11 => simp_all [phasesOf]
  all_goals exact ⟨_, rfl⟩

theorem exists_execGenerateTag_next (h : Inv s) (hr : RequestsAdmitted s) (hd : decode s.lat.cmd = some .generateTag)
    (hp : s.phase ∈ phasesOf (some .generateTag)) : ∃ t, execGenerateTag s = .next t := by
  unfold execGenerateTag
  split
  case h_3 hblock =>
    have hw : TagWork s := h.work_of_block hblock
    exact exists_execBlock_next hw (hr.message (.inl hd) hw.passed)
  case h_5 hout =>
    have hw : TagWork s := h.work_of_out hout
    exact exists_generateOut_next hw (hr.tagWrites hd hw.passed)
  case h_7 => simp_all [phasesOf]
  all_goals exact ⟨_, rfl⟩

theorem exists_execVerifyTag_next (h : Inv s) (hr : RequestsAdmitted s) (hd : decode s.lat.cmd = some .verifyTag)
    (hp : s.phase ∈ phasesOf (some .verifyTag)) : ∃ t, execVerifyTag s = .next t := by
  unfold execVerifyTag
  split
  case h_3 hblock =>
    have hw : TagWork s := h.work_of_block hblock
    exact exists_execBlock_next hw (hr.message (.inr hd) hw.passed)
  case h_5 hout =>
    have hw : TagWork s := h.work_of_out hout
    exact exists_verifyOut_next hw (hr.tagReads hd hw.passed)
  case h_7 => simp_all [phasesOf]
  all_goals exact ⟨_, rfl⟩

theorem exists_reservedStep_next (hp : s.phase ∈ phasesOf none) : ∃ t, reservedStep s = .next t := by
  unfold reservedStep
  split
  case h_3 => simp_all [phasesOf]
  all_goals exact ⟨_, rfl⟩

theorem Inv.exists_commandStep_next (h : Inv s) (hr : RequestsAdmitted s) (hp : s.phase ≠ .idle) :
    ∃ t, commandStep s = .next t := by
  have hpath := h.control.on_path hp
  unfold commandStep
  split
  case h_2 hd => exact exists_reservedStep_next (hd ▸ hpath)
  case h_1 i hd =>
    have hplain (hi : i ∈ [Instr.init, .free, .setDeviceInstance, .setLockWaitTicks]) : ∃ t, exec i s = .next t :=
      exists_exec_next_of_plain hi (hd ▸ hpath)
    cases i with
    | init => exact hplain (by simp)
    | free => exact hplain (by simp)
    | setDeviceInstance => exact hplain (by simp)
    | setLockWaitTicks => exact hplain (by simp)
    | setkey => exact exists_execSetkey_next h hr hd (hd ▸ hpath)
    | generateTag => exact exists_execGenerateTag_next h hr hd (hd ▸ hpath)
    | verifyTag => exact exists_execVerifyTag_next h hr hd (hd ▸ hpath)

/-! ### Completion -/

/-- One engine turn of a command in flight with admitted requests: it leads to a state of the same kind, closer to
idle. -/
theorem Inv.exists_closer_turn (h : Inv s) (hr : RequestsAdmitted s) (hp : s.phase ≠ .idle) :
    ∃ t, engineTurn s = .next t ∧ Inv t ∧ RequestsAdmitted t ∧ turnsLeft t < turnsLeft s := by
  obtain ⟨t, hstep⟩ := h.exists_commandStep_next hr hp
  have hpart : requestPart t = requestPart s := requestPart_commandStep hstep
  exact ⟨t, engineTurn_of_commandStep hp hstep, commandStep_inv h hstep,
    hr.congr hpart fun hc => ctx_commandStep_of_tagCommand hc hstep,
    turnsLeft_lt_of_progress h (congrArg Prod.fst hpart) (progress_commandStep hstep)⟩

/-- Within any bound on the turns left the engine is idle. -/
theorem exists_engineTurns_idle {bound : Nat} (h : Inv s) (hr : RequestsAdmitted s) (hb : turnsLeft s ≤ bound) :
    ∃ k ≤ bound, ∃ t, engineTurns k s = .next t ∧ t.phase = .idle ∧ t.busy = false := by
  induction bound generalizing s with
  | zero =>
    have hp : s.phase = .idle := by
      by_contra hne
      obtain ⟨t, -, -, -, hlt⟩ := h.exists_closer_turn hr hne
      omega
    exact ⟨0, le_rfl, s, rfl, hp, h.control.not_busy_of_idle hp⟩
  | succ bound ih =>
    by_cases hp : s.phase = .idle
    · exact ⟨0, Nat.zero_le _, s, rfl, hp, h.control.not_busy_of_idle hp⟩
    · obtain ⟨u, hturn, hu, hru, hlt⟩ := h.exists_closer_turn hr hp
      obtain ⟨k, hk, t, hrun, ht⟩ := ih hu hru (by omega)
      exact ⟨k + 1, Nat.succ_le_succ hk, t, (engineTurns_succ hturn).trans hrun, ht⟩

/-- Settles O59: a measure that each engine turn lowers, and that is at most n + tb + 9 in every phase. -/
theorem everyCommandCompletes : Obligations.EveryCommandCompletes := by
  unfold Obligations.EveryCommandCompletes
  exact fun s h hr => exists_engineTurns_idle h hr (turnsFrom_le _ _ _ _ _)

end Sys2Proof.Machine
end

section
/-! SUPPORT. The doubler: its bits, its linearity and its kernel (R150 to R152). -/

namespace Sys2Proof.Machine

/-- Rb is x^7 + x^2 + x + 1. -/
theorem getLsbD_Rb (k : Nat) : Rb.getLsbD k = decide (k = 0 ∨ k = 1 ∨ k = 2 ∨ k = 7) := by
  by_cases hk : k < 8
  · have low : ∀ k < 8, Rb.getLsbD k = decide (k = 0 ∨ k = 1 ∨ k = 2 ∨ k = 7) := by decide
    exact low k hk
  · have hRb : Rb = (0x87 : Byte).setWidth 128 := rfl
    rw [hRb, BitVec.getLsbD_setWidth, BitVec.getLsbD_of_ge _ _ (by omega), Bool.and_false, eq_comm, decide_eq_false_iff_not]
    omega

/-- Bit `k` of the shift, XORed with bit 127 where Rb has a bit. -/
theorem getLsbD_dbl (x : Block) (k : Nat) :
    (dbl x).getLsbD k = ((x <<< 1).getLsbD k ^^ (x.getLsbD 127 && Rb.getLsbD k)) := by
  rw [dbl, BitVec.getLsbD_xor]
  split
  · next htop => rw [htop, Bool.true_and]
  · next htop => rw [Bool.eq_false_of_not_eq_true htop, Bool.false_and, BitVec.ofNat_eq_ofNat, BitVec.getLsbD_zero]

/-- The shift leaves bit 0 clear, so bit 127 comes back there. -/
theorem getLsbD_dbl_zero (x : Block) : (dbl x).getLsbD 0 = x.getLsbD 127 := by
  rw [getLsbD_dbl, getLsbD_Rb]
  simp

theorem getLsbD_dbl_succ (x : Block) {k : Nat} (hk : k < 127) :
    (dbl x).getLsbD (k + 1) = (x.getLsbD k ^^ (x.getLsbD 127 && Rb.getLsbD (k + 1))) := by
  rw [getLsbD_dbl, BitVec.getLsbD_shiftLeft]
  simp [show k + 1 < 128 by omega]

/-- Where Rb has a bit, bit 127 is XORed in. -/
theorem getLsbD_dbl_of_Rb (x : Block) {k : Nat} (hk : k < 127) (hRb : Rb.getLsbD (k + 1) = true) :
    (dbl x).getLsbD (k + 1) = (x.getLsbD k ^^ x.getLsbD 127) := by
  rw [getLsbD_dbl_succ x hk, hRb, Bool.and_true]

/-- Where Rb has no bit, doubling is a shift. -/
theorem getLsbD_dbl_of_not_Rb (x : Block) {k : Nat} (hpos : 0 < k) (hk : k ≤ 127) (hRb : Rb.getLsbD k = false) :
    (dbl x).getLsbD k = x.getLsbD (k - 1) := by
  obtain ⟨i, rfl⟩ : ∃ i, k = i + 1 := ⟨k - 1, by omega⟩
  rw [getLsbD_dbl_succ x (by omega), hRb, Bool.and_false, Bool.xor_false, Nat.add_sub_cancel]

@[simp] theorem dbl_zero : dbl 0 = 0 := by decide

/-- Both the shift and the choice of the XORed constant distribute over XOR. -/
theorem dbl_xor (a b : Block) : dbl (a ^^^ b) = dbl a ^^^ dbl b := by
  apply BitVec.eq_of_getLsbD_eq
  intro k _
  simp only [getLsbD_dbl, BitVec.shiftLeft_xor_distrib, BitVec.getLsbD_xor, Bool.and_xor_distrib_right, Bool.xor_assoc,
    Bool.xor_left_comm]

/-- Bit 0 of a zero double says that nothing was XORed in, and then the shift lost no bit. -/
theorem dbl_eq_zero_iff {x : Block} : dbl x = 0 ↔ x = 0 := by
  refine ⟨fun h => ?_, fun h => h ▸ dbl_zero⟩
  have htop : x.getLsbD 127 = false := by rw [← getLsbD_dbl_zero, h, BitVec.ofNat_eq_ofNat, BitVec.getLsbD_zero]
  apply BitVec.eq_of_getLsbD_eq
  intro k hk
  rw [BitVec.ofNat_eq_ofNat, BitVec.getLsbD_zero]
  obtain hlt | rfl : k < 127 ∨ k = 127 := by omega
  · have hbit := getLsbD_dbl_succ x hlt
    rw [h, BitVec.ofNat_eq_ofNat, BitVec.getLsbD_zero, htop, Bool.false_and, Bool.xor_false] at hbit
    exact hbit.symm
  · exact htop

/-- A linear map whose kernel is 0. -/
theorem dbl_injective : Function.Injective dbl := fun a b h =>
  BitVec.xor_eq_zero_iff.mp (dbl_eq_zero_iff.mp (by rw [dbl_xor, h, BitVec.xor_self]; rfl))

theorem dbl_bijective : Function.Bijective dbl :=
  Finite.injective_iff_bijective.mp dbl_injective

/-- Settles O22: the values are computed, and each bit is read off by the place of Rb's bits. -/
theorem doublerBitForm : Obligations.DoublerBitForm := by
  unfold Obligations.DoublerBitForm
  refine ⟨by decide, dbl_zero, by decide, by decide, fun x => ⟨rfl, getLsbD_dbl_zero x,
    getLsbD_dbl_of_Rb x (by decide) (by decide), getLsbD_dbl_of_Rb x (by decide) (by decide),
    getLsbD_dbl_of_Rb x (by decide) (by decide), ?_, ?_⟩⟩
  · intro k hlo hhi
    exact getLsbD_dbl_of_not_Rb x (by omega) (by omega) (by rw [getLsbD_Rb, decide_eq_false_iff_not]; omega)
  · intro k hlo hhi
    exact getLsbD_dbl_of_not_Rb x (by omega) hhi (by rw [getLsbD_Rb, decide_eq_false_iff_not]; omega)

/-- Settles O23: linearity and the kernel give the bijection, and the subkeys are the double and its double. -/
theorem doublerLaws : Obligations.DoublerLaws := by
  unfold Obligations.DoublerLaws
  exact ⟨dbl_xor, dbl_bijective, fun x => (getLsbD_dbl_zero x).symm, fun _ => dbl_eq_zero_iff,
    fun _ _ _ _ => ⟨dbl_eq_zero_iff, dbl_eq_zero_iff.trans dbl_eq_zero_iff⟩⟩

end Sys2Proof.Machine
end

section
/-! SUPPORT. Padding (R156): the number of a concatenation, and the number of 0x80 and zero bytes after it. -/

namespace Sys2Proof.Machine

/-- The number of a concatenation: the first part moves up by the bytes of the second. -/
theorem be128_append (b c : List Byte) : be128 (b ++ c) = (be128 b <<< (8 * c.length)) ||| be128 c := by
  induction c using List.reverseRecOn with
  | nil => simp
  | append_singleton c x ih =>
    rw [← List.append_assoc, be128_concat, ih, be128_concat, BitVec.shiftLeft_or_distrib, ← BitVec.shiftLeft_add,
      BitVec.or_assoc, List.length_append, List.length_singleton, Nat.mul_add]

@[simp] theorem length_pad {b : List Byte} (h : b.length ≤ 15) : (pad b).length = 16 := by
  simp only [pad, List.length_append, List.length_cons, List.length_replicate]
  omega

/-- The bytes that padding adds are one bit, bit 7 of 0x80, moved up by the zero bytes. -/
theorem be128_paddingBytes (n : Nat) : be128 (0x80 :: List.replicate n 0) = (1 : Block) <<< (7 + 8 * n) := by
  have hone : be128 [0x80] = (1 : Block) <<< 7 := by decide
  rw [← List.singleton_append, be128_append, be128_replicate_zero, List.length_replicate, hone, BitVec.shiftLeft_add]
  exact BitVec.or_zero

theorem be128_pad {b : List Byte} (h : b.length ≤ 15) :
    be128 (pad b) = (be128 b <<< (8 * (16 - b.length))) ||| ((1 : Block) <<< (127 - 8 * b.length)) := by
  have hbytes : 15 - b.length + 1 = 16 - b.length := by omega
  have hbit : 7 + 8 * (15 - b.length) = 127 - 8 * b.length := by omega
  rw [pad, be128_append, be128_paddingBytes, List.length_cons, List.length_replicate, hbytes, hbit]

/-- Settles O25: the number of the padded bytes is that of a concatenation. -/
theorem paddingAppendsOneBit : Obligations.PaddingAppendsOneBit := by
  unfold Obligations.PaddingAppendsOneBit
  exact fun _ h => ⟨rfl, length_pad h, be128_pad h⟩

end Sys2Proof.Machine
end

section
/-! SUPPORT. Tags: the mask by case and bit by bit, the tag byte, and the comparator over a list of bytes (R160 to R165). -/

namespace Sys2Proof.Machine

variable {mac : Block} {t t' j k : Nat}

theorem tagMask_of_lt (h : j < t / 8) : tagMask t j = 0xFF := if_pos h

theorem tagMask_of_partial (hj : j = t / 8) (ht : t % 8 ≠ 0) : tagMask t j = (0xFF : Byte) <<< (8 - t % 8) := by
  rw [tagMask, if_neg (by omega), if_pos ⟨hj, ht⟩]

theorem tagMask_of_past (h : t / 8 < j ∨ (j = t / 8 ∧ t % 8 = 0)) : tagMask t j = 0 := by
  rw [tagMask, if_neg (by omega), if_neg (by omega)]

theorem getLsbD_allOnesByte (k : Nat) : (0xFF : Byte).getLsbD k = decide (k < 8) :=
  BitVec.getLsbD_allOnes

/-- Tag bit `8 * j + k` is bit `7 - k` of tag byte `j`; the mask keeps it when it is below `t`. -/
theorem getLsbD_tagMask (t j : Nat) (hk : k < 8) : (tagMask t j).getLsbD (7 - k) = decide (8 * j + k < t) := by
  rw [Bool.eq_iff_iff, decide_eq_true_eq]
  obtain hlt | ⟨hj, ht⟩ | hpast : j < t / 8 ∨ (j = t / 8 ∧ t % 8 ≠ 0) ∨ (t / 8 < j ∨ (j = t / 8 ∧ t % 8 = 0)) := by
    omega
  · rw [tagMask_of_lt hlt, getLsbD_allOnesByte, decide_eq_true_eq]
    omega
  · rw [tagMask_of_partial hj ht, BitVec.getLsbD_shiftLeft, getLsbD_allOnesByte]
    simp only [Bool.and_eq_true, Bool.not_eq_true', decide_eq_true_eq, decide_eq_false_iff_not]
    omega
  · rw [tagMask_of_past hpast, BitVec.ofNat_eq_ofNat, BitVec.getLsbD_zero]
    simp only [Bool.false_eq_true, false_iff]
    omega

/-- A byte is given by its bits counted from the most significant. -/
theorem byte_eq_iff {a b : Byte} : a = b ↔ ∀ k < 8, a.getLsbD (7 - k) = b.getLsbD (7 - k) := by
  refine ⟨fun h _ _ => by rw [h], fun h => BitVec.eq_of_getLsbD_eq fun i hi => ?_⟩
  have hbit := h (7 - i) (by omega)
  rwa [show 7 - (7 - i) = i by omega] at hbit

/-- The mask of a longer tag keeps every bit that of a shorter one keeps. -/
theorem tagMask_and_tagMask (h : t ≤ t') (j : Nat) : tagMask t' j &&& tagMask t j = tagMask t j := by
  rw [byte_eq_iff]
  intro k hk
  simp only [BitVec.getLsbD_and, getLsbD_tagMask _ _ hk, Bool.and_eq_right_iff_imp, decide_eq_true_eq]
  omega

/-- The tag byte of the shorter tag, by masking that of the longer. -/
theorem tagByte_eq_and_tagMask (h : t ≤ t') (mac : Block) (j : Nat) :
    tagByte mac t j = tagByte mac t' j &&& tagMask t j := by
  rw [tagByte, tagByte, BitVec.and_assoc, tagMask_and_tagMask h]

/-- A masked byte is the tag byte exactly when it has the tag's bits below `t`. -/
theorem and_tagMask_eq_tagByte_iff (hj : j < 16) {s : Byte} :
    s &&& tagMask t j = tagByte mac t j ↔
      ∀ k < 8, 8 * j + k < t → mac.getLsbD (127 - (8 * j + k)) = s.getLsbD (7 - k) := by
  rw [byte_eq_iff]
  refine forall₂_congr fun k hk => ?_
  have hbit : 120 - 8 * j + (7 - k) = 127 - (8 * j + k) := by omega
  rw [tagByte, BitVec.getLsbD_and, BitVec.getLsbD_and, getLsbD_tagMask _ _ hk, getLsbD_byteOf _ _ (by omega), hbit]
  by_cases ht : 8 * j + k < t
  · simp [ht, eq_comm]
  · simp [ht]

theorem xor_and_distrib {w : Nat} (a b m : BitVec w) : (a ^^^ b) &&& m = (a &&& m) ^^^ (b &&& m) := by
  apply BitVec.eq_of_getLsbD_eq
  intro k _
  simp only [BitVec.getLsbD_and, BitVec.getLsbD_xor, Bool.and_xor_distrib_right]

/-- One comparator step keeps the accumulator at 0 exactly when the masked byte is the tag byte (R162). -/
theorem compareByte_eq_zero_iff {acc s : Byte} :
    compareByte acc mac t j s = 0 ↔ acc = 0 ∧ s &&& tagMask t j = tagByte mac t j := by
  rw [compareByte, xor_and_distrib, ← tagByte, eq_comm (a := s &&& tagMask t j)]
  exact BitVec.or_eq_zero_iff.trans (and_congr_right' BitVec.xor_eq_zero_iff)

/-- The comparator over a list of bytes, from byte `j` on, is the conjunction of its steps. -/
theorem compareFrom_eq_zero_iff {acc : Byte} {ss : List Byte} :
    compareFrom mac t j acc ss = 0 ↔
      acc = 0 ∧ ∀ i < ss.length, ss.getD i 0 &&& tagMask t (j + i) = tagByte mac t (j + i) := by
  induction ss generalizing j acc with
  | nil => simp [compareFrom]
  | cons s ss ih =>
    rw [compareFrom, ih, compareByte_eq_zero_iff, and_assoc, List.length_cons, Nat.forall_lt_succ_left]
    simp only [List.getD_cons_zero, List.getD_cons_succ, Nat.add_zero, Nat.add_assoc, Nat.add_comm 1]

/-- The bits of the tag bytes, byte by byte, are the tag bits below `t`. -/
theorem forall_tagByte_bits_iff {P : Nat → Prop} :
    (∀ j < tagBytes t, ∀ k < 8, 8 * j + k < t → P (8 * j + k)) ↔ ∀ k < t, P k := by
  refine ⟨fun h k hk => ?_, fun h _ _ _ _ ht => h _ ht⟩
  have hbit := h (k / 8) (by rw [tagBytes]; omega) (k % 8) (Nat.mod_lt _ (by decide)) (by omega)
  rwa [Nat.div_add_mod] at hbit

end Sys2Proof.Machine
end

section
/-! SUPPORT. The obligations on tags: the mask, shorter tags and the comparator (R160 to R165). -/

namespace Sys2Proof.Machine

/-- Settles O26: the three cases of the mask, and its bits. -/
theorem maskHasExactlyTheTagBits : Obligations.MaskHasExactlyTheTagBits := by
  unfold Obligations.MaskHasExactlyTheTagBits
  refine fun t _ j _ => ⟨tagMask_of_lt, fun hj ht => ?_, tagMask_of_past, fun k hk => getLsbD_tagMask t j hk⟩
  rw [tagMask_of_partial hj ht]
  exact BitVec.and_allOnes.symm

/-- Settles O28: the shorter mask lies in the longer one. -/
theorem shorterTagIsMaskedPrefix : Obligations.ShorterTagIsMaskedPrefix := by
  unfold Obligations.ShorterTagIsMaskedPrefix
  intro mac t t' j htt ht hj
  have hj16 : j < 16 := by rw [tagBytes] at hj; omega
  exact ⟨tagByte_eq_and_tagMask htt mac j, by rw [getD_bytes16 mac hj16, tagByte]⟩

/-- Settles O27: the comparator's steps give the masked bytes, and their bits those of the tag. -/
theorem comparatorMatchesExactlyEqualTagBits : Obligations.ComparatorMatchesExactlyEqualTagBits := by
  unfold Obligations.ComparatorMatchesExactlyEqualTagBits
  refine ⟨fun mac t supplied ht hlen => ?_, fun _ => rfl⟩
  have hbytes : compareFrom mac t 0 0 supplied = 0 ↔
      ∀ j < tagBytes t, supplied.getD j 0 &&& tagMask t j = tagByte mac t j := by
    simp only [compareFrom_eq_zero_iff, hlen, Nat.zero_add, true_and]
  refine ⟨hbytes.trans ?_, hbytes⟩
  rw [← forall_tagByte_bits_iff
    (P := fun k => mac.getLsbD (127 - k) = (supplied.getD (k / 8) 0).getLsbD (7 - k % 8))]
  refine forall₂_congr fun j hj => ?_
  have hj16 : j < 16 := by rw [tagBytes] at hj; omega
  rw [and_tagMask_eq_tagByte_iff hj16]
  refine forall₂_congr fun k hk => ?_
  rw [show (8 * j + k) / 8 = j by omega, show (8 * j + k) % 8 = k by omega]

end Sys2Proof.Machine
end

section
/-! SUPPORT. The steps of SETKEY, phase by phase (R181 to R189): the step each phase gives, CHECK's condition in the
words of R8, and what BIND, LOCK and ENC_L do on each answer of the device. -/

namespace Sys2Proof.Machine

variable {s : State}

/-! ### CHECK -/

/-- AES is the only family (R8), with keys of 128 or 256 bits, which are never empty. -/
theorem setkeyCheck_iff {lat : Latch} :
    setkeyCheck lat = true ↔
      lat.family = 1 ∧ (lat.keyBits = 128 ∨ lat.keyBits = 256) ∧ lat.keyAddr.toNat + keyLen lat ≤ 2 ^ 32 := by
  have hfits (hbits : lat.keyBits = 128 ∨ lat.keyBits = 256) : keyLen lat ≠ 0 := by
    rcases hbits with hbits | hbits <;> simp [keyLen, hbits]
  simp only [setkeyCheck, Config.families, List.mem_singleton, Bool.and_eq_true, decide_eq_true_eq, and_assoc]
  refine and_congr_right fun hfamily => ?_
  simp only [Config.keySizes, hfamily, if_true, List.mem_cons, List.not_mem_nil, or_false]
  refine and_congr_right fun hbits => ?_
  simp [fits, hfits hbits]

theorem exec_setkey_of_check (hp : s.phase = .check) : exec .setkey s = .next (checkSetkey s) := by
  simp only [exec, execSetkey, hp]

theorem checkSetkey_of_passed (h : setkeyCheck s.lat = true) : checkSetkey s = s.goto .discard := if_pos h

theorem checkSetkey_of_failed (h : setkeyCheck s.lat = false) : checkSetkey s = s.finish BAD_INPUT :=
  if_neg (by simp [h])

/-- Settles O31: the check of R181 over FAMILIES and KEY_SIZES is the one of R8's values. -/
theorem setkeyCheckAcceptsExactlyTheAesKeys : Obligations.SetkeyCheckAcceptsExactlyTheAesKeys := by
  unfold Obligations.SetkeyCheckAcceptsExactlyTheAesKeys
  intro s hp
  rw [exec_setkey_of_check hp]
  refine ⟨fun hok => ?_, fun hok => ?_⟩
  · rw [checkSetkey_of_passed (setkeyCheck_iff.mpr hok)]
    rfl
  · rw [checkSetkey_of_failed (Bool.eq_false_iff.mpr fun hpassed => hok (setkeyCheck_iff.mp hpassed))]
    rfl

/-! ### DISCARD and CLEANUP -/

theorem exec_setkey_of_discard (hp : s.phase = .discard) : exec .setkey s = .next (discardStep s) := by
  simp only [exec, execSetkey, hp]

theorem exec_setkey_of_cleanup (hp : s.phase = .cleanup) : exec .setkey s = .next (cleanupStep s) := by
  simp only [exec, execSetkey, hp]

/-- With nothing bound the device is asked nothing and keeps what it holds. -/
theorem cipherUnbind_dev_of_unbound (hb : s.ctx.bound = false) : (cipherUnbind s).dev = s.dev := by
  simp only [cipherUnbind, hb, if_neg Bool.false_ne_true]

theorem cipherUnbind_trace_of_bound (hb : s.ctx.bound = true) :
    (cipherUnbind s).trace = s.trace ++ [.cipherUnbind s.ctx.boundInst] := by
  simp only [cipherUnbind, hb, if_true]

theorem cipherUnbind_trace_of_unbound (hb : s.ctx.bound = false) : (cipherUnbind s).trace = s.trace := by
  simp only [cipherUnbind, hb, if_neg Bool.false_ne_true, List.append_nil]

/-- Settles O32: both steps are the unbinding of what is bound and the zeroing of the key material. -/
theorem setkeyDiscardsOldKeyAndCleansUp : Obligations.SetkeyDiscardsOldKeyAndCleansUp := by
  unfold Obligations.SetkeyDiscardsOldKeyAndCleansUp
  intro s
  exact ⟨(cipherUnbind s).dev, rfl, cipherUnbind_dev_of_unbound, exec_setkey_of_discard, exec_setkey_of_cleanup⟩

/-! ### LOADKEY and BIND -/

theorem exec_setkey_of_loadkey (hp : s.phase = .loadkey) (hr : AdmitsReads s s.lat.keyAddr (keyLen s.lat)) :
    exec .setkey s = .next (loadkeyStep (readBuffer s s.lat.keyAddr (keyLen s.lat))
      (s.emit ((bufferAddrs s.lat.keyAddr (keyLen s.lat)).map .memRead))) := by
  simp only [exec, execSetkey, hp, reading_of_admits loadkeyStep hr]

theorem exec_setkey_of_bind (hp : s.phase = .bind) : exec .setkey s = .next (bindStep s) := by
  simp only [exec, execSetkey, hp]

/-- BIND on OK (R184). -/
theorem bindStep_of_ok (ha : (drawBind s.dev).1 = .ok) :
    bindStep s =
      { s with
        dev := (drawBind s.dev).2.noteBind .ok (effInst s.ctx)
        trace := s.trace ++ [.cipherBind (effInst s.ctx) s.ctx.family s.ctx.keyBits (keyBytes s.ctx)]
        ctx := { s.ctx with bound := true, boundInst := effInst s.ctx }
        phase := .lock } := by
  simp only [bindStep, cipherBind, ha]

/-- BIND on an error (R184). -/
theorem bindStep_of_err {c : Word} (ha : (drawBind s.dev).1 = .err c) :
    bindStep s =
      { s with
        dev := (drawBind s.dev).2
        trace := s.trace ++ [.cipherBind (effInst s.ctx) s.ctx.family s.ctx.keyBits (keyBytes s.ctx)]
        pres := DEVICE_FAULT
        pcode := c
        phase := .cleanup } := by
  simp only [bindStep, cipherBind, ha]
  rfl

theorem noteBind_locks (d : Device) (a : Answer) (inst : Word) : (d.noteBind a inst).locks = d.locks := by
  cases a <;> rfl

/-- Settles O33: LOADKEY's step when the reads are admitted, and BIND's for each answer. -/
theorem setkeyLoadsAndBindsTheKey : Obligations.SetkeyLoadsAndBindsTheKey := by
  unfold Obligations.SetkeyLoadsAndBindsTheKey
  intro s
  refine ⟨fun hp hr => ?_, fun hp => ⟨(drawBind s.dev).1,
    (drawBind s.dev).2.noteBind (drawBind s.dev).1 (effInst s.ctx), fun x rest hlaid => ?_, ?_, ?_⟩⟩
  · rw [exec_setkey_of_loadkey hp hr, loadkeyStep, length_readBuffer]
    rfl
  · rw [drawBind_of_laid hlaid]
  · exact (noteBind_locks _ _ _).trans (drawBind_held s.dev).1
  · rw [exec_setkey_of_bind hp]
    cases ha : (drawBind s.dev).1 with
    | ok => rw [bindStep_of_ok ha]
    | err c => rw [bindStep_of_err ha]; rfl

/-! ### LOCK, by the device's answer -/

/-- LOCK on a grant (R131). -/
theorem lockStep_of_granted {g f : Phase} (ha : (answerAcquire s.dev (effInst s.ctx)).1 = .granted) :
    lockStep g f s =
      { s with
        dev := (answerAcquire s.dev (effInst s.ctx)).2.noteAcquire .granted (effInst s.ctx)
        trace := s.trace ++ [.cipherAcquire (effInst s.ctx) (effTicks s.ctx)]
        lockHeld := true
        lockInst := effInst s.ctx
        phase := g } := by
  simp only [lockStep, cipherAcquire, ha]

/-- LOCK on a timeout (R131). -/
theorem lockStep_of_timeout {g f : Phase} (ha : (answerAcquire s.dev (effInst s.ctx)).1 = .timeout) :
    lockStep g f s =
      { s with
        dev := (answerAcquire s.dev (effInst s.ctx)).2
        trace := s.trace ++ [.cipherAcquire (effInst s.ctx) (effTicks s.ctx)]
        pres := DEVICE_TIMEOUT
        pcode := 0
        phase := f } := by
  simp only [lockStep, cipherAcquire, ha]
  rfl

/-- LOCK on an error (R131). -/
theorem lockStep_of_err {g f : Phase} {c : Word} (ha : (answerAcquire s.dev (effInst s.ctx)).1 = .err c) :
    lockStep g f s =
      { s with
        dev := (answerAcquire s.dev (effInst s.ctx)).2
        trace := s.trace ++ [.cipherAcquire (effInst s.ctx) (effTicks s.ctx)]
        pres := DEVICE_FAULT
        pcode := c
        phase := f } := by
  simp only [lockStep, cipherAcquire, ha]
  rfl

/-! ### ENC_L and SUBKEYS -/

theorem exec_setkey_of_encL (hp : s.phase = .encL) : exec .setkey s = .next (encLStep s) := by
  simp only [exec, execSetkey, hp]

theorem exec_setkey_of_subkeys (hp : s.phase = .subkeys) : exec .setkey s = .next (subkeysStep s) := by
  simp only [exec, execSetkey, hp]

/-- ENC_L on OK (R186). -/
theorem encLStep_of_ok (ha : (drawEncrypt s.dev).1 = .ok) :
    encLStep s =
      { s with
        dev := (drawEncrypt s.dev).2
        trace := s.trace ++ [.cipherEncrypt (effInst s.ctx) s.ctx.family s.ctx.keyBits (keyBytes s.ctx) 0]
        L := encrypted s 0
        phase := .subkeys } := by
  simp only [encLStep, cipherEncrypt, ha]

/-- ENC_L on an error (R186). -/
theorem encLStep_of_err {c : Word} (ha : (drawEncrypt s.dev).1 = .err c) :
    encLStep s =
      { s with
        dev := (drawEncrypt s.dev).2
        trace := s.trace ++ [.cipherEncrypt (effInst s.ctx) s.ctx.family s.ctx.keyBits (keyBytes s.ctx) 0]
        pres := DEVICE_FAULT
        pcode := c
        phase := .release } := by
  simp only [encLStep, cipherEncrypt, ha]
  rfl

/-- Settles O34: ENC_L's step for each answer, and SUBKEYS'. -/
theorem setkeyDerivesTheSubkeys : Obligations.SetkeyDerivesTheSubkeys := by
  unfold Obligations.SetkeyDerivesTheSubkeys
  intro s
  refine ⟨fun hp => ⟨(drawEncrypt s.dev).1, (drawEncrypt s.dev).2, fun x rest hlaid => ?_, drawEncrypt_locks _,
    drawEncrypt_bindings _, ?_⟩, exec_setkey_of_subkeys⟩
  · rw [drawEncrypt_of_laid hlaid]
  · rw [exec_setkey_of_encL hp]
    cases ha : (drawEncrypt s.dev).1 with
    | ok => rw [encLStep_of_ok ha]; rfl
    | err c => rw [encLStep_of_err ha]

end Sys2Proof.Machine
end

section
/-! SUPPORT. What a run of SETKEY keeps (R183 to R192): from acceptance on, the operands and the device configuration
stay as they are, and a context that a SETKEY has keyed holds the key its latch names. -/

namespace Sys2Proof.Machine

variable {s t : State}

/-! ### Runs of engine turns -/

/-- What every engine turn keeps holds after any number of them. -/
theorem engineTurns_induct {P : State → Prop} (hstep : ∀ s t, P s → engineTurn s = .next t → P t) {k : Nat} (h : P s)
    (hrun : engineTurns k s = .next t) : P t := by
  induction k generalizing s with
  | zero => cases hrun; exact h
  | succ k ih =>
    rw [engineTurns] at hrun
    split at hrun
    case h_1 u hturn => exact ih (hstep s u h hturn) hrun
    case h_2 => cases hrun
    case h_3 => cases hrun

/-- What no step of SETKEY changes: operands, latch, memory and device configuration. -/
def setkeyKept (s : State) := (s.regs, s.lat, s.mem, deviceConfig s.ctx)

theorem setkeyKept_execSetkey (h : execSetkey s = .next t) : setkeyKept t = setkeyKept s := by
  have hmem := (writesNoMemory_execSetkey h).mem
  have hconfig := execSetkey_deviceConfig h
  by_cases hp : s.phase = .done
  · cases (exec_of_done hp .setkey).symm.trans h
    rfl
  · have hrest := (execSetkey_frame hp h).rest
    have hregs : t.regs = s.regs := (congrArg State.regs hrest).trans rfl
    have hlat : t.lat = s.lat := (congrArg State.lat hrest).trans rfl
    simp only [setkeyKept, hregs, hlat, hmem, hconfig]

/-! ### The key in the context -/

/-- The context's family, key length and key bytes are those that the latch names. -/
def HoldsLatchedKey (s : State) : Prop :=
  s.ctx.family = s.lat.family ∧ s.ctx.keyBits = s.lat.keyBits ∧
    keyBytes s.ctx = readBuffer s s.lat.keyAddr (keyLen s.lat)

/-- The phases of SETKEY in which the key is loaded and the context not yet ready. -/
def loadedPhases : List Phase := [.bind, .lock, .encL, .subkeys]

/-- The phases from which a SETKEY with SUCCESS pending, or shown, has made the context ready. -/
def keyedPhases : List Phase := [.release, .done, .idle]

/-- The key of a SETKEY in the context: loaded before SUBKEYS, ready after it unless something failed. -/
structure KeyedByLatch (s : State) : Prop where
  loaded : s.phase ∈ loadedPhases → HoldsLatchedKey s
  keyed : s.phase ∈ keyedPhases → s.pres = SUCCESS → s.ctx.ready = true ∧ HoldsLatchedKey s

theorem KeyedByLatch.of_loaded (p : Phase) (hk : HoldsLatchedKey s) (hp : s.phase = p := by rfl)
    (hq : p ∉ keyedPhases := by decide) : KeyedByLatch s :=
  ⟨fun _ => hk, fun h => absurd (hp ▸ h) hq⟩

theorem KeyedByLatch.of_keyed (p : Phase) (hk : s.pres = SUCCESS → s.ctx.ready = true ∧ HoldsLatchedKey s)
    (hp : s.phase = p := by rfl) (hq : p ∉ loadedPhases := by decide) : KeyedByLatch s :=
  ⟨fun h => absurd (hp ▸ h) hq, fun _ => hk⟩

/-- Before LOADKEY and in CLEANUP nothing is asked of the context. -/
theorem keyedByLatch_of_phase (p : Phase) (hp : s.phase = p := by rfl) (hl : p ∉ loadedPhases := by decide)
    (hk : p ∉ keyedPhases := by decide) : KeyedByLatch s :=
  ⟨fun h => absurd (hp ▸ h) hl, fun h => absurd (hp ▸ h) hk⟩

/-- With a failure pending nothing is asked of a context past SUBKEYS. -/
theorem keyedByLatch_of_failed (p : Phase) (hs : s.pres ≠ SUCCESS) (hp : s.phase = p := by rfl)
    (hq : p ∉ loadedPhases := by decide) : KeyedByLatch s :=
  .of_keyed p (fun h => absurd h hs) hp hq

theorem keyedByLatch_checkSetkey (s : State) : KeyedByLatch (checkSetkey s) := by
  unfold checkSetkey
  split
  · exact keyedByLatch_of_phase .discard
  · exact keyedByLatch_of_failed .done (show BAD_INPUT ≠ SUCCESS by decide)

theorem holdsLatchedKey_loadkeyStep {key : List Byte} (h : key = readBuffer s s.lat.keyAddr (keyLen s.lat)) :
    HoldsLatchedKey (loadkeyStep key s) := by
  have hlen : key.length = s.lat.keyBits.toNat / 8 := by rw [h, length_readBuffer, keyLen]
  refine ⟨rfl, rfl, ?_⟩
  rw [keyBytes, loadkeyStep, ← hlen, List.take_left]
  exact h

theorem keyedByLatch_bindStep (hk : HoldsLatchedKey s) : KeyedByLatch (bindStep s) := by
  cases ha : (drawBind s.dev).1 with
  | ok => rw [bindStep_of_ok ha]; exact .of_loaded .lock hk
  | err c => rw [bindStep_of_err ha]; exact keyedByLatch_of_phase .cleanup

theorem keyedByLatch_lockStep (hk : HoldsLatchedKey s) : KeyedByLatch (lockStep .encL .cleanup s) := by
  obtain ⟨d, -, -, -, hcases⟩ := lockStep_cases .encL .cleanup s
  rcases hcases with ⟨-, -, he⟩ | ⟨-, he⟩ | ⟨c, -, he⟩ <;> rw [he]
  · exact .of_loaded .encL hk
  · exact keyedByLatch_of_phase .cleanup
  · exact keyedByLatch_of_phase .cleanup

theorem keyedByLatch_encLStep (hk : HoldsLatchedKey s) : KeyedByLatch (encLStep s) := by
  cases ha : (drawEncrypt s.dev).1 with
  | ok => rw [encLStep_of_ok ha]; exact .of_loaded .subkeys hk
  | err c => rw [encLStep_of_err ha]; exact keyedByLatch_of_failed .release (show DEVICE_FAULT ≠ SUCCESS by decide)

theorem keyedByLatch_releaseSetkey (hk : s.pres = SUCCESS → s.ctx.ready = true ∧ HoldsLatchedKey s) :
    KeyedByLatch (releaseSetkey s) := by
  unfold releaseSetkey
  split
  · exact .of_keyed .done hk
  · exact keyedByLatch_of_phase .cleanup

/-- Each step of SETKEY keeps it; CLEANUP, which drops the key, is reached only after a failure. -/
theorem keyedByLatch_execSetkey (h : ControlInv s) (hk : KeyedByLatch s) (hx : execSetkey s = .next t) :
    KeyedByLatch t := by
  unfold execSetkey at hx
  split at hx
  case h_3 =>
    obtain ⟨-, rfl⟩ := reading_eq_next_iff.mp hx
    exact .of_loaded .bind (holdsLatchedKey_loadkeyStep rfl)
  all_goals cases hx
  case h_1 => exact keyedByLatch_checkSetkey s
  case h_2 => exact keyedByLatch_of_phase .loadkey
  case h_4 hp => exact keyedByLatch_bindStep (hk.loaded (hp ▸ by decide))
  case h_5 hp => exact keyedByLatch_lockStep (hk.loaded (hp ▸ by decide))
  case h_6 hp => exact keyedByLatch_encLStep (hk.loaded (hp ▸ by decide))
  case h_7 hp => exact .of_keyed .release fun _ => ⟨rfl, hk.loaded (hp ▸ by decide)⟩
  case h_8 hp => exact keyedByLatch_releaseSetkey (hk.keyed (hp ▸ by decide))
  case h_9 hp => exact keyedByLatch_of_failed .done (h.cleanup_failed hp)
  case h_10 hp => exact .of_keyed .idle (hk.keyed (hp ▸ by decide))

/-! ### A SETKEY from acceptance on -/

/-- `t` lies on a run of engine turns from the acceptance of SETKEY in `s`. -/
structure SetkeyRun (s t : State) : Prop where
  legal : Inv t
  kept : setkeyKept t = setkeyKept (accept s (encode .setkey))
  key : KeyedByLatch t

theorem SetkeyRun.operands_eq (h : SetkeyRun s t) :
    t.regs = s.regs ∧ t.lat = (accept s (encode .setkey)).lat ∧ t.mem = s.mem ∧
      deviceConfig t.ctx = deviceConfig s.ctx := by
  have hkept := h.kept
  simp only [setkeyKept, Prod.mk.injEq] at hkept
  exact hkept

theorem SetkeyRun.decode_lat (h : SetkeyRun s t) : decode t.lat.cmd = some .setkey := by
  obtain ⟨-, hlat, -, -⟩ := h.operands_eq
  rw [hlat]
  exact decode_encode .setkey

theorem setkeyRun_accept (h : Inv s) (hp : s.phase = .idle) : SetkeyRun s (accept s (encode .setkey)) where
  legal := inv_accept h (h.control.not_busy_of_idle hp) _
  kept := rfl
  key := keyedByLatch_of_phase .check

theorem SetkeyRun.engineTurn {u : State} (h : SetkeyRun s t) (hturn : engineTurn t = .next u) : SetkeyRun s u := by
  rcases eq_or_commandStep_of_engineTurn hturn with rfl | hstep
  · exact h
  · have hx : execSetkey t = .next u := (commandStep_of_decode h.decode_lat).symm.trans hstep
    exact ⟨engineTurn_inv h.legal hturn, (setkeyKept_execSetkey hx).trans h.kept,
      keyedByLatch_execSetkey h.legal.control h.key hx⟩

theorem setkeyRun_engineTurns {k : Nat} (h : Inv s) (hp : s.phase = .idle)
    (hrun : engineTurns k (accept s (encode .setkey)) = .next t) : SetkeyRun s t :=
  engineTurns_induct (fun _ _ => SetkeyRun.engineTurn) (setkeyRun_accept h hp) hrun

/-! ### Determinism -/

/-- The key bytes that the operand registers name. -/
def operandKey (s : State) : List Byte := readBuffer s s.regs.keyAddr (s.regs.keyBits.toNat / 8)

theorem readBuffer_of_mem_eq (h : t.mem = s.mem) (a : Word) (len : Nat) : readBuffer t a len = readBuffer s a len := by
  have hbyte : byteAt t = byteAt s := funext fun x => by rw [byteAt, byteAt, h]
  rw [readBuffer, readBuffer, hbyte]

/-- A SETKEY that ends with SUCCESS leaves the subkeys of the operands it was started with. -/
theorem SetkeyRun.subkeys_eq (h : SetkeyRun s t) (hp : t.phase = .idle) (hr : t.result = SUCCESS) :
    (t.ctx.k1, t.ctx.k2) =
      (deriveSubkeys Config.encrypt s.regs.cipherFamily s.regs.keyBits (operandKey s)).2 := by
  have hpres : t.pres = SUCCESS :=
    (h.legal.control.shown_when_idle (h.legal.control.not_busy_of_idle hp)).1.symm.trans hr
  obtain ⟨hready, hfamily, hbits, hkey⟩ := h.key.keyed (hp ▸ by decide) hpres
  obtain ⟨-, hlat, hmem, -⟩ := h.operands_eq
  have hbytes : keyBytes t.ctx = operandKey s := by
    rw [hkey, hlat, readBuffer_of_mem_eq hmem]
    rfl
  rw [h.legal.context.ready_derived hready, hfamily, hbits, hbytes, hlat]
  rfl

/-- Settles O53: the subkeys left are a function of family, key length and key bytes. -/
theorem setkeyIsDeterministic : Obligations.SetkeyIsDeterministic := by
  unfold Obligations.SetkeyIsDeterministic
  intro s1 s2 t1 t2 h1 h2 hp1 hp2 hfamily hbits hkey hrun1 hidle1 hok1 hrun2 hidle2 hok2
  have hk1 := (setkeyRun_engineTurns h1 hp1 hrun1).subkeys_eq hidle1 hok1
  have hk2 := (setkeyRun_engineTurns h2 hp2 hrun2).subkeys_eq hidle2 hok2
  have hkey : operandKey s1 = operandKey s2 := hkey
  rw [hfamily, hbits, hkey, ← hk2] at hk1
  exact Prod.mk.inj hk1

end Sys2Proof.Machine
end

section
/-! SUPPORT. SETKEY from acceptance to idle with the device's answers laid down (R180, R190, R331): the states at BIND,
LOCK and ENC_L, the run that succeeds, and those that end in CLEANUP. -/

namespace Sys2Proof.Machine

variable {s t u : State} {k : Nat} {c : Word} {bs es : List Answer} {as : List AcquireAnswer}

/-! ### The states on the way -/

/-- A turn of a SETKEY added at the end of a run. -/
theorem engineTurns_snoc_setkey (hrun : engineTurns k s = .next t) (hd : decode t.lat.cmd = some .setkey)
    (hx : exec .setkey t = .next u) (hp : t.phase ≠ .idle) : engineTurns (k + 1) s = .next u := by
  rw [engineTurns_add 1 hrun, engineTurns_succ (engineTurn_of_exec hp hd hx), engineTurns_zero]

/-- The context of a SETKEY at BIND: the key stored, nothing bound. -/
def loadedContext (s : State) : Context :=
  { s.ctx.zeroKeyMaterial with
    family := s.regs.cipherFamily
    keyBits := s.regs.keyBits
    key := operandKey s ++ List.replicate (32 - s.regs.keyBits.toNat / 8) 0 }

theorem keyBytes_loadedContext (s : State) : keyBytes (loadedContext s) = operandKey s :=
  List.take_left' (length_readBuffer _ _ _)

/-- The requests of a SETKEY up to the end of LOADKEY. -/
def loadRequests (s : State) : List Request :=
  (if s.ctx.bound then [.cipherUnbind s.ctx.boundInst] else []) ++
    (bufferAddrs s.regs.keyAddr (s.regs.keyBits.toNat / 8)).map .memRead

/-- A SETKEY accepted in `s`, at BIND. -/
def setkeyAtBind (s : State) : State :=
  { accept s (encode .setkey) with
    ctx := loadedContext s
    dev := (cipherUnbind s).dev
    trace := s.trace ++ loadRequests s
    phase := .bind }

/-- A SETKEY accepted in `s`, at LOCK: bound, with the answers `bs` left to further binds. -/
def setkeyAtLock (s : State) (bs : List Answer) : State :=
  { setkeyAtBind s with
    ctx := { loadedContext s with bound := true, boundInst := effInst s.ctx }
    dev := { (cipherUnbind s).dev with
      bindAnswers := bs, bindings := effInst s.ctx :: (cipherUnbind s).dev.bindings }
    trace := s.trace ++ loadRequests s ++
      [.cipherBind (effInst s.ctx) s.regs.cipherFamily s.regs.keyBits (operandKey s)]
    phase := .lock }

/-- A SETKEY accepted in `s`, at ENC_L: the lock held, with the answers `as` left to further acquisitions. -/
def setkeyAtEncL (s : State) (bs : List Answer) (as : List AcquireAnswer) : State :=
  { setkeyAtLock s bs with
    dev := { (setkeyAtLock s bs).dev with acquireAnswers := as, locks := effInst s.ctx :: s.dev.locks }
    trace := (setkeyAtLock s bs).trace ++ [.cipherAcquire (effInst s.ctx) (effTicks s.ctx)]
    lockHeld := true
    lockInst := effInst s.ctx
    phase := .encL }

theorem effInst_setkeyAtLock (s : State) (bs : List Answer) : effInst (setkeyAtLock s bs).ctx = effInst s.ctx := rfl

/-- Up to LOCK a SETKEY leaves the answers to CipherAcquire and the locks of others alone. -/
theorem answerAcquire_setkeyAtLock {a : AcquireAnswer} (ha : s.dev.acquireAnswers = a :: as)
    (hfree : a = .granted → effInst s.ctx ∉ s.dev.otherLocks) :
    answerAcquire (setkeyAtLock s bs).dev (effInst s.ctx) =
      (a, { (setkeyAtLock s bs).dev with acquireAnswers := as }) :=
  answerAcquire_of_laid ha hfree

/-! ### The steps that lead there -/

/-- CHECK, DISCARD and LOADKEY. -/
theorem engineTurns_setkeyAtBind (hcheck : setkeyCheck (accept s (encode .setkey)).lat = true)
    (hr : AdmitsReads s s.regs.keyAddr (s.regs.keyBits.toNat / 8)) :
    engineTurns 3 (accept s (encode .setkey)) = .next (setkeyAtBind s) := by
  have hd : decode (accept s (encode .setkey)).lat.cmd = some .setkey := decode_encode .setkey
  have hchecked : engineTurns 1 (accept s (encode .setkey)) = .next ((accept s (encode .setkey)).goto .discard) :=
    engineTurns_snoc_setkey (engineTurns_zero _) hd
      (by rw [exec_setkey_of_check rfl, checkSetkey_of_passed hcheck]) (by simp [accept])
  have hdiscarded := engineTurns_snoc_setkey hchecked hd (exec_setkey_of_discard rfl) (by simp)
  have hloaded := engineTurns_snoc_setkey hdiscarded hd (exec_setkey_of_loadkey rfl hr) (by simp [discardStep])
  have hkey : zeroKey.drop (s.regs.keyBits.toNat / 8) = List.replicate (32 - s.regs.keyBits.toNat / 8) 0 :=
    List.drop_replicate
  have hat : loadkeyStep (operandKey s) ((discardStep ((accept s (encode .setkey)).goto .discard)).emit
      ((bufferAddrs s.regs.keyAddr (s.regs.keyBits.toNat / 8)).map .memRead)) = setkeyAtBind s := by
    simp only [setkeyAtBind, loadedContext, ← hkey, loadRequests, ← List.append_assoc, loadkeyStep, operandKey,
      length_readBuffer]
    rfl
  exact hloaded.trans (congrArg _ hat)

/-- BIND, answered with OK. -/
theorem engineTurns_setkeyAtLock (hrun : engineTurns 3 (accept s (encode .setkey)) = .next (setkeyAtBind s))
    (hb : s.dev.bindAnswers = .ok :: bs) :
    engineTurns 4 (accept s (encode .setkey)) = .next (setkeyAtLock s bs) := by
  have ha : drawBind (setkeyAtBind s).dev = (.ok, { (setkeyAtBind s).dev with bindAnswers := bs }) :=
    drawBind_of_laid hb
  have hat : bindStep (setkeyAtBind s) = setkeyAtLock s bs := by
    rw [bindStep_of_ok (by rw [ha]), ha, setkeyAtLock, ← keyBytes_loadedContext]
    rfl
  exact engineTurns_snoc_setkey hrun (decode_encode .setkey) ((exec_setkey_of_bind rfl).trans (congrArg _ hat))
    (by simp [setkeyAtBind])

/-- LOCK, granted. -/
theorem engineTurns_setkeyAtEncL (hrun : engineTurns 4 (accept s (encode .setkey)) = .next (setkeyAtLock s bs))
    (ha : s.dev.acquireAnswers = .granted :: as) (hfree : effInst s.ctx ∉ s.dev.otherLocks) :
    engineTurns 5 (accept s (encode .setkey)) = .next (setkeyAtEncL s bs as) := by
  have hanswer := answerAcquire_setkeyAtLock (bs := bs) ha (fun _ => hfree)
  have hat : lockStep .encL .cleanup (setkeyAtLock s bs) = setkeyAtEncL s bs as := by
    rw [lockStep_of_granted (congrArg Prod.fst hanswer), effInst_setkeyAtLock, hanswer]
    rfl
  exact engineTurns_snoc_setkey hrun (decode_encode .setkey) ((exec_setkey_of_lock rfl).trans (congrArg _ hat))
    (by simp [setkeyAtLock])

/-! ### The runs that fail -/

/-- A SETKEY accepted in `s` is idle after `k` engine turns, with this result, code, context and these requests; memory
and operand registers are as they were and no lock is held. -/
def SetkeyEnds (s : State) (k : Nat) (r : BitVec 4) (c : Word) (ctx : Context) (trace : List Request) : Prop :=
  ∃ t, engineTurns k (accept s (encode .setkey)) = .next t ∧ t.phase = .idle ∧ t.result = r ∧ t.devError = c ∧
    t.ctx = ctx ∧ t.trace = trace ∧ t.mem = s.mem ∧ t.regs = s.regs ∧ t.lockHeld = false

/-- DONE ends the run. -/
theorem setkeyEnds_of_done (h : Inv s) (hp : s.phase = .idle)
    (hrun : engineTurns k (accept s (encode .setkey)) = .next u) (hq : u.phase = .done) :
    SetkeyEnds s (k + 1) u.pres (shownError u.pres u.pcode) u.ctx u.trace := by
  have hu : SetkeyRun s u := setkeyRun_engineTurns h hp hrun
  obtain ⟨hregs, -, hmem, -⟩ := hu.operands_eq
  have hdone := engineTurns_snoc_setkey hrun hu.decode_lat (exec_of_done hq .setkey) (by simp [hq])
  exact ⟨u.complete, hdone, rfl, rfl, rfl, rfl, rfl, hmem, hregs, hu.legal.control.not_held (hq ▸ by decide)⟩

/-- What zeroing the key material leaves is the device configuration (R189). -/
theorem zeroKeyMaterial_congr {c c' : Context} (h : deviceConfig c = deviceConfig c') :
    c.zeroKeyMaterial = c'.zeroKeyMaterial := by
  simp only [deviceConfig, Prod.mk.injEq] at h
  obtain ⟨hinstSet, hinst, hticksSet, hticks⟩ := h
  simp only [Context.zeroKeyMaterial, hinstSet, hinst, hticksSet, hticks]

/-- CLEANUP and DONE end a run that failed, with the context zeroed. -/
theorem setkeyEnds_of_cleanup (h : Inv s) (hp : s.phase = .idle)
    (hrun : engineTurns k (accept s (encode .setkey)) = .next u) (hq : u.phase = .cleanup) :
    SetkeyEnds s (k + 2) u.pres (shownError u.pres u.pcode) s.ctx.zeroKeyMaterial (cipherUnbind u).trace := by
  have hu : SetkeyRun s u := setkeyRun_engineTurns h hp hrun
  obtain ⟨-, -, -, hconfig⟩ := hu.operands_eq
  have hcleaned := engineTurns_snoc_setkey hrun hu.decode_lat (exec_setkey_of_cleanup hq) (by simp [hq])
  rw [← zeroKeyMaterial_congr hconfig]
  exact setkeyEnds_of_done h hp hcleaned rfl

/-- A failed CHECK (R181). -/
theorem setkeyEnds_of_badInput (h : Inv s) (hp : s.phase = .idle)
    (hcheck : setkeyCheck (accept s (encode .setkey)).lat = false) :
    SetkeyEnds s 2 BAD_INPUT 0 s.ctx s.trace := by
  have hrun : engineTurns 1 (accept s (encode .setkey)) = .next ((accept s (encode .setkey)).finish BAD_INPUT) :=
    engineTurns_snoc_setkey (engineTurns_zero _) (decode_encode .setkey)
      (by rw [exec_setkey_of_check rfl, checkSetkey_of_failed hcheck]) (by simp [accept])
  exact setkeyEnds_of_done h hp hrun rfl

/-- BIND, answered with an error. -/
theorem setkeyEnds_of_bind_err (h : Inv s) (hp : s.phase = .idle)
    (hrun : engineTurns 3 (accept s (encode .setkey)) = .next (setkeyAtBind s))
    (hb : s.dev.bindAnswers = .err c :: bs) :
    SetkeyEnds s 6 DEVICE_FAULT c s.ctx.zeroKeyMaterial
      (s.trace ++ loadRequests s ++
        [.cipherBind (effInst s.ctx) s.regs.cipherFamily s.regs.keyBits (operandKey s)]) := by
  have ha : drawBind (setkeyAtBind s).dev = (.err c, { (setkeyAtBind s).dev with bindAnswers := bs }) :=
    drawBind_of_laid hb
  have hat := bindStep_of_err (congrArg Prod.fst ha)
  have hend := setkeyEnds_of_cleanup h hp
    (engineTurns_snoc_setkey hrun (decode_encode .setkey) ((exec_setkey_of_bind rfl).trans (congrArg _ hat))
      (by simp [setkeyAtBind])) rfl
  rw [cipherUnbind_trace_of_unbound rfl] at hend
  rw [← keyBytes_loadedContext]
  exact hend

/-- LOCK, failing with result `r` and code `c`. -/
theorem setkeyEnds_of_lock_failed {r : BitVec 4} {d : Device} (h : Inv s) (hp : s.phase = .idle)
    (hrun : engineTurns 4 (accept s (encode .setkey)) = .next (setkeyAtLock s bs))
    (hat : lockStep .encL .cleanup (setkeyAtLock s bs) =
      { setkeyAtLock s bs with
        dev := d
        trace := (setkeyAtLock s bs).trace ++ [.cipherAcquire (effInst s.ctx) (effTicks s.ctx)]
        pres := r
        pcode := c
        phase := .cleanup }) :
    SetkeyEnds s 7 r (shownError r c) s.ctx.zeroKeyMaterial
      ((setkeyAtLock s bs).trace ++
        [.cipherAcquire (effInst s.ctx) (effTicks s.ctx), .cipherUnbind (effInst s.ctx)]) := by
  have hend := setkeyEnds_of_cleanup h hp
    (engineTurns_snoc_setkey hrun (decode_encode .setkey) ((exec_setkey_of_lock rfl).trans (congrArg _ hat))
      (by simp [setkeyAtLock])) rfl
  rw [cipherUnbind_trace_of_bound rfl, List.append_assoc] at hend
  exact hend

/-- ENC_L, answered with an error: the lock is given back before the context is cleaned up. -/
theorem setkeyEnds_of_encrypt_err (h : Inv s) (hp : s.phase = .idle)
    (hrun : engineTurns 5 (accept s (encode .setkey)) = .next (setkeyAtEncL s bs as))
    (he : s.dev.encryptAnswers = .err c :: es) :
    SetkeyEnds s 9 DEVICE_FAULT c s.ctx.zeroKeyMaterial
      ((setkeyAtLock s bs).trace ++
        [.cipherAcquire (effInst s.ctx) (effTicks s.ctx),
          .cipherEncrypt (effInst s.ctx) s.regs.cipherFamily s.regs.keyBits (operandKey s) 0,
          .cipherRelease (effInst s.ctx), .cipherUnbind (effInst s.ctx)]) := by
  have ha : drawEncrypt (setkeyAtEncL s bs as).dev =
      (.err c, { (setkeyAtEncL s bs as).dev with encryptAnswers := es }) :=
    drawEncrypt_of_laid he
  have hat := encLStep_of_err (congrArg Prod.fst ha)
  have hfailed := engineTurns_snoc_setkey hrun (decode_encode .setkey)
    ((exec_setkey_of_encL rfl).trans (congrArg _ hat)) (by simp [setkeyAtEncL])
  have hreleased := engineTurns_snoc_setkey hfailed (decode_encode .setkey) (exec_setkey_of_release rfl) (by simp)
  have hend := setkeyEnds_of_cleanup h hp hreleased rfl
  rw [cipherUnbind_trace_of_bound rfl] at hend
  rw [← keyBytes_loadedContext, List.append_cons, List.append_cons, List.append_cons]
  exact hend

/-- Settles O46: each failure is a run to its CLEANUP, or to DONE for a failed CHECK. -/
theorem setkeyEndsOnAFailureAsTheTableSays : Obligations.SetkeyEndsOnAFailureAsTheTableSays := by
  unfold Obligations.SetkeyEndsOnAFailureAsTheTableSays
  intro s h hp s0 len inst key old loaded ends
  have hloaded (bs : List Answer) : loaded = (setkeyAtLock s bs).trace := by
    simp only [loaded, setkeyAtLock, loadRequests, List.append_assoc]
    rfl
  refine ⟨setkeyEnds_of_badInput h hp, fun hcheck hr => ?_⟩
  have hbind := engineTurns_setkeyAtBind hcheck hr
  refine ⟨fun c bs hb => hloaded bs ▸ setkeyEnds_of_bind_err h hp hbind hb, fun bs hb => ?_⟩
  have hlock := engineTurns_setkeyAtLock hbind hb
  rw [hloaded bs]
  refine ⟨fun as ha => ?_, fun c as ha => ?_, fun c as es ha hfree he => ?_⟩
  · have hanswer := answerAcquire_setkeyAtLock (bs := bs) ha (fun hgrant => by cases hgrant)
    exact setkeyEnds_of_lock_failed h hp hlock (lockStep_of_timeout (congrArg Prod.fst hanswer))
  · have hanswer := answerAcquire_setkeyAtLock (bs := bs) ha (fun hgrant => by cases hgrant)
    exact setkeyEnds_of_lock_failed h hp hlock (lockStep_of_err (congrArg Prod.fst hanswer))
  · exact setkeyEnds_of_encrypt_err h hp (engineTurns_setkeyAtEncL hlock ha hfree) he

/-! ### The run that succeeds -/

/-- The context that a SETKEY which does not fail leaves (R183 to R187). -/
def setkeyContext (s : State) : Context :=
  { loadedContext s with
    ready := true
    bound := true
    boundInst := effInst s.ctx
    k1 := dbl (encryptZero Config.encrypt s.regs.cipherFamily s.regs.keyBits (operandKey s))
    k2 := dbl (dbl (encryptZero Config.encrypt s.regs.cipherFamily s.regs.keyBits (operandKey s))) }

/-- A SETKEY accepted in `s`, at DONE, with nothing failed and the answers `es` left to further encryptions. -/
def setkeyAtDone (s : State) (bs : List Answer) (as : List AcquireAnswer) (es : List Answer) : State :=
  { setkeyAtLock s bs with
    ctx := setkeyContext s
    L := 0
    dev := { (setkeyAtLock s bs).dev with
      acquireAnswers := as, encryptAnswers := es, locks := s.dev.locks.filter fun x => x != effInst s.ctx }
    trace := (setkeyAtLock s bs).trace ++
      [.cipherAcquire (effInst s.ctx) (effTicks s.ctx),
        .cipherEncrypt (effInst s.ctx) s.regs.cipherFamily s.regs.keyBits (operandKey s) 0,
        .cipherRelease (effInst s.ctx)]
    lockHeld := false
    lockInst := 0
    phase := .done }

/-- RELEASE with SUCCESS pending (R188). -/
theorem releaseSetkey_of_success (h : s.pres = SUCCESS) : releaseSetkey s = (unlockStep s).goto .done := by
  rw [releaseSetkey, if_pos h]

/-- ENC_L answered with OK, SUBKEYS and RELEASE. -/
theorem engineTurns_setkeyAtDone (hrun : engineTurns 5 (accept s (encode .setkey)) = .next (setkeyAtEncL s bs as))
    (he : s.dev.encryptAnswers = .ok :: es) :
    engineTurns 8 (accept s (encode .setkey)) = .next (setkeyAtDone s bs as es) := by
  have ha : drawEncrypt (setkeyAtEncL s bs as).dev =
      (.ok, { (setkeyAtEncL s bs as).dev with encryptAnswers := es }) :=
    drawEncrypt_of_laid he
  have hat := encLStep_of_ok (congrArg Prod.fst ha)
  rw [ha] at hat
  have hencrypted := engineTurns_snoc_setkey hrun (decode_encode .setkey)
    ((exec_setkey_of_encL rfl).trans (congrArg _ hat)) (by simp [setkeyAtEncL])
  have hsubkeys := engineTurns_snoc_setkey hencrypted (decode_encode .setkey) (exec_setkey_of_subkeys rfl) (by simp)
  have hreleased := engineTurns_snoc_setkey hsubkeys (decode_encode .setkey)
    ((exec_setkey_of_release rfl).trans (congrArg _ (releaseSetkey_of_success rfl))) (by simp [subkeysStep])
  have hlocks : (s.dev.locks.filter fun x => x != effInst s.ctx) =
      (effInst s.ctx :: s.dev.locks).filter fun x => x != effInst s.ctx := by simp
  rw [setkeyAtDone, setkeyContext, ← keyBytes_loadedContext, hlocks, List.append_cons, List.append_cons]
  exact hreleased

/-- Settles O45: the run through BIND, LOCK and ENC_L to DONE, whose working registers are still those of idle. -/
theorem setkeyRunDerivesSubkeys : Obligations.SetkeyRunDerivesSubkeys := by
  unfold Obligations.SetkeyRunDerivesSubkeys
  intro s bs es as h hp hcheck hr hb ha he hfree len key inst subkeys
  have hlock := engineTurns_setkeyAtLock (engineTurns_setkeyAtBind hcheck hr) hb
  have hdone := engineTurns_setkeyAtDone (engineTurns_setkeyAtEncL hlock ha hfree) he
  have hrun := engineTurns_snoc_setkey hdone (decode_encode .setkey) (exec_of_done rfl .setkey) (by simp [setkeyAtDone])
  have hz : ScratchZero s := h.tag.scratch (by simp [hp])
  have hcomplete := (hz.congr (t := setkeyAtDone s bs as es) rfl).complete_eq rfl
  have hheld : s.lockHeld = false := h.control.not_held (hp ▸ by decide)
  have htrace : (setkeyAtDone s bs as es).trace =
      s.trace ++ (if s.ctx.bound then [Request.cipherUnbind s.ctx.boundInst] else []) ++
        (bufferAddrs s.regs.keyAddr len).map .memRead ++
        [.cipherBind inst s.regs.cipherFamily s.regs.keyBits key, .cipherAcquire inst (effTicks s.ctx),
          .cipherEncrypt inst s.regs.cipherFamily s.regs.keyBits key 0, .cipherRelease inst] := by
    simp only [setkeyAtDone, setkeyAtLock, loadRequests, List.append_assoc]
    rfl
  rw [hrun, hcomplete, htrace, hheld, h.control.lock_inst hheld, h.L_eq_zero hp, hp]
  rfl

end Sys2Proof.Machine
end

section
/-! SUPPORT. The steps of GENERATE_TAG and VERIFY_TAG, phase by phase (R200 to R209): CHECK's condition in the words of
R200, BLOCK by the device's answer, OUT with a tag byte left and without, and what no step changes (R211). -/

namespace Sys2Proof.Machine

variable {s t : State} {i : Instr} {b : List Byte} {c : Word}

/-! ### CHECK -/

theorem fits_iff {a : Word} {len : Nat} : fits a len = true ↔ len = 0 ∨ a.toNat + len ≤ 2 ^ 32 := by
  simp only [fits, Bool.or_eq_true, beq_iff_eq, decide_eq_true_eq]

theorem tagCheck_iff :
    tagCheck s = true ↔
      s.ctx.ready = true ∧ s.lat.dataLenBits.toNat % 8 = 0 ∧ s.lat.tagLenBits.toNat < 128 ∧
        (dataLen s.lat = 0 ∨ s.lat.dataAddr.toNat + dataLen s.lat ≤ 2 ^ 32) ∧
        (tagLen s.lat = 0 ∨ s.lat.tagAddr.toNat + tagLen s.lat ≤ 2 ^ 32) := by
  simp only [tagCheck, Bool.and_eq_true, beq_iff_eq, decide_eq_true_eq, fits_iff, and_assoc]

/-- CHECK is one step for both tag commands. -/
theorem exec_tag_of_check (hi : i = .generateTag ∨ i = .verifyTag) (hp : s.phase = .check) :
    exec i s = .next (checkTag s) := by
  rcases hi with rfl | rfl <;> simp only [exec, execGenerateTag, execVerifyTag, hp]

theorem checkTag_of_passed (h : tagCheck s = true) : checkTag s = tagInit s := if_pos h

theorem checkTag_of_failed (h : tagCheck s = false) : checkTag s = s.finish BAD_INPUT :=
  if_neg (by simp [h])

/-- Settles O35: the check is R200's condition, and the counters it sets do not wrap. -/
theorem tagCheckAcceptsAndInitialises : Obligations.TagCheckAcceptsAndInitialises := by
  unfold Obligations.TagCheckAcceptsAndInitialises
  intro s i hp hi nb tb ok
  have hok : tagCheck s = true ↔ ok := tagCheck_iff
  rw [exec_tag_of_check hi hp]
  refine ⟨fun h => ?_, fun h => ?_⟩
  · have hcheck : tagCheck s = true := hok.mpr h
    have hw : TagWork (tagInit s) := tagWork_tagInit hcheck
    rw [checkTag_of_passed hcheck]
    exact ⟨tagInit s, rfl, hw.nb, hw.n, hw.n ▸ nblocks_lt, hw.tb, rfl⟩
  · rw [checkTag_of_failed (Bool.eq_false_iff.mpr fun hpassed => h (hok.mp hpassed))]
    rfl

/-! ### BLOCK -/

/-- BLOCK is one step for both tag commands. -/
theorem exec_tag_of_block (hi : i = .generateTag ∨ i = .verifyTag) (hp : s.phase = .block) :
    exec i s = execBlock s := by
  rcases hi with rfl | rfl <;> simp only [exec, execGenerateTag, execVerifyTag, hp]

theorem execBlock_of_lt (hlt : s.i < s.n) (hr : AdmitsReads s (blockAddr s) 16) :
    execBlock s = .next (blockStep (readBuffer s (blockAddr s) 16)
      (s.emit ((bufferAddrs (blockAddr s) 16).map .memRead))) := by
  rw [execBlock, if_pos hlt, reading_of_admits _ hr]

theorem execBlock_of_eq (he : s.i = s.n) (hr : AdmitsReads s (blockAddr s) (lastLen s)) :
    execBlock s = .next (lastBlockStep (readBuffer s (blockAddr s) (lastLen s))
      (s.emit ((bufferAddrs (blockAddr s) (lastLen s)).map .memRead))) := by
  rw [execBlock, if_neg (he ▸ BitVec.lt_irrefl _), if_pos he, reading_of_admits _ hr]

/-- The state with the encryption of `x` asked for, whatever the answer. -/
def encryptSent (s : State) (x : Block) : State :=
  { s with
    dev := (drawEncrypt s.dev).2
    trace := s.trace ++ [.cipherEncrypt (effInst s.ctx) s.ctx.family s.ctx.keyBits (keyBytes s.ctx) x] }

/-- A failed encryption in BLOCK (R203, R204). -/
def encryptFailed (s : State) (x : Block) (c : Word) : State :=
  { encryptSent s x with pres := DEVICE_FAULT, pcode := c, phase := .release }

/-- BLOCK before the last block, on OK (R203). -/
theorem blockStep_of_ok (ha : (drawEncrypt s.dev).1 = .ok) :
    blockStep b s =
      { encryptSent s (s.st ^^^ be128 b) with st := encrypted s (s.st ^^^ be128 b), i := s.i + 1 } := by
  simp only [blockStep, cipherEncrypt, ha]
  rfl

theorem blockStep_of_err (ha : (drawEncrypt s.dev).1 = .err c) :
    blockStep b s = encryptFailed s (s.st ^^^ be128 b) c := by
  simp only [blockStep, cipherEncrypt, ha]
  rfl

/-- BLOCK for the last block, on OK (R204). -/
theorem lastBlockStep_of_ok (ha : (drawEncrypt s.dev).1 = .ok) :
    lastBlockStep b s =
      { encryptSent s (s.st ^^^ lastBlock s.ctx.k1 s.ctx.k2 b s.nb.toNat) with
        st := encrypted s (s.st ^^^ lastBlock s.ctx.k1 s.ctx.k2 b s.nb.toNat), phase := .release } := by
  simp only [lastBlockStep, cipherEncrypt, ha]
  rfl

theorem lastBlockStep_of_err (ha : (drawEncrypt s.dev).1 = .err c) :
    lastBlockStep b s = encryptFailed s (s.st ^^^ lastBlock s.ctx.k1 s.ctx.k2 b s.nb.toNat) c := by
  simp only [lastBlockStep, cipherEncrypt, ha]
  rfl

/-- The two cases of the last block, K1 for a whole one and K2 for a padded one (R155 to R157). -/
theorem lastBlock_eq_ite (k1 k2 : Block) (b : List Byte) (nb : Nat) :
    lastBlock k1 k2 b nb =
      if 0 < nb ∧ nb % 16 = 0 then be128 b ^^^ k1 else be128 (pad b) ^^^ k2 := by
  simp only [lastBlock, complete, Bool.and_eq_true, decide_eq_true_eq, beq_iff_eq]

/-- Settles O36: the block is read, then the device's answer decides. -/
theorem blockStepChainsOneBlock : Obligations.BlockStepChainsOneBlock := by
  unfold Obligations.BlockStepChainsOneBlock
  intro s i hp hi
  have hlaid (y : Answer) (rest : List Answer) (hy : s.dev.encryptAnswers = y :: rest) :
      (drawEncrypt s.dev).1 = y := by rw [drawEncrypt_of_laid hy]
  rw [exec_tag_of_block hi hp]
  refine ⟨fun hlt hr => ⟨(drawEncrypt s.dev).1, (drawEncrypt s.dev).2, hlaid, ?_⟩,
    fun he hr => ⟨(drawEncrypt s.dev).1, (drawEncrypt s.dev).2, hlaid, ?_⟩⟩
  · rw [execBlock_of_lt hlt hr]
    cases ha : (drawEncrypt s.dev).1 with
    | ok => rw [blockStep_of_ok (s := s.emit _) ha]; rfl
    | err c => rw [blockStep_of_err (s := s.emit _) ha]; rfl
  · rw [execBlock_of_eq he hr]
    cases ha : (drawEncrypt s.dev).1 with
    | ok => rw [lastBlockStep_of_ok (s := s.emit _) ha, lastBlock_eq_ite]; rfl
    | err c => rw [lastBlockStep_of_err (s := s.emit _) ha, lastBlock_eq_ite]; rfl

/-! ### OUT -/

theorem exec_generateTag_of_out (hp : s.phase = .out) : exec .generateTag s = generateOut s := by
  simp only [exec, execGenerateTag, hp]

theorem exec_verifyTag_of_out (hp : s.phase = .out) : exec .verifyTag s = verifyOut s := by
  simp only [exec, execVerifyTag, hp]

/-- The state after an OUT step of GENERATE_TAG with a tag byte left (R207). -/
def tagByteWritten (s : State) : State :=
  { s.storeByte (tagByteAddr s) (tagByte s.st s.lat.tagLenBits.toNat s.j.toNat) with
    j := s.j + 1
    trace := s.trace ++ [.memWrite (tagByteAddr s) (tagByte s.st s.lat.tagLenBits.toNat s.j.toNat)] }

theorem generateOut_of_lt (hlt : s.j < s.tb) (hw : admitsWrite s (tagByteAddr s) = true) :
    generateOut s = .next (tagByteWritten s) := by
  rw [generateOut, if_pos hlt, writing_of_admits _ hw]
  rfl

theorem generateOut_of_not_lt (h : ¬ s.j < s.tb) : generateOut s = .next (s.goto .done) := if_neg h

theorem verifyOut_of_lt (hlt : s.j < s.tb) (hr : admitsRead s (tagByteAddr s) = true) :
    verifyOut s = .next (compareStep (byteAt s (tagByteAddr s)) (s.emit [.memRead (tagByteAddr s)])) := by
  rw [verifyOut, if_pos hlt, readingByte_of_admits _ hr]

theorem verifyOut_of_not_lt (h : ¬ s.j < s.tb) : verifyOut s = .next (s.finish (verdict s.acc)) := if_neg h

/-- Settles O37: a store into canonical memory reaches the tag byte alone. -/
theorem generateTagWritesOneByteAStep : Obligations.GenerateTagWritesOneByteAStep := by
  unfold Obligations.GenerateTagWritesOneByteAStep
  intro s hp hm
  rw [exec_generateTag_of_out hp]
  exact ⟨fun hlt hw => ⟨tagByteWritten s, generateOut_of_lt hlt hw, fun a => byteAt_storeByte hm _ a _, rfl⟩,
    generateOut_of_not_lt⟩

/-- Settles O38: the byte read is compared, and after the last the accumulator gives the verdict. -/
theorem verifyTagComparesOneByteAStep : Obligations.VerifyTagComparesOneByteAStep := by
  unfold Obligations.VerifyTagComparesOneByteAStep
  intro s hp
  rw [exec_verifyTag_of_out hp]
  exact ⟨verifyOut_of_lt, verifyOut_of_not_lt⟩

/-! ### Frames -/

theorem exec_tag_frame (hi : i = .generateTag ∨ i = .verifyTag) (hp : s.phase ≠ .done) (h : exec i s = .next t) :
    TagFrame s t := by
  rcases hi with rfl | rfl
  · exact execGenerateTag_frame hp h
  · exact execVerifyTag_frame hp h

/-- A step that writes a tag byte leaves every other byte as it was. -/
theorem WritesTagByte.byteAt_eq (hw : WritesTagByte s t) (hm : Memory.wf s.mem = true) {a : Word}
    (ha : a ≠ tagByteAddr s) : byteAt t a = byteAt s a := by
  rw [byteAt, hw.mem, Memory.load_store hm, if_neg (mt BitVec.eq_of_toNat_eq ha), byteAt]

/-- No step of a tag command reaches operand registers, latch or OVR. -/
theorem hostPart_exec_tag (hi : i = .generateTag ∨ i = .verifyTag) (h : exec i s = .next t) :
    t.regs = s.regs ∧ t.lat = s.lat ∧ t.ovr = s.ovr := by
  by_cases hp : s.phase = .done
  · cases (exec_of_done hp i).symm.trans h
    exact ⟨rfl, rfl, rfl⟩
  · have hframe : TagFrame s t := exec_tag_frame hi hp h
    exact ⟨(congrArg State.regs hframe).trans rfl, (congrArg State.lat hframe).trans rfl,
      (congrArg State.ovr hframe).trans rfl⟩

/-- Settles O41: the frame of each step before DONE, that of DONE, and what a step writes to memory. -/
theorem tagCommandsLeaveTheContextAlone : Obligations.TagCommandsLeaveTheContextAlone := by
  unfold Obligations.TagCommandsLeaveTheContextAlone
  intro s t i hi hm h
  obtain ⟨hregs, hlat, hovr⟩ := hostPart_exec_tag hi h
  refine ⟨ctx_exec_tag hi h, hregs, hlat, hovr, fun a ha => ?_, fun hv => ?_, fun hp => exec_tag_frame hi hp h,
    fun hp => ?_⟩
  · rcases exec_writes h with hw | ⟨hgen, hw⟩
    · exact hw.byteAt_eq a
    · exact hw.byteAt_eq hm fun he => ha ⟨hgen, hw.phase, hw.left, he⟩
  · subst hv
    exact (writesNoMemory_execVerifyTag h).mem
  · cases (exec_of_done hp i).symm.trans h
    exact ⟨rfl, rfl, rfl, rfl, rfl, rfl⟩

end Sys2Proof.Machine
end

section
/-! SUPPORT. A tag command from acceptance on (R206, R210, R211): what a run of it keeps, the state at LOCK and at
BLOCK, and how DONE ends it. -/

namespace Sys2Proof.Machine

variable {s t u : State} {i : Instr} {k m : Nat} {as : List AcquireAnswer}

/-! ### What a run keeps -/

/-- The fields that no step of a tag command before DONE changes. -/
def tagKept (s : State) :=
  (s.regs, s.busy, s.ovr, s.result, s.devError, s.ctx, s.lat, s.L, s.refuses, s.sched, s.readData)

theorem TagFrame.kept_eq (h : TagFrame s t) : tagKept t = tagKept s := (congrArg tagKept h).trans rfl

/-- From the acceptance of tag command `i` in `s`, `k` engine turns lead to `t`, and DONE is not yet taken. -/
structure TagRun (s : State) (i : Instr) (k : Nat) (t : State) : Prop where
  command : i = .generateTag ∨ i = .verifyTag
  run : engineTurns k (accept s (encode i)) = .next t
  legal : Inv t
  kept : tagKept t = tagKept (accept s (encode i))

theorem tagRun_accept (h : Inv s) (hp : s.phase = .idle) (hi : i = .generateTag ∨ i = .verifyTag) :
    TagRun s i 0 (accept s (encode i)) where
  command := hi
  run := rfl
  legal := inv_accept h (h.control.not_busy_of_idle hp) _
  kept := rfl

theorem TagRun.lat_eq (h : TagRun s i k t) : t.lat = (accept s (encode i)).lat := by
  have hkept := h.kept
  simp only [tagKept, Prod.mk.injEq] at hkept
  obtain ⟨-, -, -, -, -, -, hlat, -⟩ := hkept
  exact hlat

theorem TagRun.decode_lat (h : TagRun s i k t) : decode t.lat.cmd = some i := by
  rw [h.lat_eq]
  exact decode_encode i

theorem TagRun.inFlight (h : TagRun s i k t) : tagCommand t := by
  rcases h.command with rfl | rfl
  · exact .inl h.decode_lat
  · exact .inr h.decode_lat

/-- A run goes on with turns that keep what a run keeps. -/
theorem TagRun.turns (h : TagRun s i k t) (hrun : engineTurns m t = .next u) (hkept : tagKept u = tagKept t) :
    TagRun s i (k + m) u where
  command := h.command
  run := (engineTurns_add m h.run).trans hrun
  legal := engineTurns_induct (fun _ _ => engineTurn_inv) h.legal hrun
  kept := hkept.trans h.kept

/-- A run goes on with a step of the command that is not DONE. -/
theorem TagRun.step (h : TagRun s i k t) (hidle : t.phase ≠ .idle) (hdone : t.phase ≠ .done) (hx : exec i t = .next u) :
    TagRun s i (k + 1) u :=
  h.turns ((engineTurns_succ (engineTurn_of_exec hidle h.decode_lat hx)).trans (engineTurns_zero u))
    (exec_tag_frame h.command hdone hx).kept_eq

/-! ### DONE -/

/-- The engine idle again after a tag command accepted in `s`: beside latch, OVR and results, what the run left in
memory, in the device and among the requests. -/
def tagAtIdle (s : State) (i : Instr) (r : BitVec 4) (c : Word) (mem : List Host.Cell) (dev : Device)
    (trace : List Request) : State :=
  { s with
    lat := (accept s (encode i)).lat, busy := false, ovr := false, result := r, devError := c, pres := r, pcode := c,
    mem := mem, dev := dev, trace := trace }

/-- In a legal state DONE shows the device's code, which is 0 but for a device failure (R127). -/
theorem ControlInv.shownError_eq (h : ControlInv t) : shownError t.pres t.pcode = t.pcode := by
  unfold shownError
  split
  case isTrue => rfl
  case isFalse hne => exact (h.pcode_fault hne).symm

/-- DONE zeroes the working registers, as the idle state had them, and the lock is given back by then. -/
theorem TagRun.complete_eq (h : TagRun s i k t) (hs : Inv s) (hp : s.phase = .idle) (hq : t.phase = .done) :
    t.complete = tagAtIdle s i t.pres t.pcode t.mem t.dev t.trace := by
  have hkept := h.kept
  simp only [tagKept, accept, Prod.mk.injEq] at hkept
  obtain ⟨hregs, -, hovr, -, -, hctx, -, -, hrefuses, hsched, hread⟩ := hkept
  have hz : ScratchZero s := hs.tag.scratch (by simp [hp])
  have hheld : s.lockHeld = false := hs.control.not_held (hp ▸ by decide)
  have hheld' : t.lockHeld = false := h.legal.control.not_held (hq ▸ by decide)
  simp only [State.complete, tagAtIdle, h.legal.control.shownError_eq, hheld', h.legal.control.lock_inst hheld', hheld,
    hs.control.lock_inst hheld, h.lat_eq, hregs, hovr, hctx, hrefuses, hsched, hread, hz.n, hz.i, hz.nb, hz.tb, hz.j,
    hz.st, hz.acc, hs.L_eq_zero hp, hp]

/-- DONE ends the run. -/
theorem TagRun.ends (h : TagRun s i k t) (hs : Inv s) (hp : s.phase = .idle) (hq : t.phase = .done) :
    engineTurns (k + 1) (accept s (encode i)) = .next (tagAtIdle s i t.pres t.pcode t.mem t.dev t.trace) := by
  have hdone : engineTurn t = .next t.complete :=
    engineTurn_of_exec (by simp [hq]) h.decode_lat (exec_of_done hq i)
  rw [engineTurns_add 1 h.run, engineTurns_succ hdone, engineTurns_zero, h.complete_eq hs hp hq]

/-! ### CHECK and LOCK -/

/-- CHECK, passed (R201). -/
theorem tagRun_atLock (h : Inv s) (hp : s.phase = .idle) (hi : i = .generateTag ∨ i = .verifyTag)
    (hcheck : tagCheck (accept s (encode i)) = true) : TagRun s i 1 (tagInit (accept s (encode i))) :=
  (tagRun_accept h hp hi).step (by simp [accept]) (by simp [accept])
    (by rw [exec_tag_of_check hi rfl, checkTag_of_passed hcheck])

/-- A tag command accepted in `s`, at BLOCK: the lock held, with the answers `as` left to further acquisitions. -/
def tagAtBlock (s : State) (i : Instr) (as : List AcquireAnswer) : State :=
  { tagInit (accept s (encode i)) with
    dev := { s.dev with acquireAnswers := as, locks := effInst s.ctx :: s.dev.locks }
    trace := s.trace ++ [.cipherAcquire (effInst s.ctx) (effTicks s.ctx)]
    lockHeld := true
    lockInst := effInst s.ctx
    phase := .block }

/-- Up to LOCK a tag command leaves the answers to CipherAcquire and the locks of others alone. -/
theorem answerAcquire_tagAtLock {a : AcquireAnswer} (ha : s.dev.acquireAnswers = a :: as)
    (hfree : a = .granted → effInst s.ctx ∉ s.dev.otherLocks) :
    answerAcquire (tagInit (accept s (encode i))).dev (effInst (tagInit (accept s (encode i))).ctx) =
      (a, { s.dev with acquireAnswers := as }) :=
  answerAcquire_of_laid ha hfree

/-- LOCK, granted (R131). -/
theorem tagRun_atBlock (h : Inv s) (hp : s.phase = .idle) (hi : i = .generateTag ∨ i = .verifyTag)
    (hcheck : tagCheck (accept s (encode i)) = true) (ha : s.dev.acquireAnswers = .granted :: as)
    (hfree : effInst s.ctx ∉ s.dev.otherLocks) : TagRun s i 2 (tagAtBlock s i as) := by
  have hanswer := answerAcquire_tagAtLock (i := i) ha fun _ => hfree
  have hat : lockStep .block .done (tagInit (accept s (encode i))) = tagAtBlock s i as := by
    rw [lockStep_of_granted (congrArg Prod.fst hanswer), hanswer]
    rfl
  exact (tagRun_atLock h hp hi hcheck).step (by simp [tagInit]) (by simp [tagInit])
    ((exec_tag_of_lock hi rfl).trans (congrArg _ hat))

/-- The requests up to the end of block `k`, that of LOCK first (R136). -/
theorem trace_chain (s : State) (i : Instr) (as : List AcquireAnswer) (k : Nat) :
    ((tagAtBlock s i as).trace ++ (List.range k).flatMap fun m => blockRequests (tagAtBlock s i as) (m + 1)) =
      s.trace ++ chainRequests (accept s (encode i)) k := by
  rw [chainRequests, List.append_cons]
  rfl

end Sys2Proof.Machine
end

section
/-! SUPPORT. How a tag command ends when a request fails (R212, R215, R331): after a failed CHECK, a failed LOCK, or a
failed encryption in any of its blocks. -/

namespace Sys2Proof.Machine

variable {s q : State} {i : Instr} {k m : Nat} {c : Word} {as : List AcquireAnswer} {es : List Answer}

/-! ### CHECK and LOCK -/

/-- A failed CHECK (R200). -/
theorem tagRun_badInput (h : Inv s) (hp : s.phase = .idle) (hi : i = .generateTag ∨ i = .verifyTag)
    (hcheck : tagCheck (accept s (encode i)) = false) : TagRun s i 1 ((accept s (encode i)).finish BAD_INPUT) :=
  (tagRun_accept h hp hi).step (by simp [accept]) (by simp [accept])
    (by rw [exec_tag_of_check hi rfl, checkTag_of_failed hcheck])

/-- A tag command accepted in `s`, at DONE after LOCK failed with result `r` and code `c` (R131). -/
def tagLockFailed (s : State) (i : Instr) (as : List AcquireAnswer) (r : BitVec 4) (c : Word) : State :=
  { tagInit (accept s (encode i)) with
    dev := { s.dev with acquireAnswers := as }
    trace := s.trace ++ [.cipherAcquire (effInst s.ctx) (effTicks s.ctx)]
    pres := r
    pcode := c
    phase := .done }

theorem tagRun_lockFailed {r : BitVec 4} (h : Inv s) (hp : s.phase = .idle) (hi : i = .generateTag ∨ i = .verifyTag)
    (hcheck : tagCheck (accept s (encode i)) = true)
    (hat : lockStep .block .done (tagInit (accept s (encode i))) = tagLockFailed s i as r c) :
    TagRun s i 2 (tagLockFailed s i as r c) :=
  (tagRun_atLock h hp hi hcheck).step (by simp [tagInit]) (by simp [tagInit])
    ((exec_tag_of_lock hi rfl).trans (congrArg _ hat))

theorem lockStep_tagInit_of_timeout (ha : s.dev.acquireAnswers = .timeout :: as) :
    lockStep .block .done (tagInit (accept s (encode i))) = tagLockFailed s i as DEVICE_TIMEOUT 0 := by
  have hanswer := answerAcquire_tagAtLock (i := i) ha (fun hgrant => by cases hgrant)
  rw [lockStep_of_timeout (congrArg Prod.fst hanswer), hanswer]
  rfl

theorem lockStep_tagInit_of_err (ha : s.dev.acquireAnswers = .err c :: as) :
    lockStep .block .done (tagInit (accept s (encode i))) = tagLockFailed s i as DEVICE_FAULT c := by
  have hanswer := answerAcquire_tagAtLock (i := i) ha (fun hgrant => by cases hgrant)
  rw [lockStep_of_err (congrArg Prod.fst hanswer), hanswer]
  rfl

/-! ### BLOCK -/

/-- A tag command at BLOCK in `q`, after `k` whole blocks, with the answers `es` left to further encryptions. -/
def afterBlocks (q : State) (k : Nat) (es : List Answer) : State :=
  { q with
    st := chainPrefix Config.encrypt q.ctx.family q.ctx.keyBits (keyBytes q.ctx) (message q) k
    i := BitVec.ofNat 32 (k + 1)
    dev := { q.dev with encryptAnswers := es }
    trace := q.trace ++ (List.range k).flatMap fun m => blockRequests q (m + 1) }

section

variable (hk : k < blockCount q)

include hk

theorem toNat_i_afterBlocks : (afterBlocks q k es).i.toNat = k + 1 := by
  have hblocks : blockCount q ≤ 2 ^ 25 := nblocks_lt
  simp only [afterBlocks, BitVec.toNat_ofNat]
  omega

theorem blockAddr_afterBlocks : blockAddr (afterBlocks q k es) = byteAddr q.lat.dataAddr (16 * k) := by
  rw [blockAddr, toNat_i_afterBlocks hk]
  rfl

/-- Every block starts inside the message, or at its end. -/
theorem block_start_le : 16 * k ≤ dataLen q.lat := by
  obtain ⟨hlast, -⟩ := last_block (dataLen q.lat)
  have hk' : k < nblocks (dataLen q.lat) := hk
  omega

/-- The bytes of block `k + 1` are those of the message at its place. -/
theorem messageBlock_eq_readBuffer :
    messageBlock (message q) (k + 1) =
      readBuffer q (byteAddr q.lat.dataAddr (16 * k)) (min 16 (dataLen q.lat - 16 * k)) := by
  have hstart := block_start_le hk
  rw [readBuffer_part (total := dataLen q.lat) (by omega), messageBlock, message, Nat.add_sub_cancel,
    List.take_eq_take_iff, List.length_drop, length_readBuffer]
  omega

theorem AdmitsReads.block (hr : AdmitsReads q q.lat.dataAddr (dataLen q.lat)) :
    AdmitsReads q (byteAddr q.lat.dataAddr (16 * k)) (min 16 (dataLen q.lat - 16 * k)) :=
  hr.part (by have hstart := block_start_le hk; omega)

/-- What is left for the last block is at most a whole one (R204). -/
theorem lastLen_afterBlocks (hw : TagWork q) (hlast : ¬ k + 1 < blockCount q) :
    lastLen (afterBlocks q k es) = min 16 (dataLen q.lat - 16 * k) := by
  obtain ⟨-, hrest⟩ := last_block (dataLen q.lat)
  have hcount : nblocks (dataLen q.lat) = k + 1 := by unfold blockCount at hk hlast; omega
  have hnb : (afterBlocks q k es).nb.toNat = dataLen q.lat := hw.nb
  have hn : (afterBlocks q k es).n.toNat = nblocks (dataLen q.lat) := hw.n
  rw [lastLen, hnb, hn, hcount, Nat.add_sub_cancel]
  rw [hcount, Nat.add_sub_cancel] at hrest
  exact (Nat.min_eq_right hrest).symm

end

/-- A failed encryption of block `k + 1` (R203, R204): the requests of the block are issued and the lock is given back
next. -/
def blockFailed (q : State) (k : Nat) (es : List Answer) (c : Word) : State :=
  { afterBlocks q k es with
    trace := (afterBlocks q k es).trace ++ blockRequests q (k + 1)
    pres := DEVICE_FAULT
    pcode := c
    phase := .release }

/-- BLOCK for block `k + 1` reads its bytes and asks for the encryption of its cipher input. -/
theorem encryptFailed_afterBlocks {x : Block} {len : Nat} (hlen : len = min 16 (dataLen q.lat - 16 * k))
    (hx : x = cipherInput q (k + 1)) :
    encryptFailed ((afterBlocks q k (.err c :: es)).emit
        ((bufferAddrs (byteAddr q.lat.dataAddr (16 * k)) len).map .memRead)) x c =
      blockFailed q k es c := by
  simp only [encryptFailed, encryptSent, blockFailed, blockRequests, Nat.add_sub_cancel, ← List.append_assoc, hx, hlen]
  rfl

/-- A failed encryption before the last block (R203). -/
theorem execBlock_of_err_before_last (hw : TagWork q) (hr : AdmitsReads q q.lat.dataAddr (dataLen q.lat))
    (hlast : k + 1 < blockCount q) :
    execBlock (afterBlocks q k (.err c :: es)) = .next (blockFailed q k es c) := by
  have hk : k < blockCount q := Nat.lt_of_succ_lt hlast
  have hlen : 16 = min 16 (dataLen q.lat - 16 * k) := by
    have hwhole := whole_block hlast
    omega
  have haddr := blockAddr_afterBlocks (es := .err c :: es) hk
  have hread := messageBlock_eq_readBuffer hk
  have hadmit := hr.block hk
  rw [← hlen] at hread hadmit
  have hlt : (afterBlocks q k (.err c :: es)).i < (afterBlocks q k (.err c :: es)).n := by
    rw [BitVec.lt_def, toNat_i_afterBlocks hk]
    exact hlast.trans_eq hw.n.symm
  rw [execBlock_of_lt hlt (haddr ▸ hadmit), blockStep_of_err (s := State.emit _ _) rfl, haddr,
    encryptFailed_afterBlocks hlen]
  simp only [cipherInput, if_pos hlast, Nat.add_sub_cancel, hread]
  rfl

/-- A failed encryption of the last block (R204). -/
theorem execBlock_of_err_last (hw : TagWork q) (hr : AdmitsReads q q.lat.dataAddr (dataLen q.lat))
    (hk : k < blockCount q) (hlast : ¬ k + 1 < blockCount q) :
    execBlock (afterBlocks q k (.err c :: es)) = .next (blockFailed q k es c) := by
  have hlen := lastLen_afterBlocks (es := .err c :: es) hk hw hlast
  have haddr := blockAddr_afterBlocks (es := .err c :: es) hk
  have hread := messageBlock_eq_readBuffer hk
  have hadmit := hr.block hk
  rw [← hlen] at hread hadmit
  have he : (afterBlocks q k (.err c :: es)).i = (afterBlocks q k (.err c :: es)).n := by
    refine BitVec.eq_of_toNat_eq ?_
    rw [toNat_i_afterBlocks hk]
    exact (Nat.le_antisymm hk (Nat.not_lt.mp hlast)).trans hw.n.symm
  rw [execBlock_of_eq he (haddr ▸ hadmit), lastBlockStep_of_err (s := State.emit _ _) rfl, haddr,
    encryptFailed_afterBlocks hlen]
  simp only [cipherInput, if_neg hlast, Nat.add_sub_cancel, hread, ← hw.nb]
  rfl

/-- BLOCK of block `k + 1` when the device answers its encryption with an error. -/
theorem execBlock_of_err (hw : TagWork q) (hr : AdmitsReads q q.lat.dataAddr (dataLen q.lat)) (hk : k < blockCount q) :
    execBlock (afterBlocks q k (.err c :: es)) = .next (blockFailed q k es c) := by
  by_cases hlast : k + 1 < blockCount q
  · exact execBlock_of_err_before_last hw hr hlast
  · exact execBlock_of_err_last hw hr hk hlast

/-- The run up to a failed encryption of block `k + 1`. -/
theorem tagRun_blockFailed (h : Inv s) (hp : s.phase = .idle) (hi : i = .generateTag ∨ i = .verifyTag)
    (hcheck : tagCheck (accept s (encode i)) = true) (ha : s.dev.acquireAnswers = .granted :: as)
    (hfree : effInst s.ctx ∉ s.dev.otherLocks)
    (hr : AdmitsReads s s.regs.dataAddr (dataLen (accept s (encode i)).lat))
    (hk : k < blockCount (accept s (encode i)))
    (he : s.dev.encryptAnswers = List.replicate k .ok ++ .err c :: es) :
    TagRun s i (k + 3) (blockFailed (tagAtBlock s i as) k es c) := by
  have hblock : TagRun s i 2 (tagAtBlock s i as) := tagRun_atBlock h hp hi hcheck ha hfree
  have hw : TagWork (tagAtBlock s i as) := { tagWork_tagInit hcheck with }
  have hwhole : TagRun s i (2 + k) (afterBlocks (tagAtBlock s i as) k (.err c :: es)) :=
    hblock.turns (blockLoop rfl hblock.inFlight rfl rfl hw.n hr k _ hk he) rfl
  rw [show k + 3 = 2 + k + 1 by omega]
  exact hwhole.step (by simp [afterBlocks, tagAtBlock]) (by simp [afterBlocks, tagAtBlock])
    ((exec_tag_of_block hi rfl).trans (execBlock_of_err hw hr hk))

/-! ### RELEASE -/

theorem releaseTag_of_failed (h : s.pres ≠ SUCCESS) : releaseTag s = (unlockStep s).goto .done := if_neg h

/-- RELEASE after a failed encryption leads to DONE (R205). -/
theorem tagRun_blockReleased (h : TagRun s i k (blockFailed q m es c)) :
    TagRun s i (k + 1) ((unlockStep (blockFailed q m es c)).goto .done) :=
  h.step (by simp [blockFailed]) (by simp [blockFailed])
    ((exec_tag_of_release h.command rfl).trans
      (congrArg _ (releaseTag_of_failed (show DEVICE_FAULT ≠ SUCCESS by decide))))

theorem trace_blockFailed (s : State) (i : Instr) (as : List AcquireAnswer) (k : Nat) (es : List Answer) (c : Word) :
    (blockFailed (tagAtBlock s i as) k es c).trace = s.trace ++ chainRequests (accept s (encode i)) (k + 1) := by
  rw [← trace_chain s i as (k + 1)]
  simp only [blockFailed, afterBlocks, List.range_succ, List.flatMap_append, List.flatMap_singleton,
    List.append_assoc]

/-- Settles O49: each failure is a run to DONE in which no tag byte is reached. -/
theorem tagCommandFailuresWriteNothing : Obligations.TagCommandFailuresWriteNothing := by
  unfold Obligations.TagCommandFailuresWriteNothing
  intro s i h hp hi s0 ends
  have hend {t : State} {k : Nat} (hrun : TagRun s i k t) (hq : t.phase = .done) (hm : t.mem = s.mem) :
      ends (k + 1) t.pres t.pcode t.trace := ⟨_, hm ▸ hrun.ends h hp hq, by simp only [tagAtIdle, s0]⟩
  refine ⟨fun hcheck => hend (tagRun_badInput h hp hi hcheck) rfl rfl, fun hcheck =>
    ⟨fun as ha => ?_, fun c as ha => ?_, fun c k as es ha hfree hr hpos hk he => ?_⟩⟩
  · exact hend (tagRun_lockFailed h hp hi hcheck (lockStep_tagInit_of_timeout ha)) rfl rfl
  · exact hend (tagRun_lockFailed h hp hi hcheck (lockStep_tagInit_of_err ha)) rfl rfl
  · obtain ⟨k, rfl⟩ : ∃ m, k = m + 1 := ⟨k - 1, by omega⟩
    have hfailed := tagRun_blockFailed h hp hi hcheck ha hfree hr hk he
    rw [← trace_blockFailed s i as k es c]
    exact hend (tagRun_blockReleased hfailed) rfl rfl

end Sys2Proof.Machine
end

section
/-! SUPPORT. A tag command when nothing fails, up to OUT (R213): after its BLOCK steps the chaining state is the MAC of
the message, and RELEASE gives the lock back. -/

namespace Sys2Proof.Machine

variable {s : State} {i : Instr}

/-- The subkeys of a keyed context are those that the CMAC derives (R153, R159). -/
theorem messageMac_eq_macWith (h : SubkeysDerived s.ctx) :
    messageMac s =
      macWith Config.encrypt s.ctx.family s.ctx.keyBits (keyBytes s.ctx) s.ctx.k1 s.ctx.k2 (message s) := by
  obtain ⟨h1, h2⟩ := Prod.mk.inj h
  rw [messageMac, cmac, h1, h2]
  rfl

/-- A tag command accepted in `s` passes its check, the memory admits its reads of the message, and the answers that the
device has laid down for it are GRANTED and OK. -/
structure NothingFails (s : State) (i : Instr) : Prop where
  checked : tagCheck (accept s (encode i)) = true
  admitted : AdmitsReads s s.regs.dataAddr (dataLen (accept s (encode i)).lat)
  granted : ∃ as, s.dev.acquireAnswers = .granted :: as
  free : effInst s.ctx ∉ s.dev.otherLocks
  encrypted : ∃ es, s.dev.encryptAnswers = List.replicate (blockCount (accept s (encode i))) .ok ++ es

theorem NothingFails.ready (h : NothingFails s i) : s.ctx.ready = true := (tagCheck_iff.mp h.checked).1

theorem NothingFails.tagLenBits_lt (h : NothingFails s i) : s.regs.tagLenBits.toNat < 128 := by
  obtain ⟨-, -, ht, -⟩ := tagCheck_iff.mp h.checked
  exact ht

/-- A tag command accepted in `s`, at OUT: the chaining state is the MAC of the message. -/
def tagAtOut (s : State) (i : Instr) : State :=
  { tagInit (accept s (encode i)) with
    i := (tagInit (accept s (encode i))).n
    st := messageMac (accept s (encode i))
    dev := s.dev.afterChain (effInst s.ctx) (blockCount (accept s (encode i)))
    trace := s.trace ++ chainRequests (accept s (encode i)) (blockCount (accept s (encode i))) ++
      [.cipherRelease (effInst s.ctx)]
    lockHeld := false
    lockInst := 0
    phase := .out }

theorem releaseTag_of_success (h : s.pres = SUCCESS) : releaseTag s = { unlockStep s with j := 0, phase := .out } :=
  if_pos h

/-- The run to OUT: CHECK, LOCK, each block, RELEASE. -/
theorem tagRun_atOut (h : Inv s) (hp : s.phase = .idle) (hi : i = .generateTag ∨ i = .verifyTag)
    (hn : NothingFails s i) : TagRun s i (blockCount (accept s (encode i)) + 3) (tagAtOut s i) := by
  obtain ⟨as, ha⟩ := hn.granted
  obtain ⟨es, he⟩ := hn.encrypted
  have hblock : TagRun s i 2 (tagAtBlock s i as) := tagRun_atBlock h hp hi hn.checked ha hn.free
  have hw : TagWork (tagAtBlock s i as) := { tagWork_tagInit hn.checked with }
  have hblocks := hblock.turns (blocksRun rfl hblock.inFlight rfl rfl hw.n hw.nb hn.admitted he) rfl
  have hmac := messageMac_eq_macWith (s := accept s (encode i)) (h.context.ready_derived hn.ready)
  have hreleased := hblocks.step (by simp) (by simp)
    ((exec_tag_of_release hi rfl).trans (congrArg _ (releaseTag_of_success rfl)))
  have hlocks : (s.dev.locks.filter fun x => x != effInst s.ctx) =
      (effInst s.ctx :: s.dev.locks).filter fun x => x != effInst s.ctx := by simp
  have hat : s.dev.afterChain (effInst s.ctx) (blockCount (accept s (encode i))) =
      { s.dev with
        acquireAnswers := as, encryptAnswers := es,
        locks := (effInst s.ctx :: s.dev.locks).filter fun x => x != effInst s.ctx } := by
    rw [Device.afterChain, ha, he, hlocks, List.drop_left' List.length_replicate]
    rfl
  have hturns : blockCount (accept s (encode i)) + 3 = 2 + blockCount (accept s (encode i)) + 1 := by omega
  rw [tagAtOut, hat, hmac, ← trace_chain s i as, hturns]
  exact hreleased

end Sys2Proof.Machine
end

section
/-! SUPPORT. Bytes stored in ascending order: the memory they leave is canonical, holds each byte at its address and is
as it was elsewhere (R61 to R63, R207). -/

namespace Sys2Proof.Machine

variable {a : Word} {k : Nat} {f : Nat → Byte} {m : List Host.Cell}

/-- Two bytes of a buffer no longer than the address space have different addresses. -/
theorem byteAddr_inj {j j' : Nat} (hj : j < 2 ^ 32) (hj' : j' < 2 ^ 32) : byteAddr a j = byteAddr a j' ↔ j = j' := by
  refine ⟨fun h => ?_, fun h => by rw [h]⟩
  have hofNat : BitVec.ofNat 32 j = BitVec.ofNat 32 j' := (BitVec.add_right_inj a).mp h
  rw [← Nat.mod_eq_of_lt hj, ← Nat.mod_eq_of_lt hj', ← BitVec.toNat_ofNat, ← BitVec.toNat_ofNat, hofNat]

theorem storeFrom_range_succ :
    storeFrom a 0 ((List.range (k + 1)).map f) m =
      Memory.store (storeFrom a 0 ((List.range k).map f) m) (byteAddr a k).toNat (f k) := by
  rw [List.range_succ, List.map_append, List.map_singleton, storeFrom_snoc, List.length_map, List.length_range,
    Nat.zero_add]

theorem storeFrom_range_wf (hm : Memory.wf m = true) : Memory.wf (storeFrom a 0 ((List.range k).map f) m) = true := by
  induction k with
  | zero => exact hm
  | succ k ih => rw [storeFrom_range_succ]; exact Memory.store_wf (byteAddr a k).isLt ih

theorem load_storeFrom_range_outside (hm : Memory.wf m = true) {b : Word} (hb : ∀ j < k, b ≠ byteAddr a j) :
    Memory.load (storeFrom a 0 ((List.range k).map f) m) b.toNat = Memory.load m b.toNat := by
  induction k with
  | zero => rfl
  | succ k ih =>
    rw [storeFrom_range_succ, Memory.load_store (storeFrom_range_wf hm),
      if_neg (mt BitVec.eq_of_toNat_eq (hb k (by omega))), ih fun j hj => hb j (by omega)]

theorem load_storeFrom_range (hm : Memory.wf m = true) (hk : k ≤ 2 ^ 32) {j : Nat} (hj : j < k) :
    Memory.load (storeFrom a 0 ((List.range k).map f) m) (byteAddr a j).toNat = f j := by
  induction k with
  | zero => omega
  | succ k ih =>
    rw [storeFrom_range_succ, Memory.load_store (storeFrom_range_wf hm)]
    by_cases he : j = k
    · rw [he, if_pos rfl]
    · have hne : byteAddr a j ≠ byteAddr a k := mt (byteAddr_inj (by omega) (by omega)).mp he
      rw [if_neg (mt BitVec.eq_of_toNat_eq hne), ih (by omega) (by omega)]

end Sys2Proof.Machine
end

section
/-! SUPPORT. GENERATE_TAG and VERIFY_TAG from acceptance to idle when nothing fails (R213, R215). -/

namespace Sys2Proof.Machine

variable {s t : State} {i : Instr}

/-- At OUT the engine has the tag's length in bytes, which does not wrap. -/
theorem tb_tagAtOut (h : NothingFails s i) :
    (tagAtOut s i).tb.toNat = tagLen (accept s (encode i)).lat ∧ tagLen (accept s (encode i)).lat ≤ 16 :=
  ⟨(tagWork_tagInit h.checked).tb, tagLen_le h.tagLenBits_lt⟩

/-- After `tb` OUT steps no tag byte is left. -/
theorem not_lt_tb_of_eq {j : BitVec 5} {tb : Nat} (hj : j = BitVec.ofNat 5 tb) {x : BitVec 5} (hx : x.toNat = tb) :
    ¬ j < x := by
  rw [hj, BitVec.lt_def, hx, BitVec.toNat_ofNat, Nat.mod_eq_of_lt (hx ▸ x.isLt)]
  exact Nat.lt_irrefl _

/-! ### GENERATE_TAG -/

/-- GENERATE_TAG accepted in `s`, idle again: the tag of the message's CMAC is stored. -/
def generateTagAtIdle (s : State) : State :=
  tagAtIdle s .generateTag SUCCESS 0
    (storeFrom s.regs.tagAddr 0 (tagOf (messageMac (accept s (encode .generateTag))) s.regs.tagLenBits.toNat) s.mem)
    (s.dev.afterChain (effInst s.ctx) (blockCount (accept s (encode .generateTag))))
    (s.trace ++ chainRequests (accept s (encode .generateTag)) (blockCount (accept s (encode .generateTag))) ++
      [Request.cipherRelease (effInst s.ctx)] ++ tagWrites (accept s (encode .generateTag)))

theorem engineTurns_generateTag (h : Inv s) (hp : s.phase = .idle) (hn : NothingFails s .generateTag)
    (hw : AdmitsWrites s s.regs.tagAddr (tagLen (accept s (encode .generateTag)).lat)) :
    engineTurns
        (blockCount (accept s (encode .generateTag)) + tagLen (accept s (encode .generateTag)).lat + 5)
        (accept s (encode .generateTag)) =
      .next (generateTagAtIdle s) := by
  obtain ⟨htb, hlen⟩ := tb_tagAtOut hn
  have hout := tagRun_atOut h hp (.inl rfl) hn
  have hwritten := hout.turns (writeLoop rfl hout.decode_lat rfl htb hlen hw _ le_rfl) rfl
  have hdone := hwritten.step (by simp [tagAtOut]) (by simp [tagAtOut])
    ((exec_generateTag_of_out rfl).trans (generateOut_of_not_lt (not_lt_tb_of_eq rfl htb)))
  have hturns : blockCount (accept s (encode .generateTag)) + tagLen (accept s (encode .generateTag)).lat + 5 =
      blockCount (accept s (encode .generateTag)) + 3 + tagLen (accept s (encode .generateTag)).lat + 1 + 1 := by omega
  rw [hturns]
  exact hdone.ends h hp rfl

theorem byteAt_generateTagAtIdle (h : Inv s) (ht : s.regs.tagLenBits.toNat < 128) {j : Nat}
    (hj : j < tagLen (accept s (encode .generateTag)).lat) :
    byteAt (generateTagAtIdle s) (byteAddr s.regs.tagAddr j) =
      tagByte (messageMac (accept s (encode .generateTag))) s.regs.tagLenBits.toNat j := by
  have hlen : tagLen (accept s (encode .generateTag)).lat ≤ 16 := tagLen_le ht
  exact load_storeFrom_range h.outside.mem_canonical (hlen.trans (by decide)) hj

theorem byteAt_generateTagAtIdle_outside (h : Inv s) {a : Word}
    (ha : ∀ j < tagLen (accept s (encode .generateTag)).lat, a ≠ byteAddr s.regs.tagAddr j) :
    byteAt (generateTagAtIdle s) a = byteAt s a :=
  load_storeFrom_range_outside h.outside.mem_canonical ha

/-- Settles O47: the run to OUT, a store for each tag byte, then DONE. -/
theorem generateTagWritesTheCmac : Obligations.GenerateTagWritesTheCmac := by
  unfold Obligations.GenerateTagWritesTheCmac
  intro s as es h hp s0 t hcheck hr hw ha hfree he
  have hn : NothingFails s .generateTag := ⟨hcheck, hr, ⟨as, ha⟩, hfree, ⟨es, he⟩⟩
  exact ⟨generateTagAtIdle s, engineTurns_generateTag h hp hn hw, rfl,
    fun j hj => byteAt_generateTagAtIdle h hn.tagLenBits_lt hj, fun a ha => byteAt_generateTagAtIdle_outside h ha⟩

/-! ### VERIFY_TAG -/

/-- The result of a VERIFY_TAG accepted in `s` when nothing fails: the comparator over the supplied bytes
(R208, R209). -/
def verifyResult (s : State) : BitVec 4 :=
  verdict (compareFrom (messageMac (accept s (encode .verifyTag))) s.regs.tagLenBits.toNat 0 0
    (readBuffer s s.regs.tagAddr (tagLen (accept s (encode .verifyTag)).lat)))

/-- VERIFY_TAG accepted in `s`, idle again. -/
def verifyTagAtIdle (s : State) : State :=
  tagAtIdle s .verifyTag (verifyResult s) 0 s.mem
    (s.dev.afterChain (effInst s.ctx) (blockCount (accept s (encode .verifyTag))))
    (s.trace ++ chainRequests (accept s (encode .verifyTag)) (blockCount (accept s (encode .verifyTag))) ++
      [Request.cipherRelease (effInst s.ctx)] ++ tagReads (accept s (encode .verifyTag)))

theorem engineTurns_verifyTag (h : Inv s) (hp : s.phase = .idle) (hn : NothingFails s .verifyTag)
    (hr : AdmitsReads s s.regs.tagAddr (tagLen (accept s (encode .verifyTag)).lat)) :
    engineTurns (blockCount (accept s (encode .verifyTag)) + tagLen (accept s (encode .verifyTag)).lat + 5)
        (accept s (encode .verifyTag)) =
      .next (verifyTagAtIdle s) := by
  obtain ⟨htb, hlen⟩ := tb_tagAtOut hn
  have hout := tagRun_atOut h hp (.inr rfl) hn
  have hcompared := hout.turns (compareLoop rfl hout.decode_lat rfl htb hlen hr _ le_rfl) rfl
  have hdone := hcompared.step (by simp [tagAtOut]) (by simp [tagAtOut])
    ((exec_verifyTag_of_out rfl).trans (verifyOut_of_not_lt (not_lt_tb_of_eq rfl htb)))
  have hturns : blockCount (accept s (encode .verifyTag)) + tagLen (accept s (encode .verifyTag)).lat + 5 =
      blockCount (accept s (encode .verifyTag)) + 3 + tagLen (accept s (encode .verifyTag)).lat + 1 + 1 := by omega
  rw [hturns]
  exact hdone.ends h hp rfl

theorem verdict_eq_success_or (acc : Byte) : verdict acc = SUCCESS ∨ verdict acc = AUTH_FAILED := ite_eq_or_eq _ _ _

theorem verdict_eq_success_iff {acc : Byte} : verdict acc = SUCCESS ↔ acc = 0 := by
  unfold verdict
  split
  case isTrue h => exact iff_of_true rfl h
  case isFalse h => exact iff_of_false (by decide) h

theorem getD_readBuffer {a : Word} {len j : Nat} (hj : j < len) :
    (readBuffer s a len).getD j 0 = byteAt s (byteAddr a j) := by
  simp [readBuffer, bufferAddrs, hj]

/-- The supplied bytes are accepted exactly when each of them, masked, is the tag byte (R163, R210). -/
theorem verifyResult_eq_success_iff :
    verifyResult s = SUCCESS ↔ ∀ j < tagLen (accept s (encode .verifyTag)).lat,
      byteAt s (byteAddr s.regs.tagAddr j) &&& tagMask s.regs.tagLenBits.toNat j =
        tagByte (messageMac (accept s (encode .verifyTag))) s.regs.tagLenBits.toNat j := by
  rw [verifyResult, verdict_eq_success_iff, compareFrom_eq_zero_iff, length_readBuffer]
  simp only [true_and, Nat.zero_add]
  exact forall₂_congr fun j hj => by rw [getD_readBuffer hj]

/-- Settles O48: the run to OUT, a comparison for each tag byte, then the verdict. -/
theorem verifyTagAcceptsExactlyTheCmac : Obligations.VerifyTagAcceptsExactlyTheCmac := by
  unfold Obligations.VerifyTagAcceptsExactlyTheCmac
  intro s as es h hp s0 t hcheck hr hr' ha hfree he
  have hn : NothingFails s .verifyTag := ⟨hcheck, hr, ⟨as, ha⟩, hfree, ⟨es, he⟩⟩
  exact ⟨verifyResult s, engineTurns_verifyTag h hp hn hr', verdict_eq_success_or _, verifyResult_eq_success_iff⟩

end Sys2Proof.Machine
end

section
/-! SUPPORT. A tag that GENERATE_TAG wrote verifies (R216), and with one bit below `t` flipped an accepted tag does not
(R217). -/

namespace Sys2Proof.Machine

variable {s t : State} {k : Nat}

theorem readBuffer_congr {a : Word} {len : Nat} (h : ∀ m < len, byteAt t (byteAddr a m) = byteAt s (byteAddr a m)) :
    readBuffer t a len = readBuffer s a len := by
  refine List.map_congr_left fun x hx => ?_
  obtain ⟨m, hm, rfl⟩ := mem_bufferAddrs.mp hx
  exact h m hm

/-- The MAC is that of the key in the context and of the message. -/
theorem messageMac_congr (hctx : t.ctx = s.ctx) (hm : message t = message s) : messageMac t = messageMac s := by
  rw [messageMac, messageMac, hctx, hm]

/-! ### Round trip -/

theorem tagByte_and_tagMask (mac : Block) (t j : Nat) : tagByte mac t j &&& tagMask t j = tagByte mac t j := by
  rw [tagByte, BitVec.and_assoc, BitVec.and_self]

/-- A GENERATE_TAG whose tag lies outside the message leaves the message as it was. -/
theorem message_generateTagAtIdle (h : Inv s)
    (hdisjoint : ∀ m < dataLen (accept s (encode .generateTag)).lat, ∀ j < tagLen (accept s (encode .generateTag)).lat,
      byteAddr s.regs.dataAddr m ≠ byteAddr s.regs.tagAddr j) :
    message (accept (generateTagAtIdle s) (encode .verifyTag)) = message (accept s (encode .generateTag)) :=
  readBuffer_congr fun m hm => byteAt_generateTagAtIdle_outside h (hdisjoint m hm)

/-- The tag that GENERATE_TAG stored is the one VERIFY_TAG computes over the same message. -/
theorem verifyResult_generateTagAtIdle (h : Inv s) (ht : s.regs.tagLenBits.toNat < 128)
    (hmessage :
      message (accept (generateTagAtIdle s) (encode .verifyTag)) = message (accept s (encode .generateTag))) :
    verifyResult (generateTagAtIdle s) = SUCCESS := by
  refine verifyResult_eq_success_iff.mpr fun j hj => ?_
  have hmac : messageMac (accept (generateTagAtIdle s) (encode .verifyTag)) =
      messageMac (accept s (encode .generateTag)) := messageMac_congr rfl hmessage
  have hbyte := byteAt_generateTagAtIdle h ht hj
  rw [hmac]
  exact (congrArg (· &&& _) hbyte).trans (tagByte_and_tagMask _ _ _)

/-- Settles O51: the run of GENERATE_TAG, then that of VERIFY_TAG from the idle state it leaves. -/
theorem generatedTagVerifies : Obligations.GeneratedTagVerifies := by
  unfold Obligations.GeneratedTagVerifies
  intro s as es h hp s0 steps hcheck hr hw hr' hdisjoint ha hfree he
  have hsplit : s.dev.encryptAnswers =
      List.replicate (blockCount s0) .ok ++ (List.replicate (blockCount s0) .ok ++ es) := by
    rw [he, List.replicate_add, List.append_assoc]
  have hn : NothingFails s .generateTag := ⟨hcheck, hr, ⟨_, ha⟩, hfree, ⟨_, hsplit⟩⟩
  have hrun := engineTurns_generateTag h hp hn hw
  have ht : Inv (generateTagAtIdle s) :=
    engineTurns_induct (fun _ _ => engineTurn_inv) (inv_accept h (h.control.not_busy_of_idle hp) _) hrun
  have hgranted : (generateTagAtIdle s).dev.acquireAnswers = .granted :: as := congrArg (List.drop 1) ha
  have hencrypted : (generateTagAtIdle s).dev.encryptAnswers = List.replicate (blockCount s0) .ok ++ es :=
    (congrArg (List.drop (blockCount s0)) hsplit).trans (List.drop_left' List.length_replicate)
  have hn' : NothingFails (generateTagAtIdle s) .verifyTag := ⟨hcheck, hr, ⟨_, hgranted⟩, hfree, ⟨_, hencrypted⟩⟩
  exact ⟨generateTagAtIdle s, verifyTagAtIdle (generateTagAtIdle s), hrun, rfl, hp,
    engineTurns_verifyTag ht hp hn' hr',
    verifyResult_generateTagAtIdle h hn.tagLenBits_lt (message_generateTagAtIdle h hdisjoint), hp⟩

/-! ### A flipped bit -/

/-- `s` with tag bit `k` of the supplied tag flipped in memory. -/
def tagBitFlipped (s : State) (k : Nat) : State :=
  s.storeByte (byteAddr s.regs.tagAddr (k / 8))
    (byteAt s (byteAddr s.regs.tagAddr (k / 8)) ^^^ (0x80 : Byte) >>> (k % 8))

theorem Inv.storeByte (h : Inv s) (a : Word) (v : Byte) : Inv (s.storeByte a v) :=
  ⟨h.control.congr rfl, h.context.congr rfl, h.tag.congr rfl, h.outside.storeByte a v⟩

/-- Tag bit `k` is bit `7 - k % 8` of its byte. -/
theorem getLsbD_flippedBit (x : Byte) (k : Nat) :
    (x ^^^ (0x80 : Byte) >>> (k % 8)).getLsbD (7 - k % 8) = !x.getLsbD (7 - k % 8) := by
  have hbit : k % 8 + (7 - k % 8) = 7 := by omega
  have hone : ((0x80 : Byte) >>> (k % 8)).getLsbD (7 - k % 8) = true := by
    rw [BitVec.getLsbD_ushiftRight, hbit]
    decide
  rw [BitVec.getLsbD_xor, hone, Bool.xor_true]

/-- Two bytes that differ in a bit below `t` do not both carry the tag byte. -/
theorem not_tagByte_of_flippedBit {mac : Block} {bits : Nat} {x : Byte} (hk : k < bits) (hbits : bits < 128)
    (hx : x &&& tagMask bits (k / 8) = tagByte mac bits (k / 8)) :
    (x ^^^ (0x80 : Byte) >>> (k % 8)) &&& tagMask bits (k / 8) ≠ tagByte mac bits (k / 8) := by
  intro hy
  have hj : k / 8 < 16 := by omega
  have hlt : 8 * (k / 8) + k % 8 < bits := by omega
  have hbit := (and_tagMask_eq_tagByte_iff hj).mp hx (k % 8) (Nat.mod_lt _ (by decide)) hlt
  have hbit' := (and_tagMask_eq_tagByte_iff hj).mp hy (k % 8) (Nat.mod_lt _ (by decide)) hlt
  rw [getLsbD_flippedBit, hbit] at hbit'
  exact (Bool.eq_not_self _).mp hbit'

/-- A flipped bit outside the message leaves the MAC as it was, and the tag byte it lies in no longer matches. -/
theorem verifyResult_tagBitFlipped (h : Inv s) (hk : k < s.regs.tagLenBits.toNat)
    (hbits : s.regs.tagLenBits.toNat < 128)
    (houtside : ∀ m < dataLen (accept s (encode .verifyTag)).lat,
      byteAddr s.regs.dataAddr m ≠ byteAddr s.regs.tagAddr (k / 8))
    (hs : verifyResult s = SUCCESS) : verifyResult (tagBitFlipped s k) = AUTH_FAILED := by
  have hbyte (a : Word) := byteAt_storeByte h.outside.mem_canonical (byteAddr s.regs.tagAddr (k / 8)) a
    (byteAt s (byteAddr s.regs.tagAddr (k / 8)) ^^^ (0x80 : Byte) >>> (k % 8))
  have hmessage : message (accept (tagBitFlipped s k) (encode .verifyTag)) = message (accept s (encode .verifyTag)) :=
    readBuffer_congr fun m hm => (hbyte _).trans (if_neg (houtside m hm))
  have hmac : messageMac (accept (tagBitFlipped s k) (encode .verifyTag)) =
      messageMac (accept s (encode .verifyTag)) := messageMac_congr rfl hmessage
  have hj : k / 8 < tagLen (accept s (encode .verifyTag)).lat := by
    change k / 8 < (s.regs.tagLenBits.toNat + 7) / 8
    omega
  refine (verdict_eq_success_or _).resolve_left fun hflipped => ?_
  have hsupplied := verifyResult_eq_success_iff.mp hs _ hj
  have hflipped := (verifyResult_eq_success_iff (s := tagBitFlipped s k)).mp hflipped _ hj
  rw [hmac] at hflipped
  refine not_tagByte_of_flippedBit hk hbits hsupplied ((congrArg (· &&& _) ?_).trans hflipped)
  exact ((hbyte _).trans (if_pos rfl)).symm

/-- Settles O52: the run of VERIFY_TAG with the flipped bit, which ends with the other verdict. -/
theorem flippedTagBitFailsVerification : Obligations.FlippedTagBitFailsVerification := by
  unfold Obligations.FlippedTagBitFailsVerification
  intro s k as es u h hp s0 steps a flipped hcheck hk hr hr' houtside ha hfree he hrun hu
  have hn : NothingFails s .verifyTag := ⟨hcheck, hr, ⟨as, ha⟩, hfree, ⟨es, he⟩⟩
  cases (engineTurns_verifyTag h hp hn hr').symm.trans hrun
  have hn' : NothingFails (tagBitFlipped s k) .verifyTag := ⟨hcheck, hr, ⟨as, ha⟩, hfree, ⟨es, he⟩⟩
  exact ⟨verifyTagAtIdle (tagBitFlipped s k), engineTurns_verifyTag (h.storeByte _ _) hp hn' hr',
    verifyResult_tagBitFlipped h hk hn.tagLenBits_lt houtside hu, hp⟩

end Sys2Proof.Machine
end

section
/-! SUPPORT. Two runs of VERIFY_TAG over memories that agree on the message (R164, R214): up to OUT they differ in
memory alone, and what the supplied tag decides from there on is the accumulator and the result. -/

namespace Sys2Proof.Machine

variable {s t : State} {m : List Host.Cell}

/-! ### The states of the two runs -/

/-- The same state over another memory. -/
def State.withMem (m : List Host.Cell) (s : State) : State := { s with mem := m }

/-- How the second run, over memory `m`, stands to the first. DONE shows the same device code in both. -/
inductive Twins (m : List Host.Cell) : State → State → Prop
  | before {s : State} (hp : s.phase ∈ [Phase.check, .lock, .block, .release])
      (hw : s.phase ∈ [Phase.lock, .block] → TagWork s) : Twins m s (s.withMem m)
  | out {s : State} (hp : s.phase = .out) (acc : Byte) : Twins m s { s with mem := m, acc := acc }
  | done {s : State} (hp : s.phase = .done) (acc : Byte) (pres : BitVec 4)
      (he : shownError pres s.pcode = shownError s.pres s.pcode) :
      Twins m s { s with mem := m, acc := acc, pres := pres }
  | idle {s : State} (hp : s.phase = .idle) (pres result : BitVec 4) :
      Twins m s { s with mem := m, pres := pres, result := result }

theorem Twins.eq (h : Twins m s t) :
    t = { s with mem := m, acc := t.acc, pres := t.pres, result := t.result } := by
  cases h <;> rfl

theorem Twins.phase_eq (h : Twins m s t) : t.phase = s.phase := by rw [h.eq]

theorem Twins.lat_eq (h : Twins m s t) : t.lat = s.lat := by rw [h.eq]

theorem Twins.trace_eq (h : Twins m s t) : t.trace = s.trace := by rw [h.eq]

/-- The steps of the two runs: both taken, or both refused by the memory. -/
inductive TwinSteps (m : List Host.Cell) : Stepped → Stepped → Prop
  | next {s t : State} (h : Twins m s t) : TwinSteps m (.next s) (.next t)
  | memoryRefused (a : Word) : TwinSteps m (.fault (.memoryRefused a)) (.fault (.memoryRefused a))

/-! ### CHECK, LOCK and RELEASE -/

theorem twins_finish (s : State) (r : BitVec 4) : Twins m (s.finish r) ((s.finish r).withMem m) :=
  .done rfl _ _ rfl

theorem checkTag_withMem (m : List Host.Cell) (s : State) : checkTag (s.withMem m) = (checkTag s).withMem m := by
  simp only [checkTag, tagCheck_congr (s := s) (t := s.withMem m) rfl rfl, apply_ite (State.withMem m)]
  rfl

theorem twins_checkTag (s : State) : Twins m (checkTag s) (checkTag (s.withMem m)) := by
  rw [checkTag_withMem]
  unfold checkTag
  split
  case isTrue hcheck => exact .before (by simp [tagInit]) fun _ => tagWork_tagInit hcheck
  case isFalse => exact twins_finish s BAD_INPUT

theorem twins_lockStep (hw : TagWork s) :
    Twins m (lockStep .block .done s) (lockStep .block .done (s.withMem m)) := by
  cases ha : (answerAcquire s.dev (effInst s.ctx)).1 with
  | granted =>
    rw [lockStep_of_granted ha, lockStep_of_granted (s := s.withMem m) ha]
    exact .before (by simp) fun _ => { hw with }
  | timeout =>
    rw [lockStep_of_timeout ha, lockStep_of_timeout (s := s.withMem m) ha]
    exact .done rfl _ _ rfl
  | err c =>
    rw [lockStep_of_err ha, lockStep_of_err (s := s.withMem m) ha]
    exact .done rfl _ _ rfl

theorem twins_releaseTag (s : State) : Twins m (releaseTag s) (releaseTag (s.withMem m)) := by
  by_cases hs : s.pres = SUCCESS
  · rw [releaseTag_of_success hs, releaseTag_of_success (s := s.withMem m) hs]
    exact .out rfl _
  · rw [releaseTag_of_failed hs, releaseTag_of_failed (s := s.withMem m) hs]
    exact .done rfl _ _ rfl

/-! ### BLOCK -/

/-- A reading step of bytes that the two memories agree on. -/
theorem twinSteps_reading {a : Word} {len : Nat} {f : List Byte → State → State}
    (hread : readBuffer (s.withMem m) a len = readBuffer s a len)
    (hf : ∀ b rs, Twins m (f b (s.emit rs)) (f b ((s.emit rs).withMem m))) :
    TwinSteps m (reading s a len f) (reading (s.withMem m) a len f) := by
  have hadmit : admitsRead (s.withMem m) = admitsRead s := rfl
  simp only [reading, hread, hadmit]
  split
  · exact .memoryRefused _
  · exact .next (hf _ _)

/-- The work left after one more block (R203). -/
theorem TagWork.next_block (hw : TagWork s) (hlt : s.i < s.n) : TagWork { s with i := s.i + 1 } :=
  { hw with
    i_pos := by simp only [toNat_add_one_of_lt hlt]; omega
    i_le := by simp only [toNat_add_one_of_lt hlt]; exact hw.i_lt hlt }

theorem twins_blockStep (hp : s.phase = .block) (hw : TagWork s) (hlt : s.i < s.n) (b : List Byte) :
    Twins m (blockStep b s) (blockStep b (s.withMem m)) := by
  cases ha : (drawEncrypt s.dev).1 with
  | ok =>
    rw [blockStep_of_ok ha, blockStep_of_ok (s := s.withMem m) ha]
    exact .before (by simp [encryptSent, hp]) fun _ => { hw.next_block hlt with }
  | err c =>
    rw [blockStep_of_err ha, blockStep_of_err (s := s.withMem m) ha]
    exact .before (by simp [encryptFailed]) fun hx => by simp [encryptFailed] at hx

theorem twins_lastBlockStep (b : List Byte) (s : State) :
    Twins m (lastBlockStep b s) (lastBlockStep b (s.withMem m)) := by
  cases ha : (drawEncrypt s.dev).1 with
  | ok =>
    rw [lastBlockStep_of_ok ha, lastBlockStep_of_ok (s := s.withMem m) ha]
    exact .before (by simp) fun hx => by simp at hx
  | err c =>
    rw [lastBlockStep_of_err ha, lastBlockStep_of_err (s := s.withMem m) ha]
    exact .before (by simp [encryptFailed]) fun hx => by simp [encryptFailed] at hx

/-- Memories that agree on the message agree on each part of it. -/
theorem readBuffer_withMem_part (hm : message (s.withMem m) = message s) {off len : Nat}
    (h : off + len ≤ dataLen s.lat) :
    readBuffer (s.withMem m) (byteAddr s.lat.dataAddr off) len = readBuffer s (byteAddr s.lat.dataAddr off) len := by
  rw [readBuffer_part h, readBuffer_part h]
  exact congrArg (fun b => (b.drop off).take len) hm

theorem TagWork.whole_block_le (hw : TagWork s) (hlt : s.i < s.n) : 16 * (s.i.toNat - 1) + 16 ≤ dataLen s.lat := by
  have hpos := hw.i_pos
  exact whole_block (by have hleft := hw.i_lt hlt; omega)

theorem TagWork.last_block_le (hw : TagWork s) (he : s.i = s.n) :
    16 * (s.i.toNat - 1) + lastLen s ≤ dataLen s.lat := by
  have hlast := last_block (dataLen s.lat)
  rw [lastLen, he, hw.n, hw.nb]
  omega

/-- BLOCK reads bytes of the message alone (R203, R204). -/
theorem twinSteps_execBlock (hp : s.phase = .block) (hw : TagWork s) (hm : message (s.withMem m) = message s) :
    TwinSteps m (execBlock s) (execBlock (s.withMem m)) := by
  by_cases hlt : s.i < s.n
  · rw [execBlock, if_pos hlt, execBlock, if_pos (show (s.withMem m).i < (s.withMem m).n from hlt)]
    exact twinSteps_reading (readBuffer_withMem_part hm (hw.whole_block_le hlt)) fun b rs =>
      twins_blockStep (s := s.emit rs) hp { hw with } hlt b
  · have he : s.i = s.n := BitVec.le_antisymm (by rw [BitVec.le_def, hw.n]; exact hw.i_le) (BitVec.not_lt.mp hlt)
    rw [execBlock, if_neg hlt, if_pos he, execBlock, if_neg (show ¬ (s.withMem m).i < (s.withMem m).n from hlt),
      if_pos (show (s.withMem m).i = (s.withMem m).n from he)]
    exact twinSteps_reading (readBuffer_withMem_part hm (hw.last_block_le he)) fun b rs =>
      twins_lastBlockStep b (s.emit rs)

/-! ### OUT -/

theorem verdict_ne_deviceFault (acc : Byte) : verdict acc ≠ DEVICE_FAULT := by
  rcases verdict_eq_success_or acc with h | h <;> rw [h] <;> decide

theorem shownError_verdict (acc : Byte) (c : Word) : shownError (verdict acc) c = 0 :=
  if_neg (verdict_ne_deviceFault acc)

/-- A byte of the supplied tag reaches the accumulator alone, and the accumulator the result alone (R208, R209). -/
theorem twinSteps_verifyOut (hp : s.phase = .out) (acc : Byte) :
    TwinSteps m (verifyOut s) (verifyOut { s with mem := m, acc := acc }) := by
  have haddr : tagByteAddr { s with mem := m, acc := acc } = tagByteAddr s := rfl
  have hadmit : admitsRead { s with mem := m, acc := acc } = admitsRead s := rfl
  simp only [verifyOut, readingByte, haddr, hadmit]
  split
  · split
    · exact .next (.out (s := compareStep _ (s.emit _)) hp _)
    · exact .memoryRefused _
  · exact .next (.done rfl _ _ ((shownError_verdict _ _).trans (shownError_verdict _ _).symm))

/-! ### DONE -/

theorem twins_complete {acc : Byte} {pres : BitVec 4} (he : shownError pres s.pcode = shownError s.pres s.pcode) :
    Twins m s.complete (State.complete { s with mem := m, acc := acc, pres := pres }) := by
  have hc : State.complete { s with mem := m, acc := acc, pres := pres } =
      { s.complete with mem := m, pres := pres, result := pres } := by
    simp only [State.complete, he]
  rw [hc]
  exact .idle rfl _ _

/-! ### A turn and a run -/

theorem Twins.exec_verifyTag (h : Twins m s t) (hm : message (s.withMem m) = message s) (hidle : s.phase ≠ .idle) :
    TwinSteps m (exec .verifyTag s) (exec .verifyTag t) := by
  have htag : Instr.verifyTag = .generateTag ∨ Instr.verifyTag = .verifyTag := .inr rfl
  cases h with
  | before hp hw =>
    simp only [List.mem_cons, List.not_mem_nil, or_false] at hp
    rcases hp with hp | hp | hp | hp
    · rw [exec_tag_of_check htag hp, exec_tag_of_check (s := s.withMem m) htag hp]
      exact .next (twins_checkTag s)
    · rw [exec_tag_of_lock htag hp, exec_tag_of_lock (s := s.withMem m) htag hp]
      exact .next (twins_lockStep (hw (by simp [hp])))
    · rw [exec_tag_of_block htag hp, exec_tag_of_block (s := s.withMem m) htag hp]
      exact twinSteps_execBlock hp (hw (by simp [hp])) hm
    · rw [exec_tag_of_release htag hp, exec_tag_of_release (s := s.withMem m) htag hp]
      exact .next (twins_releaseTag s)
  | out hp acc =>
    rw [exec_verifyTag_of_out hp, exec_verifyTag_of_out (s := { s with mem := m, acc := acc }) hp]
    exact twinSteps_verifyOut hp acc
  | done hp acc pres he =>
    rw [exec_of_done hp, exec_of_done (s := { s with mem := m, acc := acc, pres := pres }) hp]
    exact .next (twins_complete he)
  | idle hp => exact absurd hp hidle

/-- The engine turns of the two runs. -/
theorem Twins.exists_engineTurn (h : Twins m s t) (hd : decode s.lat.cmd = some .verifyTag)
    (hm : message (s.withMem m) = message s) :
    ∃ s' t', engineTurn s = .next s' ∧ engineTurn t = .next t' ∧ Twins m s' t' := by
  by_cases hp : s.phase = .idle
  · exact ⟨s, t, engineTurn_of_idle hp, engineTurn_of_idle (h.phase_eq.trans hp), h⟩
  · have hp' : t.phase ≠ .idle := h.phase_eq ▸ hp
    have hd' : decode t.lat.cmd = some .verifyTag := h.lat_eq ▸ hd
    have hsteps : TwinSteps m (commandStep s) (commandStep t) := by
      rw [commandStep_of_decode hd, commandStep_of_decode hd']
      exact h.exec_verifyTag hm hp
    generalize ho : commandStep s = o at hsteps
    generalize ho' : commandStep t = o' at hsteps
    cases hsteps with
    | next h' =>
      exact ⟨_, _, engineTurn_of_commandStep hp ho, engineTurn_of_commandStep hp' ho', h'⟩
    | memoryRefused a => exact ⟨s, t, engineTurn_of_memoryRefused ho, engineTurn_of_memoryRefused ho', h⟩

/-- A turn of VERIFY_TAG leaves operands and memory as they were (R211). -/
theorem engineTurn_verifyTag_kept (hd : decode s.lat.cmd = some .verifyTag) (h : engineTurn s = .next t) :
    t.lat = s.lat ∧ t.mem = s.mem := by
  rcases eq_or_commandStep_of_engineTurn h with rfl | hstep
  · exact ⟨rfl, rfl⟩
  · have hx : execVerifyTag s = .next t := (commandStep_of_decode hd).symm.trans hstep
    exact ⟨congrArg Prod.fst (requestPart_commandStep hstep), (writesNoMemory_execVerifyTag hx).mem⟩

theorem message_eq_of_kept (hl : t.lat = s.lat) (hm : t.mem = s.mem) : message t = message s := by
  rw [message, message, hl, readBuffer_of_mem_eq hm]

theorem Twins.exists_engineTurns (h : Twins m s t) (hd : decode s.lat.cmd = some .verifyTag)
    (hm : message (s.withMem m) = message s) (k : Nat) :
    ∃ s' t', engineTurns k s = .next s' ∧ engineTurns k t = .next t' ∧ Twins m s' t' := by
  induction k generalizing s t with
  | zero => exact ⟨s, t, rfl, rfl, h⟩
  | succ k ih =>
    obtain ⟨u, v, hu, hv, huv⟩ := h.exists_engineTurn hd hm
    obtain ⟨hlat, hmem⟩ := engineTurn_verifyTag_kept hd hu
    have hm' : message (u.withMem m) = message u := by
      rw [message_eq_of_kept (s := s.withMem m) (t := u.withMem m) hlat rfl, hm, message_eq_of_kept hlat hmem]
    rw [engineTurns_succ hu, engineTurns_succ hv]
    exact ih huv (hlat ▸ hd) hm'

/-- Settles O50: acceptance makes twins of the two runs, and every turn keeps them so. -/
theorem verifyTagIsConstantTime : Obligations.VerifyTagIsConstantTime := by
  unfold Obligations.VerifyTagIsConstantTime
  intro s m k s1 s2 hm
  have htwins : Twins m s1 s2 := .before (by simp [s1, accept]) fun hx => by simp [s1, accept] at hx
  obtain ⟨t1, t2, h1, h2, h⟩ := htwins.exists_engineTurns (decode_encode .verifyTag) hm.symm k
  exact ⟨t1, t2, h1, h2, h.phase_eq.symm, h.trace_eq.symm, h.eq⟩

end Sys2Proof.Machine
end

section
/-! SUPPORT. INIT, FREE and the setters: the step each phase gives, and the runs from acceptance to idle, which use no
working register (R240 to R249). -/

namespace Sys2Proof.Machine

variable {s t u : State} {i : Instr} {k : Nat}

/-! ### INIT and FREE -/

/-- CHECK of INIT and FREE passes whatever the state holds (R240, R243). -/
theorem exec_clearing_of_check (hi : i = .init ∨ i = .free) (hp : s.phase = .check) :
    exec i s = .next (s.goto .clear) := by
  rcases hi with rfl | rfl
  · simp only [exec, execInit, hp]
  · simp only [exec, execFree, hp]

theorem exec_clearing_of_clear (hi : i = .init ∨ i = .free) (hp : s.phase = .clear) :
    exec i s = .next (clearStep s) := by
  rcases hi with rfl | rfl
  · simp only [exec, execInit, hp]
  · simp only [exec, execFree, hp]

/-- Settles O29: CLEAR is the unbinding of what is bound and the zeroing of the context. -/
theorem initAndFreeClearTheContext : Obligations.InitAndFreeClearTheContext := by
  unfold Obligations.InitAndFreeClearTheContext
  intro s i hi
  exact ⟨exec_clearing_of_check hi, fun hp =>
    ⟨(cipherUnbind s).dev, exec_clearing_of_clear hi hp, rfl, cipherUnbind_dev_of_unbound⟩⟩

/-! ### The setters -/

theorem exec_setDeviceInstance_of_check (hp : s.phase = .check) :
    exec .setDeviceInstance s = .next (checkDeviceInstance s) := by
  simp only [exec, execSetDeviceInstance, hp]

theorem exec_setLockWaitTicks_of_check (hp : s.phase = .check) :
    exec .setLockWaitTicks s = .next (checkLockWaitTicks s) := by
  simp only [exec, execSetLockWaitTicks, hp]

theorem exec_setDeviceInstance_of_setcfg (hp : s.phase = .setcfg) :
    exec .setDeviceInstance s =
      .next { s with ctx := { s.ctx with inst := s.lat.instArg, instSet := true }, phase := .done } := by
  simp only [exec, execSetDeviceInstance, hp]

theorem exec_setLockWaitTicks_of_setcfg (hp : s.phase = .setcfg) :
    exec .setLockWaitTicks s =
      .next { s with ctx := { s.ctx with ticks := s.lat.ticksArg, ticksSet := true }, phase := .done } := by
  simp only [exec, execSetLockWaitTicks, hp]

/-- Settles O30: CHECK tests the latched value, and SETCFG is an update of the pair alone. -/
theorem settersWriteOnlyTheirPair : Obligations.SettersWriteOnlyTheirPair := by
  unfold Obligations.SettersWriteOnlyTheirPair
  intro s
  exact ⟨fun hp => ⟨exec_setDeviceInstance_of_check hp, exec_setLockWaitTicks_of_check hp⟩,
    fun hp => ⟨exec_setDeviceInstance_of_setcfg hp, exec_setLockWaitTicks_of_setcfg hp⟩⟩

/-! ### From acceptance to idle -/

/-- An idle engine whose working registers are zero: all that the runs below need of a legal idle state. -/
structure AtRest (s : State) : Prop where
  phase : s.phase = .idle
  scratch : ScratchZero s
  L : s.L = 0

theorem Inv.atRest (h : Inv s) (hp : s.phase = .idle) : AtRest s :=
  ⟨hp, h.tag.scratch (by simp [hp]), h.L_eq_zero hp⟩

theorem AtRest.cipherUnbind (h : AtRest s) : AtRest (cipherUnbind s) := ⟨h.phase, h.scratch.congr rfl, h.L⟩

/-- A command accepted in `s`, at DONE, with this pending result, this context and no working register used. -/
def lifecycleAtDone (s : State) (i : Instr) (r : BitVec 4) (c : Context) : State :=
  { accept s (encode i) with ctx := c, pres := r, phase := .done }

/-- That command, completed. -/
def lifecycleEnd (s : State) (i : Instr) (r : BitVec 4) (c : Context) : State :=
  { s with
    lat := (accept s (encode i)).lat, ctx := c, busy := false, ovr := false, result := r, devError := 0, pres := r,
    pcode := 0 }

theorem atRest_lifecycleEnd (h : AtRest s) (r : BitVec 4) (c : Context) : AtRest (lifecycleEnd s i r c) :=
  ⟨h.phase, h.scratch.congr rfl, h.L⟩

/-- STATUS shows nothing but the result and READY once the command has ended (R22). -/
theorem statusWord_lifecycleEnd (s : State) (i : Instr) (r : BitVec 4) (c : Context) :
    statusWord (lifecycleEnd s i r c) = (r.setWidth 32 <<< 4) ||| (flag c.ready <<< 1) := by
  have hoff : flag false = 0#32 := rfl
  simp only [statusWord, lifecycleEnd, hoff, BitVec.zero_shiftLeft, BitVec.or_zero]

/-- The run of the command that `s` accepts begins with its CHECK. -/
theorem engineTurns_one_of_check (hx : exec i (accept s (encode i)) = .next t) :
    engineTurns 1 (accept s (encode i)) = .next t := by
  have hp : (accept s (encode i)).phase ≠ .idle := by simp [accept]
  rw [engineTurns_succ (engineTurn_of_exec hp (decode_encode i) hx), engineTurns_zero]

/-- A further turn of the command at the end of a run. -/
theorem engineTurns_snoc (hrun : engineTurns k s = .next t) (hd : decode t.lat.cmd = some i)
    (hx : exec i t = .next u) (hp : t.phase ≠ .idle) : engineTurns (k + 1) s = .next u := by
  rw [engineTurns_add 1 hrun, engineTurns_succ (engineTurn_of_exec hp hd hx), engineTurns_zero]

/-- With no device code pending DONE shows none (R127). -/
@[simp] theorem shownError_zero (r : BitVec 4) : shownError r 0 = 0 := ite_self 0

theorem complete_lifecycleAtDone (h : AtRest s) (r : BitVec 4) (c : Context) :
    (lifecycleAtDone s i r c).complete = lifecycleEnd s i r c := by
  have hz : ScratchZero (lifecycleAtDone s i r c) := h.scratch.congr rfl
  have hcode : shownError (lifecycleAtDone s i r c).pres (lifecycleAtDone s i r c).pcode = 0 := shownError_zero r
  rw [hz.complete_eq h.L, hcode, lifecycleEnd, ← h.phase]
  rfl

/-- DONE ends the run. -/
theorem engineTurns_lifecycleEnd {r : BitVec 4} {c : Context} (h : AtRest s)
    (hrun : engineTurns k t = .next (lifecycleAtDone s i r c)) :
    engineTurns (k + 1) t = .next (lifecycleEnd s i r c) := by
  rw [← complete_lifecycleAtDone h]
  exact engineTurns_snoc hrun (decode_encode i) (exec_of_done rfl i) (by simp [lifecycleAtDone])

/-! ### The runs of INIT and FREE -/

/-- CHECK, CLEAR and DONE of INIT and FREE (R240, R243, R244): what is bound is unbound, and the context zeroed. -/
theorem engineTurns_clearing (h : AtRest s) (hi : i = .init ∨ i = .free) :
    engineTurns 3 (accept s (encode i)) = .next (lifecycleEnd (cipherUnbind s) i SUCCESS Context.zero) := by
  have hchecked := engineTurns_one_of_check (exec_clearing_of_check hi (s := accept s (encode i)) rfl)
  have hcleared : engineTurns 2 (accept s (encode i)) =
      .next (lifecycleAtDone (cipherUnbind s) i SUCCESS Context.zero) :=
    engineTurns_snoc hchecked (decode_encode i) (exec_clearing_of_clear hi rfl) (by simp)
  exact engineTurns_lifecycleEnd h.cipherUnbind hcleared

/-- With nothing bound there is nothing to unbind. -/
theorem cipherUnbind_of_unbound (hb : s.ctx.bound = false) : cipherUnbind s = s := by
  simp only [cipherUnbind, hb, Bool.false_eq_true, if_false, List.append_nil]

/-- Settles O43: the second run finds nothing bound, and a context that is zero already. -/
theorem initAndFreeRunToTheZeroedContext : Obligations.InitAndFreeRunToTheZeroedContext := by
  unfold Obligations.InitAndFreeRunToTheZeroedContext
  intro s i h hp hi
  have hrest : AtRest s := h.atRest hp
  have hend := atRest_lifecycleEnd (i := i) hrest.cipherUnbind SUCCESS Context.zero
  refine ⟨_, engineTurns_clearing hrest hi, rfl, ?_, cipherUnbind_dev_of_unbound, fun i' hi' => ?_⟩
  · rw [statusWord_lifecycleEnd]
    rfl
  · rw [engineTurns_clearing hend hi', cipherUnbind_of_unbound rfl]
    rfl

/-! ### The runs of the setters -/

/-- CHECK and DONE of a setter, with SETCFG between them if the platform accepts the value (R241, R242, R245). -/
theorem engineTurns_setter {ok : Bool} {c : Context} (h : AtRest s)
    (hcheck : exec i (accept s (encode i)) =
      .next (if ok then (accept s (encode i)).goto .setcfg else (accept s (encode i)).finish BAD_INPUT))
    (hset : exec i ((accept s (encode i)).goto .setcfg) = .next (lifecycleAtDone s i SUCCESS c)) :
    engineTurns (if ok then 3 else 2) (accept s (encode i)) =
      .next (if ok then lifecycleEnd s i SUCCESS c else lifecycleEnd s i BAD_INPUT s.ctx) := by
  have hchecked := engineTurns_one_of_check hcheck
  cases ok with
  | true => exact engineTurns_lifecycleEnd h (engineTurns_snoc hchecked (decode_encode i) hset (by simp))
  | false => exact engineTurns_lifecycleEnd h hchecked

/-- Settles O44: each setter's CHECK tests the value as latched at acceptance, and its SETCFG writes that value. -/
theorem settersRunToTheirPair : Obligations.SettersRunToTheirPair := by
  unfold Obligations.SettersRunToTheirPair
  intro s h hp ended instOk ticksOk
  have hrest : AtRest s := h.atRest hp
  exact ⟨engineTurns_setter hrest (exec_setDeviceInstance_of_check rfl) (exec_setDeviceInstance_of_setcfg rfl),
    engineTurns_setter hrest (exec_setLockWaitTicks_of_check rfl) (exec_setLockWaitTicks_of_setcfg rfl)⟩

end Sys2Proof.Machine
end

section
/-! SUPPORT. BAD_INPUT: no step past CHECK gives it, and CHECK gives it, before any request and any change to the
context or memory, exactly when the command's test fails (R271). -/

namespace Sys2Proof.Machine

variable {s t : State} {cause : Prop}

/-! ### Steps past CHECK -/

/-- From `s` to `t` a command does not come to the pending result BAD_INPUT: `t` has it only if `s` had it. -/
def RaisesNoBadInput (s t : State) : Prop := t.pres = BAD_INPUT → s.pres = BAD_INPUT

theorem RaisesNoBadInput.of_pres_eq (h : t.pres = s.pres) : RaisesNoBadInput s t := fun ht => h ▸ ht

/-- A step that records another result. -/
theorem RaisesNoBadInput.of_ne (h : t.pres ≠ BAD_INPUT) : RaisesNoBadInput s t := fun ht => absurd ht h

theorem deviceTimeout_ne_badInput : DEVICE_TIMEOUT ≠ BAD_INPUT := by decide

theorem deviceFault_ne_badInput : DEVICE_FAULT ≠ BAD_INPUT := by decide

theorem verdict_ne_badInput (acc : Byte) : verdict acc ≠ BAD_INPUT := by
  rcases verdict_eq_success_or acc with h | h <;> rw [h] <;> decide

theorem raisesNoBadInput_lockStep (g f : Phase) (s : State) : RaisesNoBadInput s (lockStep g f s) := by
  simp only [lockStep]
  split
  case h_1 => exact .of_pres_eq rfl
  case h_2 => exact .of_ne deviceTimeout_ne_badInput
  case h_3 => exact .of_ne deviceFault_ne_badInput

theorem raisesNoBadInput_bindStep (s : State) : RaisesNoBadInput s (bindStep s) := by
  simp only [bindStep]
  split
  case h_1 => exact .of_pres_eq rfl
  case h_2 => exact .of_ne deviceFault_ne_badInput

theorem raisesNoBadInput_encLStep (s : State) : RaisesNoBadInput s (encLStep s) := by
  simp only [encLStep]
  split
  case h_1 => exact .of_pres_eq rfl
  case h_2 => exact .of_ne deviceFault_ne_badInput

theorem raisesNoBadInput_blockStep (b : List Byte) (s : State) : RaisesNoBadInput s (blockStep b s) := by
  simp only [blockStep]
  split
  case h_1 => exact .of_pres_eq rfl
  case h_2 => exact .of_ne deviceFault_ne_badInput

theorem raisesNoBadInput_lastBlockStep (b : List Byte) (s : State) : RaisesNoBadInput s (lastBlockStep b s) := by
  simp only [lastBlockStep]
  split
  case h_1 => exact .of_pres_eq rfl
  case h_2 => exact .of_ne deviceFault_ne_badInput

/-- A reading step raises no BAD_INPUT when what it goes on with raises none. -/
theorem raisesNoBadInput_reading {a : Word} {len : Nat} {k : List Byte → State → State}
    (hk : ∀ b v, RaisesNoBadInput v (k b v)) (h : reading s a len k = .next t) : RaisesNoBadInput s t := by
  obtain ⟨-, rfl⟩ := reading_eq_next_iff.mp h
  exact hk _ (s.emit _)

theorem raisesNoBadInput_execBlock (h : execBlock s = .next t) : RaisesNoBadInput s t := by
  unfold execBlock at h
  split at h
  case isTrue => exact raisesNoBadInput_reading raisesNoBadInput_blockStep h
  case isFalse =>
    split at h
    case isTrue => exact raisesNoBadInput_reading raisesNoBadInput_lastBlockStep h
    case isFalse => cases h

theorem raisesNoBadInput_releaseTag (s : State) : RaisesNoBadInput s (releaseTag s) := by
  unfold releaseTag
  split <;> exact .of_pres_eq rfl

theorem raisesNoBadInput_generateOut (h : generateOut s = .next t) : RaisesNoBadInput s t := by
  unfold generateOut at h
  split at h
  case isTrue => obtain ⟨-, rfl⟩ := writing_eq_next_iff.mp h; exact .of_pres_eq rfl
  case isFalse => cases h; exact .of_pres_eq rfl

theorem raisesNoBadInput_verifyOut (h : verifyOut s = .next t) : RaisesNoBadInput s t := by
  unfold verifyOut at h
  split at h
  case isTrue => obtain ⟨-, rfl⟩ := readingByte_eq_next_iff.mp h; exact .of_pres_eq rfl
  case isFalse => cases h; exact .of_ne (verdict_ne_badInput s.acc)

theorem raisesNoBadInput_execInit (h : execInit s = .next t) : RaisesNoBadInput s t := by
  unfold execInit at h
  split at h <;> cases h <;> exact .of_pres_eq rfl

theorem raisesNoBadInput_execSetDeviceInstance (hp : s.phase ≠ .check) (h : execSetDeviceInstance s = .next t) :
    RaisesNoBadInput s t := by
  unfold execSetDeviceInstance at h
  split at h <;> cases h
  case h_1 hcheck => exact absurd hcheck hp
  case h_2 => exact .of_pres_eq rfl
  case h_3 => exact .of_pres_eq rfl

theorem raisesNoBadInput_execSetLockWaitTicks (hp : s.phase ≠ .check) (h : execSetLockWaitTicks s = .next t) :
    RaisesNoBadInput s t := by
  unfold execSetLockWaitTicks at h
  split at h <;> cases h
  case h_1 hcheck => exact absurd hcheck hp
  case h_2 => exact .of_pres_eq rfl
  case h_3 => exact .of_pres_eq rfl

theorem raisesNoBadInput_reservedStep (hp : s.phase ≠ .check) (h : reservedStep s = .next t) :
    RaisesNoBadInput s t := by
  unfold reservedStep at h
  split at h <;> cases h
  case h_1 hcheck => exact absurd hcheck hp
  case h_2 => exact .of_pres_eq rfl

theorem raisesNoBadInput_execSetkey (hp : s.phase ≠ .check) (h : execSetkey s = .next t) : RaisesNoBadInput s t := by
  unfold execSetkey at h
  split at h
  case h_3 => exact raisesNoBadInput_reading (k := loadkeyStep) (fun _ _ => .of_pres_eq rfl) h
  all_goals cases h
  case h_1 hcheck => exact absurd hcheck hp
  case h_4 => exact raisesNoBadInput_bindStep s
  case h_5 => exact raisesNoBadInput_lockStep .encL .cleanup s
  case h_6 => exact raisesNoBadInput_encLStep s
  all_goals exact .of_pres_eq rfl

theorem raisesNoBadInput_execGenerateTag (hp : s.phase ≠ .check) (h : execGenerateTag s = .next t) :
    RaisesNoBadInput s t := by
  unfold execGenerateTag at h
  split at h
  case h_3 => exact raisesNoBadInput_execBlock h
  case h_5 => exact raisesNoBadInput_generateOut h
  all_goals cases h
  case h_1 hcheck => exact absurd hcheck hp
  case h_2 => exact raisesNoBadInput_lockStep .block .done s
  case h_4 => exact raisesNoBadInput_releaseTag s
  case h_6 => exact .of_pres_eq rfl

theorem raisesNoBadInput_execVerifyTag (hp : s.phase ≠ .check) (h : execVerifyTag s = .next t) :
    RaisesNoBadInput s t := by
  unfold execVerifyTag at h
  split at h
  case h_3 => exact raisesNoBadInput_execBlock h
  case h_5 => exact raisesNoBadInput_verifyOut h
  all_goals cases h
  case h_1 hcheck => exact absurd hcheck hp
  case h_2 => exact raisesNoBadInput_lockStep .block .done s
  case h_4 => exact raisesNoBadInput_releaseTag s
  case h_6 => exact .of_pres_eq rfl

theorem raisesNoBadInput_exec {i : Instr} (hp : s.phase ≠ .check) (h : exec i s = .next t) :
    RaisesNoBadInput s t := by
  cases i with
  | init => exact raisesNoBadInput_execInit h
  | setDeviceInstance => exact raisesNoBadInput_execSetDeviceInstance hp h
  | setLockWaitTicks => exact raisesNoBadInput_execSetLockWaitTicks hp h
  | setkey => exact raisesNoBadInput_execSetkey hp h
  | generateTag => exact raisesNoBadInput_execGenerateTag hp h
  | verifyTag => exact raisesNoBadInput_execVerifyTag hp h
  | free => exact raisesNoBadInput_execInit (execFree_eq_execInit ▸ h)

/-- No engine turn outside CHECK gives BAD_INPUT (R271). -/
theorem raisesNoBadInput_engineTurn (hp : s.phase ≠ .check) (h : engineTurn s = .next t) : RaisesNoBadInput s t := by
  rcases eq_or_commandStep_of_engineTurn h with rfl | hstep
  · exact .of_pres_eq rfl
  · unfold commandStep at hstep
    split at hstep
    · exact raisesNoBadInput_exec hp hstep
    · exact raisesNoBadInput_reservedStep hp hstep

/-! ### CHECK -/

/-- From `s` to `t` no request is issued, and context and memory are as they were. -/
structure ChecksOnly (s t : State) : Prop where
  trace : t.trace = s.trace
  ctx : t.ctx = s.ctx
  mem : t.mem = s.mem

/-- The engine's turn only checks, and its answer is BAD_INPUT, in DONE, exactly on `cause`. -/
def CheckAnswers (cause : Prop) (s : State) : Prop :=
  ∃ t, engineTurn s = .next t ∧ t.trace = s.trace ∧ t.ctx = s.ctx ∧ t.mem = s.mem ∧
    (t.phase = .done ↔ t.pres = BAD_INPUT) ∧ (t.pres = BAD_INPUT ↔ cause)

/-- A CHECK that passes goes on to a working phase, with the pending result still SUCCESS. -/
theorem checkAnswers_of_passed (hx : engineTurn s = .next t) (ho : ChecksOnly s t) (hq : t.phase ≠ .done)
    (hs : t.pres = SUCCESS) (hc : ¬ cause) : CheckAnswers cause s := by
  have hne : t.pres ≠ BAD_INPUT := by rw [hs]; decide
  exact ⟨t, hx, ho.trace, ho.ctx, ho.mem, iff_of_false hq hne, iff_of_false hne hc⟩

/-- A CHECK that fails finishes the command (R126). -/
theorem checkAnswers_of_failed (hx : engineTurn s = .next (s.finish BAD_INPUT)) (hc : cause) : CheckAnswers cause s :=
  ⟨_, hx, rfl, rfl, rfl, iff_of_true rfl rfl, iff_of_true rfl hc⟩

/-- The CHECK of a command that can fail is one test, with `t` the state that a passed test leads to. -/
theorem checkAnswers_of_test {i : Instr} {ok : Bool} (hp : s.phase = .check) (hd : decode s.lat.cmd = some i)
    (hx : exec i s = .next (if ok then t else s.finish BAD_INPUT)) (ho : ChecksOnly s t) (hq : t.phase ≠ .done)
    (hs : t.pres = SUCCESS) (hc : ok = false ↔ cause) : CheckAnswers cause s := by
  have hturn := engineTurn_of_exec (by simp [hp]) hd hx
  cases ok with
  | true => exact checkAnswers_of_passed hturn ho hq hs fun h => Bool.noConfusion (hc.mpr h)
  | false => exact checkAnswers_of_failed hturn (hc.mp rfl)

theorem checksOnly_goto (s : State) (q : Phase) : ChecksOnly s (s.goto q) := ⟨rfl, rfl, rfl⟩

theorem checksOnly_tagInit (s : State) : ChecksOnly s (tagInit s) := ⟨rfl, rfl, rfl⟩

/-- The causes of BAD_INPUT in SETKEY (R181, R271). -/
theorem setkeyCheck_eq_false_iff {lat : Latch} :
    setkeyCheck lat = false ↔
      lat.family ∉ Config.families ∨ lat.keyBits ∉ Config.keySizes lat.family ∨
        fits lat.keyAddr (lat.keyBits.toNat / 8) = false := by
  simp only [setkeyCheck, keyLen, Bool.and_eq_false_iff, decide_eq_false_iff_not, or_assoc]

/-- The causes of BAD_INPUT in the tag commands (R200, R271). -/
theorem tagCheck_eq_false_iff :
    tagCheck s = false ↔
      s.ctx.ready = false ∨ s.lat.dataLenBits.toNat % 8 ≠ 0 ∨ 128 ≤ s.lat.tagLenBits.toNat ∨
        fits s.lat.dataAddr (s.lat.dataLenBits.toNat / 8) = false ∨
        fits s.lat.tagAddr ((s.lat.tagLenBits.toNat + 7) / 8) = false := by
  simp only [tagCheck, dataLen, tagLen, tagBytes, Bool.and_eq_false_iff, beq_eq_false_iff_ne, decide_eq_false_iff_not,
    Nat.not_lt, or_assoc]

/-- INIT and FREE have no test (R240, R243). -/
theorem checkAnswers_clearing {i : Instr} (hp : s.phase = .check) (hd : decode s.lat.cmd = some i)
    (hi : i = .init ∨ i = .free) (hs : s.pres = SUCCESS) : CheckAnswers False s :=
  checkAnswers_of_passed (engineTurn_of_exec (by simp [hp]) hd (exec_clearing_of_check hi hp))
    (checksOnly_goto s .clear) (by simp) hs id

theorem checkAnswers_tag {i : Instr} (hp : s.phase = .check) (hd : decode s.lat.cmd = some i)
    (hi : i = .generateTag ∨ i = .verifyTag) (hs : s.pres = SUCCESS) (hc : tagCheck s = false ↔ cause) :
    CheckAnswers cause s :=
  checkAnswers_of_test hp hd (exec_tag_of_check hi hp) (checksOnly_tagInit s) (by simp [tagInit]) hs hc

/-- Settles O21: past CHECK a step keeps the pending result or records another code, and CHECK of each word is the test
of the table. -/
theorem badInputHasExactlyItsCauses : Obligations.BadInputHasExactlyItsCauses := by
  unfold Obligations.BadInputHasExactlyItsCauses
  refine ⟨fun s t hp hturn => raisesNoBadInput_engineTurn hp hturn, fun s hp hs => ?_⟩
  cases hd : decode s.lat.cmd with
  | none => exact checkAnswers_of_failed (engineTurn_of_reserved_check hd hp) trivial
  | some i =>
    cases i with
    | init => exact checkAnswers_clearing hp hd (.inl rfl) hs
    | setDeviceInstance =>
      exact checkAnswers_of_test hp hd (exec_setDeviceInstance_of_check hp) (checksOnly_goto s .setcfg) (by simp) hs
        .rfl
    | setLockWaitTicks =>
      exact checkAnswers_of_test hp hd (exec_setLockWaitTicks_of_check hp) (checksOnly_goto s .setcfg) (by simp) hs
        .rfl
    | setkey =>
      exact checkAnswers_of_test hp hd (exec_setkey_of_check hp) (checksOnly_goto s .discard) (by simp) hs
        setkeyCheck_eq_false_iff
    | generateTag => exact checkAnswers_tag hp hd (.inl rfl) hs tagCheck_eq_false_iff
    | verifyTag => exact checkAnswers_tag hp hd (.inr rfl) hs tagCheck_eq_false_iff
    | free => exact checkAnswers_clearing hp hd (.inr rfl) hs

end Sys2Proof.Machine
end

section
/-! SUPPORT. Reset (spec/70_reset_and_hazards.md R310 to R312), and operand registers written while a command runs
(R324). -/

namespace Sys2Proof.Machine

/-! ### Operand registers during a command -/

/-- Settles O14: the operand registers are among the fields that no step reads. -/
theorem operandRegistersDoNotReachACommandInFlight : Obligations.OperandRegistersDoNotReachACommandInFlight := by
  unfold Obligations.OperandRegistersDoNotReachACommandInFlight
  exact fun s r => ⟨fun i => exec_mapHost (fun _ => r) id s i, engineTurn_mapHost (fun _ => r) id s⟩

/-! ### Reset -/

theorem step_of_reset {s : State} {rest : List Turn} (h : s.sched = .reset :: rest) :
    step s = .next (resetEvent { s with sched := rest }) := by
  simp only [step, nextTurn, h, takeTurn]

theorem resetEvent_phase (s : State) : (resetEvent s).phase = .idle := rfl

/-- STATUS shows no field that a reset keeps. -/
theorem statusWord_resetEvent (s : State) : statusWord (resetEvent s) = 0 :=
  calc
    statusWord (resetEvent s) = statusWord State.reset := rfl
    _ = 0 := by decide

/-- The device keeps the block's locks or loses them all (R311; log 12). -/
theorem Device.afterReset_locks (d : Device) : d.afterReset.locks = d.locks ∨ d.afterReset.locks = [] :=
  (ite_eq_or_eq _ [] d.locks).symm

/-- The device keeps the block's bindings or loses them all (R311; log 12). -/
theorem Device.afterReset_bindings (d : Device) : d.afterReset.bindings = d.bindings ∨ d.afterReset.bindings = [] :=
  (ite_eq_or_eq _ [] d.bindings).symm

/-- Settles O15: a reset turn leads to `resetEvent`, which names every field it keeps, and its engine is idle. -/
theorem resetSetsEveryFieldAndAbandonsTheCommand : Obligations.ResetSetsEveryFieldAndAbandonsTheCommand := by
  unfold Obligations.ResetSetsEveryFieldAndAbandonsTheCommand
  intro s rest hsched
  exact ⟨resetEvent { s with sched := rest }, step_of_reset hsched, statusWord_resetEvent _, rfl, rfl, fun _ => rfl, rfl,
    rfl, s.dev.afterReset_locks, s.dev.afterReset_bindings, engineTurns_of_idle (resetEvent_phase _)⟩

end Sys2Proof.Machine
end
